-- ==== Sys2Proof/Word.lean ====
section
/-! DEFINITION. The register word and the byte of HEB (00_scope.md R5, R6). -/

namespace Sys2Proof

/-- A register value: 32 bits, unsigned (00_scope.md R5 `XLEN`, R6). -/
abbrev Word := BitVec 32

/-- A byte of MEM and a byte value of the frequency table (00_scope.md R5 `NSYM`, 20_memory.md R60). -/
abbrev Byte := BitVec 8

end Sys2Proof
end

