-- ==== Sys2Proof/Machine/Bits.lean ====
section
/-! DEFINITION. Bit-strings as lists of bits, first bit first, and the correspondence "most-significant bit first"
between a string and a number (00_scope.md R7, 20_memory.md R64). -/

namespace Sys2Proof.Machine

/-- The number a bit-string spells, its first bit most significant. -/
def bitsToNat (bits : List Bool) : Nat := bits.foldl (fun n b => 2 * n + b.toNat) 0

/-- bits8(b): position 0 is bit 7 of b, position 7 is bit 0 of b (00_scope.md R7). -/
def bits8 (b : Byte) : List Bool :=
  [b.getLsbD 7, b.getLsbD 6, b.getLsbD 5, b.getLsbD 4, b.getLsbD 3, b.getLsbD 2, b.getLsbD 1, b.getLsbD 0]

/-- byte8(s), the inverse of bits8 on strings of length 8 (00_scope.md R7). -/
def byte8 (bits : List Bool) : Byte := BitVec.ofNat 8 (bitsToNat bits)

/-- Every consecutive 8 bits packed into one byte (45_bitpack.md R170). The packer only gives strings whose length is a
multiple of 8. -/
def packBytes : List Bool → List Byte
  | b7 :: b6 :: b5 :: b4 :: b3 :: b2 :: b1 :: b0 :: rest => byte8 [b7, b6, b5, b4, b3, b2, b1, b0] :: packBytes rest
  | _ => []

/-- The bytes expanded to one bit-string, first byte first (45_bitpack.md R171). -/
def unpackBits (bytes : List Byte) : List Bool := bytes.flatMap bits8

/-- Word k of a bit-string left-aligned in 256 bits: bit 31 - j of the word is position 32k + j of the string, zeros
past its end (10_state.md R37, 44_codetable.md R161). -/
def alignedWord (bits : List Bool) (k : Nat) : Word :=
  BitVec.ofNat 32 (bitsToNat (((bits ++ List.replicate (256 - bits.length) false).drop (32 * k)).take 32))

end Sys2Proof.Machine
end

