-- ==== Sys2Proof/Syntax.lean ====
section
/-! DEFINITION. The 13 commands of HEB-CMD (30_encoding.md R93) and the transactions the host performs
(00_scope.md R8, R10; 30_encoding.md R96, R98). -/

namespace Sys2Proof

/-- A command: one constructor per row of the opcode table (30_encoding.md R93). `sym` is word[15:8] and
`idx` is word[16:8] (R92). -/
inductive Instr where
  | nop
  | sreset
  | fclr
  | fset (sym : BitVec 8)
  | fget (sym : BitVec 8)
  | count
  | entropy
  | build
  | tget (idx : BitVec 9)
  | gencode
  | cget (sym : BitVec 8)
  | pack
  | unpack
deriving DecidableEq, Repr

/-- What the world outside the engine does to the block, one transaction at a time. -/
inductive HostTxn where
  /-- RegRead(off): 10_state.md R21, 40_control.md R119. -/
  | regRead (off : Nat)
  /-- RegWrite(off, v): 10_state.md R21, 40_control.md R119; off 0x04 issues a command (R112). -/
  | regWrite (off : Nat) (v : Word)
  /-- The host reads one byte of MEM: 00_scope.md R10, 70_reset_and_hazards.md R251. -/
  | memRead (a : Word)
  /-- The host writes one byte of MEM: 00_scope.md R10, 70_reset_and_hazards.md R251. -/
  | memWrite (a : Word) (v : Byte)
  /-- The platform applies a hardware reset: 70_reset_and_hazards.md R240, R242. -/
  | hardReset
  /-- WAIT: read STATUS until bit 0 reads 0 (30_encoding.md R98; log 18). -/
  | wait
  /-- CHECK: read ERR and go on only if it reads 0 (30_encoding.md R98; log 18). -/
  | check
deriving DecidableEq, Repr

end Sys2Proof
end

