-- ==== Sys2Proof/WellFormed.lean ====
section
/-! DEFINITION. Which commands and host transactions are well formed. -/

namespace Sys2Proof

/-- The operand ranges of 30_encoding.md R92: `sym` is 0 to 255 and `idx` is 0 to 511. The fields have exactly
these widths, so every `Instr` passes; a word outside the opcode map is no `Instr` at all and is refused by
`decode` (R94). -/
def Instr.wellFormed : Instr → Bool
  | .nop => true
  | .sreset => true
  | .fclr => true
  | .fset sym => sym.toNat < 256
  | .fget sym => sym.toNat < 256
  | .count => true
  | .entropy => true
  | .build => true
  | .tget idx => idx.toNat < 512
  | .gencode => true
  | .cget sym => sym.toNat < 256
  | .pack => true
  | .unpack => true

/-- The register window has whole 32-bit registers at the offsets 0x000 to 0x0FC that are multiples of 4
(10_state.md R21); any other access has no meaning (93_implementation_defined.md U6). -/
def HostTxn.offsetOk (off : Nat) : Bool := off % 4 == 0 && off < 0x100

/-- A transaction the block's rules give a meaning to (log 9). -/
def HostTxn.wellFormed : HostTxn → Bool
  | .regRead off => HostTxn.offsetOk off
  | .regWrite off _ => HostTxn.offsetOk off
  | .memRead _ => true
  | .memWrite _ _ => true
  | .hardReset => true
  | .wait => true
  | .check => true

end Sys2Proof
end

