-- ==== Sys2Proof/Decode.lean ====
section
/-! DEFINITION. The opcode map of 30_encoding.md R93, the decoder read off it, and the encoder. -/

namespace Sys2Proof

/-- One row of the opcode map: a word w selects it exactly when w AND mask = value (30_encoding.md R93). -/
structure OpcodeRow where
  mnemonic : String
  mask : Word
  value : Word
  build : Word → Instr

/-- `sym` = word[15:8] (30_encoding.md R92). -/
def symField (w : Word) : BitVec 8 := w.extractLsb' 8 8

/-- `idx` = word[16:8] (30_encoding.md R92). -/
def idxField (w : Word) : BitVec 9 := w.extractLsb' 8 9

/-- `op` = word[7:0] (30_encoding.md R91). -/
def opField (w : Word) : BitVec 8 := w.extractLsb' 0 8

/-- The 13 rows of 30_encoding.md R93, in the table's order. -/
def opcodeRows : List OpcodeRow := [
  { mnemonic := "NOP",     mask := 0xFFFFFFFF, value := 0x00000000, build := fun _ => .nop },
  { mnemonic := "SRESET",  mask := 0xFFFFFFFF, value := 0x00000001, build := fun _ => .sreset },
  { mnemonic := "FCLR",    mask := 0xFFFFFFFF, value := 0x00000010, build := fun _ => .fclr },
  { mnemonic := "FSET",    mask := 0xFFFF00FF, value := 0x00000011, build := fun w => .fset (symField w) },
  { mnemonic := "FGET",    mask := 0xFFFF00FF, value := 0x00000012, build := fun w => .fget (symField w) },
  { mnemonic := "COUNT",   mask := 0xFFFFFFFF, value := 0x00000013, build := fun _ => .count },
  { mnemonic := "ENTROPY", mask := 0xFFFFFFFF, value := 0x00000020, build := fun _ => .entropy },
  { mnemonic := "BUILD",   mask := 0xFFFFFFFF, value := 0x00000030, build := fun _ => .build },
  { mnemonic := "TGET",    mask := 0xFFFE00FF, value := 0x00000031, build := fun w => .tget (idxField w) },
  { mnemonic := "GENCODE", mask := 0xFFFFFFFF, value := 0x00000032, build := fun _ => .gencode },
  { mnemonic := "CGET",    mask := 0xFFFF00FF, value := 0x00000033, build := fun w => .cget (symField w) },
  { mnemonic := "PACK",    mask := 0xFFFFFFFF, value := 0x00000040, build := fun _ => .pack },
  { mnemonic := "UNPACK",  mask := 0xFFFFFFFF, value := 0x00000041, build := fun _ => .unpack }]

/-- Whether the word `w` selects the row `r` (30_encoding.md R93). -/
def OpcodeRow.selects (r : OpcodeRow) (w : Word) : Bool := w &&& r.mask == r.value

/-- The two ways a word is no command (30_encoding.md R94). -/
inductive Illegal where
  /-- The `op` value is none of the 13 listed. -/
  | unlistedOp (op : BitVec 8)
  /-- A listed `op` with a non-zero "must be 0" field. -/
  | mustBeZero (w : Word)
deriving DecidableEq, Repr

/-- Why a word that selects no row is illegal (30_encoding.md R94). -/
def illegalReason (w : Word) : Illegal :=
  if opcodeRows.any (fun r => opField r.value == opField w) then .mustBeZero w else .unlistedOp (opField w)

/-- The decoder: the row the word selects, or the name of what makes the word illegal
(30_encoding.md R93, R94, R95). -/
def decode (w : Word) : Except Illegal Instr :=
  match opcodeRows.find? (fun r => r.selects w) with
  | some r => .ok (r.build w)
  | none => .error (illegalReason w)

/-- A word of format S or T: the argument above the opcode (30_encoding.md R91, R97). -/
def argWord {n : Nat} (arg : BitVec n) (op : Word) : Word := (arg.setWidth 32 <<< 8) ||| op

/-- The word of a command (30_encoding.md R91, R93, R97). -/
def encode : Instr → Word
  | .nop => 0x00
  | .sreset => 0x01
  | .fclr => 0x10
  | .fset sym => argWord sym 0x11
  | .fget sym => argWord sym 0x12
  | .count => 0x13
  | .entropy => 0x20
  | .build => 0x30
  | .tget idx => argWord idx 0x31
  | .gencode => 0x32
  | .cget sym => argWord sym 0x33
  | .pack => 0x40
  | .unpack => 0x41

/-- The command word the opcode table writes as `nbits` bits with value `w`: one 32-bit word, bits at and above
`nbits` zero (30_encoding.md R90). -/
def tableWord (nbits w : Nat) : Word := BitVec.ofNat 32 (w % 2 ^ nbits)

/-- What the decoder reads from the opcode table's word. -/
def decodeTableWord (nbits w : Nat) : Option Instr :=
  match decode (tableWord nbits w) with
  | .ok i => some i
  | .error _ => none

end Sys2Proof
end

