-- ==== Sys2Proof/Config.lean ====
section
/-! DEFINITION. What one HEB fixes (00_scope.md R5) and the values the spec leaves free. The three constants
without a body are free values: no proof can see what they are. -/

namespace Sys2Proof

/-- The number of bytes of MEM: 2^AW with AW = 32 (00_scope.md R5, 20_memory.md R60). -/
def Config.memBytes : Nat := 4294967296

/-- The largest value of a 32-bit register, at which ERRINFO saturates (60_exceptions.md R200). -/
def Config.wordMax : Nat := 4294967295

/-- The constant of register ID, the ASCII bytes "HUF1" (10_state.md R38). -/
def Config.idValue : Word := 0x48554631

/-- `ENT_TOL`, the allowed error of the entropy result in units of 2^-28 (00_scope.md R5, 41_entropy.md R122). -/
def Config.entTol : Nat := 4096

/-- The largest entropy result, 8.0 in Q4.28 (41_entropy.md R122 `ENTQ_max`). -/
def Config.entMax : Nat := 0x80000000

/-- DESIGN CHOICE (log 5), safe. The open part of `ENTQ` (41_entropy.md R122): the value the implementation
proposes for the 256 counts. `Machine.entq` takes it only where it has the four properties of the rule. -/
opaque Config.entqChoice : List Word → Word

/-- DESIGN CHOICE (log 6), safe. A free 32-bit draw: what a register read while BUSY = 1 returns
(70_reset_and_hazards.md R247). -/
opaque Config.freeWord : Nat → Word

/-- DESIGN CHOICE (log 6), safe. A free byte draw: a byte of the destination window of a running command
(20_memory.md R73) or of one a hardware reset ended (70_reset_and_hazards.md R242). -/
opaque Config.freeByte : Nat → Byte

end Sys2Proof
end

