-- ==== Sys2Proof/Machine/Table.lean ====
section
/-! DEFINITION. A table of fixed size: the shape of FREQ, VALID, NODE, CODE and CODEW (10_state.md R20). A list
paired with the proof of its length, so that a table of the wrong size cannot be built. -/

namespace Sys2Proof.Machine

/-- `n` entries of type `α`. -/
structure Table (α : Type) (n : Nat) where
  cells : List α
  length_eq : cells.length = n
deriving DecidableEq, Repr

/-- The table whose every entry is `a`. -/
def Table.fill {α : Type} (n : Nat) (a : α) : Table α n := ⟨List.replicate n a, List.length_replicate⟩

/-- The table whose entry i is `f i`. -/
def Table.tabulate {α : Type} (n : Nat) (f : Nat → α) : Table α n := ⟨(List.range n).map f, by simp⟩

/-- Entry `i`, `T[i]` of 00_scope.md R8. No rule reads an entry past the table's end; such a read gives the type's
default. -/
def Table.get {α : Type} {n : Nat} [Inhabited α] (t : Table α n) (i : Nat) : α := t.cells.getD i default

/-- `T[i] <- v` of 00_scope.md R8. -/
def Table.set {α : Type} {n : Nat} (t : Table α n) (i : Nat) (v : α) : Table α n :=
  ⟨t.cells.set i v, by rw [List.length_set]; exact t.length_eq⟩

end Sys2Proof.Machine
end

