-- ==== Sys2Proof/Machine/State.lean ====
section
/-! DEFINITION. The state of one block, its memory and its host (10_state.md R20, 20_memory.md R60), the reasons a
step can stop, and the state after reset (10_state.md R59). -/

namespace Sys2Proof.Machine

/-- STATUS.TKIND (10_state.md R40): no valid tree; a valid tree with no node; a root that is a leaf; a root that is
an internal node. -/
inductive TKind where
  | none
  | empty
  | single
  | multi
deriving DecidableEq, Repr, Inhabited

/-- A node of the arena: a leaf with its weight (its byte value is its index) or an internal node with its weight
and its two children (10_state.md R51). -/
inductive Node where
  | leaf (w : BitVec 40)
  | internal (w : BitVec 40) (left right : BitVec 9)
deriving DecidableEq, Repr, Inhabited

/-- An entry of the code table: its bit-string, first bit first (10_state.md R52, 00_scope.md R7). `len` is the
length of the string; the empty string is "no code" (log 16). -/
abbrev Code := List Bool

/-- The operands the engine copies when it accepts a command (10_state.md R53). -/
structure Latched where
  word : Word
  src : Word
  len : Word
  dst : Word
  dcap : Word
  arg : Word
  padin : Byte
deriving DecidableEq, Repr

/-- MEM as (address, byte) pairs in one canonical form, see `Memory.wf` (20_memory.md R60; log 3). -/
abbrev Memory := List Host.Cell

/-- A range of addresses the platform does not back: `base` to `base + size - 1` (20_memory.md R71; log 4). -/
structure Hole where
  base : Nat
  size : Nat
deriving DecidableEq, Repr

/-- Every piece of state the spec gives the block (10_state.md R20), MEM, and the model's own record of the host. -/
structure State where
  /-- STATUS.BUSY (R40) -/
  busy : Bool
  /-- STATUS.CODE_V (R40) -/
  codeV : Bool
  /-- STATUS.TKIND (R40) -/
  tkind : TKind
  /-- ERR (R41) -/
  err : Word
  /-- ERRINFO (R42) -/
  errinfo : Word
  /-- ERRLOG (R43) -/
  errlog : Word
  /-- IEN: bit 0 DONE_EN, bit 1 ERR_EN (R44) -/
  ien : BitVec 2
  /-- IPEND: bit 0 DONE, bit 1 ERRP (R45) -/
  ipend : BitVec 2
  /-- CMDCNT (R46) -/
  cmdcnt : Word
  /-- SRC (R23) -/
  src : Word
  /-- LEN (R24) -/
  len : Word
  /-- DST (R25) -/
  dst : Word
  /-- DCAP (R26) -/
  dcap : Word
  /-- ARG (R27) -/
  arg : Word
  /-- PADIN (R28) -/
  padin : Byte
  /-- RES0 (R29) -/
  res0 : Word
  /-- RES1 (R29) -/
  res1 : Word
  /-- RES2 (R29) -/
  res2 : Word
  /-- OUTLEN (R30) -/
  outlen : Word
  /-- PAD (R31) -/
  pad : BitVec 3
  /-- BITLEN_LO (R32) -/
  bitlenLo : Word
  /-- BITLEN_HI (R32) -/
  bitlenHi : Byte
  /-- NENT (R33) -/
  nent : BitVec 9
  /-- ENT (R34) -/
  ent : Word
  /-- ROOT (R35) -/
  root : BitVec 9
  /-- NNODE (R36) -/
  nnode : BitVec 9
  /-- CODEW0 to CODEW7 (R37) -/
  codew : Table Word 8
  /-- FREQ[0..255] (R49) -/
  freq : Table Word 256
  /-- VALID[0..255] (R50) -/
  valid : Table Bool 256
  /-- NODE[0..510] (R51) -/
  node : Table Node 511
  /-- CODE[0..255] (R52) -/
  code : Table Code 256
  /-- the operands latched by the running command (R53) -/
  latched : Latched
  /-- MEM (20_memory.md R60) -/
  mem : Memory
  /-- where MEM_OK is false (20_memory.md R71; log 4) -/
  holes : List Hole
  /-- the model's own: the transactions still to come (log 1) -/
  script : List HostTxn
  /-- the model's own: what the last host read returned (log 13) -/
  hostData : Word
  /-- the model's own: how many transactions land inside each command still to be accepted (log 2) -/
  delays : List Nat
  /-- the model's own: how many transactions still land inside the running command (log 2) -/
  left : Nat
  /-- the model's own: the number of free draws made (log 6) -/
  draws : Nat
deriving DecidableEq, Repr

/-- Why a step can stop with a fault. No command stops the machine: a command that meets an error completes with a
fault record, a next state (60_exceptions.md R200). -/
inductive Fault where
  /-- Raised by a host write to the byte at `a` inside a window of the running command, a race the spec gives no move
  for (70_reset_and_hazards.md R246, 93_implementation_defined.md U8; log 8). Safe. -/
  | windowRace (a : Nat)
deriving DecidableEq, Repr

/-- Why a step can be refused. -/
inductive Refusal where
  /-- Raised by `exec` for an instruction that has no meaning yet; no arm uses it. Safe. -/
  | notModelled (mnemonic : String)
  /-- Raised by a register access that is not a whole register of the window: an offset that is no multiple of 4 or
  lies beyond 0x0FC (10_state.md R21, 93_implementation_defined.md U6; log 9). Safe. -/
  | registerAccess (off : Nat)
deriving DecidableEq, Repr

/-- The result of one step. -/
abbrev Result := Host.Outcome State Fault Refusal

/-- The arena with nothing in it (log 10). -/
def blankNodes : Table Node 511 := .fill 511 (.leaf 0)

/-- The code table with no code (44_codetable.md R160; log 10). -/
def blankCodes : Table Code 256 := .fill 256 []

/-- No latched operand (10_state.md R59 "empty"; log 11). -/
def Latched.none : Latched := { word := 0, src := 0, len := 0, dst := 0, dcap := 0, arg := 0, padin := 0 }

/-- The state after reset: every register but ID reads 0, the frequency table is empty, there is no tree and no code
table (10_state.md R59, 70_reset_and_hazards.md R241). NODE and CODE: DESIGN CHOICE (log 10), unsafe. Latched
operands: DESIGN CHOICE (log 11), unsafe. The model's own fields: DESIGN CHOICE (logs 1, 2, 6, 13). -/
def State.reset : State where
  busy := false
  codeV := false
  tkind := .none
  err := 0
  errinfo := 0
  errlog := 0
  ien := 0
  ipend := 0
  cmdcnt := 0
  src := 0
  len := 0
  dst := 0
  dcap := 0
  arg := 0
  padin := 0
  res0 := 0
  res1 := 0
  res2 := 0
  outlen := 0
  pad := 0
  bitlenLo := 0
  bitlenHi := 0
  nent := 0
  ent := 0
  root := 0
  nnode := 0
  codew := .fill 8 0
  freq := .fill 256 0
  valid := .fill 256 false
  node := blankNodes
  code := blankCodes
  latched := .none
  mem := []
  holes := []
  script := []
  hostData := 0
  delays := []
  left := 0
  draws := 0

end Sys2Proof.Machine
end

