-- ==== Sys2Proof/Machine/Flags.lean ====
section
/-! DEFINITION. Every flag computation of the block: STATUS, the interrupt's pending bits and level, and the sticky
error log (10_state.md R40, R43 to R45, R48; 60_exceptions.md R215 to R217). -/

namespace Sys2Proof.Machine

/-- The number of a TKIND (10_state.md R40). -/
def TKind.code : TKind → BitVec 2
  | .none => 0
  | .empty => 1
  | .single => 2
  | .multi => 3

/-- The register STATUS: bit 0 BUSY, bit 1 CODE_V, bits 3:2 TKIND, the rest 0 (10_state.md R40). -/
def statusWord (busy codeV : Bool) (tkind : TKind) : Word :=
  (BitVec.ofBool busy).setWidth 32 ||| ((BitVec.ofBool codeV).setWidth 32 <<< 1) ||| (tkind.code.setWidth 32 <<< 2)

/-- STATUS as the host reads it (10_state.md R40). -/
def State.status (s : State) : Word := statusWord s.busy s.codeV s.tkind

/-- IPEND.DONE <- 1 (10_state.md R45, 40_control.md R113). -/
def setDone (p : BitVec 2) : BitVec 2 := p ||| 1

/-- IPEND.ERRP <- 1 (10_state.md R45, 60_exceptions.md R200). -/
def setErrp (p : BitVec 2) : BitVec 2 := p ||| 2

/-- A host write to IPEND: a 1 clears its bit, a 0 leaves it (10_state.md R45, 40_control.md R119). -/
def clearPending (p : BitVec 2) (v : Word) : BitVec 2 := p &&& ~~~(v.setWidth 2)

/-- ERRLOG[n] <- 1 (10_state.md R43, 60_exceptions.md R200). -/
def logBit (errlog : Word) (n : Nat) : Word := errlog ||| BitVec.twoPow 32 n

/-- The number of bit HOSTVIOL of ERRLOG (10_state.md R43). -/
def hostViolBit : Nat := 31

/-- The interrupt output, a pure function of IEN and IPEND (60_exceptions.md R216). -/
def State.irq (s : State) : Bool :=
  (s.ien.getLsbD 0 && s.ipend.getLsbD 0) || (s.ien.getLsbD 1 && s.ipend.getLsbD 1)

end Sys2Proof.Machine
end

