-- ==== Sys2Proof/Machine/Ops.lean ====
section
/-! DEFINITION. The operations every command shares: the memory primitives (20_memory.md R63), the two ways a command
completes, `complete` (40_control.md R113) and `raise` (60_exceptions.md R200, the block's only exception),
`invalidate` (10_state.md R58), and reset (10_state.md R59). -/

namespace Sys2Proof.Machine

/-- What an address that MEM does not list reads as. DESIGN CHOICE (log 3), unsafe: the spec leaves the initial
contents to the platform (10_state.md R59). -/
def Memory.unlisted : Byte := 0

/-- MemRead(a, 1) (20_memory.md R63). -/
def Memory.read : Memory → Nat → Byte
  | [], _ => Memory.unlisted
  | (b, v) :: rest, a => if b = a then v else Memory.read rest a

/-- A cell put in front, unless it holds what an unlisted address reads as anyway. -/
def Memory.cons (a : Nat) (v : Byte) (m : Memory) : Memory :=
  if v = Memory.unlisted then m else (a, v) :: m

/-- MemWrite(a, 1, v) (20_memory.md R63), keeping the canonical form. -/
def Memory.write : Memory → Nat → Byte → Memory
  | [], a, v => Memory.cons a v []
  | (b, u) :: rest, a, v =>
    if a < b then Memory.cons a v ((b, u) :: rest)
    else if a = b then Memory.cons a v rest
    else (b, u) :: Memory.write rest a v

/-- The canonical form from address `lo` on: addresses strictly rising, inside MEM, no cell listed in vain. -/
def Memory.wfFrom : Nat → Memory → Bool
  | _, [] => true
  | lo, (a, v) :: rest =>
    decide (lo ≤ a) && decide (a < Config.memBytes) && decide (v ≠ Memory.unlisted) && Memory.wfFrom (a + 1) rest

/-- The canonical form of MEM: equal memories are equal lists. -/
def Memory.wf (m : Memory) : Bool := Memory.wfFrom 0 m

/-- The `n` bytes at `base`, `base + 1`, … (20_memory.md R64, R79). -/
def Memory.readBytes (m : Memory) (base n : Nat) : List Byte := (List.range n).map fun j => m.read (base + j)

/-- Successive bytes stored at ascending addresses from `base` (20_memory.md R64, R79). -/
def Memory.writeBytes : Memory → Nat → List Byte → Memory
  | m, _, [] => m
  | m, base, b :: bs => Memory.writeBytes (m.write base b) (base + 1) bs

/-- The names of the error codes (60_exceptions.md R201). -/
inductive ErrCode where
  | illcmd
  | empty
  | addr
  | overlap
  | state
  | nocode
  | dstovf
  | malformed
  | bus
deriving DecidableEq, Repr

/-- The number of an error code (60_exceptions.md R201). -/
def ErrCode.code : ErrCode → Nat
  | .illcmd => 1
  | .empty => 2
  | .addr => 3
  | .overlap => 4
  | .state => 5
  | .nocode => 6
  | .dstovf => 7
  | .malformed => 8
  | .bus => 9

/-- complete(): the command finishes without error (40_control.md R113). -/
def complete (s : State) : State :=
  { s with err := 0, errinfo := 0, ipend := setDone s.ipend, cmdcnt := s.cmdcnt + 1, busy := false }

/-- raise E(info): the command aborts, and only the fault record is written (60_exceptions.md R200, R213). -/
def raise (e : ErrCode) (info : Nat) (s : State) : State :=
  { s with
    err := BitVec.ofNat 32 e.code
    errinfo := BitVec.ofNat 32 (min info Config.wordMax)
    errlog := logBit s.errlog e.code
    ipend := setErrp (setDone s.ipend)
    cmdcnt := s.cmdcnt + 1
    busy := false }

/-- A command that meets an error: the step answers the state with the fault record. -/
def faulting (e : ErrCode) (info : Nat) (s : State) : Result := .next (raise e info s)

/-- invalidate(): the tree and the code table are dropped; NODE and CODE keep what they held (10_state.md R58). -/
def invalidate (s : State) : State := { s with tkind := .none, codeV := false, root := 0, nnode := 0 }

/-- The block goes to the reset state (10_state.md R59, 70_reset_and_hazards.md R240). MEM and what the platform backs
are not touched (R242), nor is the model's record of the host. -/
def blockReset (s : State) : State :=
  { State.reset with
    mem := s.mem
    holes := s.holes
    script := s.script
    hostData := s.hostData
    delays := s.delays
    draws := s.draws }

end Sys2Proof.Machine
end

