-- ==== Sys2Proof/Machine/Operands.lean ====
section
/-! DEFINITION. The operand forms: the latched registers (10_state.md R53), the windows and their checks
(20_memory.md R68 to R71), and the bytes of the source window (R79). -/

namespace Sys2Proof.Machine

/-- The addresses base to base + size - 1 (20_memory.md R68). -/
def inWindow (a base size : Nat) : Bool := decide (base ≤ a) && decide (a < base + size)

/-- MEM_OK(a): the platform backs the address (20_memory.md R71). -/
def memOk (holes : List Hole) (a : Nat) : Bool := !holes.any fun h => inWindow a h.base h.size

/-- The lowest address of the window the platform does not back (20_memory.md R71). -/
def firstUnbacked : List Hole → Nat → Nat → Option Nat
  | [], _, _ => none
  | h :: rest, base, size =>
    let others := firstUnbacked rest base size
    let a := max base h.base
    if a < min (base + size) (h.base + h.size) then
      match others with
      | some b => some (min a b)
      | none => some a
    else others

/-- CheckWindows(has_dst) on the latched operands: the error it raises, or none (20_memory.md R68). -/
def checkWindows (s : State) (hasDst : Bool) : Option (ErrCode × Nat) :=
  let src := s.latched.src.toNat
  let len := s.latched.len.toNat
  let dst := s.latched.dst.toNat
  let dcap := s.latched.dcap.toNat
  if src + len > Config.memBytes then some (.addr, 0)
  else if hasDst ∧ dst + dcap > Config.memBytes then some (.addr, 1)
  else if hasDst ∧ len > 0 ∧ dcap > 0 ∧ src < dst + dcap ∧ dst < src + len then some (.overlap, 0)
  else match firstUnbacked s.holes src len with
    | some a => some (.bus, a)
    | none => if hasDst then (firstUnbacked s.holes dst dcap).map fun a => (.bus, a) else none

/-- The bytes of the source window, in order (20_memory.md R79). -/
def sourceBytes (s : State) : List Byte := s.mem.readBytes s.latched.src.toNat s.latched.len.toNat

/-- The operands copied at acceptance (10_state.md R53). -/
def latch (w : Word) (s : State) : Latched :=
  { word := w, src := s.src, len := s.len, dst := s.dst, dcap := s.dcap, arg := s.arg, padin := s.padin }

/-- Whether a command reads the source window (20_memory.md R60, R68). -/
def readsSource : Instr → Bool
  | .nop => false
  | .sreset => false
  | .fclr => false
  | .fset _ => false
  | .fget _ => false
  | .count => true
  | .entropy => true
  | .build => false
  | .tget _ => false
  | .gencode => false
  | .cget _ => false
  | .pack => true
  | .unpack => true

/-- Whether a command writes the destination window (20_memory.md R60, R68). -/
def writesDest : Instr → Bool
  | .nop => false
  | .sreset => false
  | .fclr => false
  | .fset _ => false
  | .fget _ => false
  | .count => false
  | .entropy => false
  | .build => false
  | .tget _ => false
  | .gencode => false
  | .cget _ => false
  | .pack => true
  | .unpack => true

/-- The address lies in the source window of the running command (70_reset_and_hazards.md R246). -/
def inRunningSource (s : State) (a : Nat) : Bool :=
  match decode s.latched.word with
  | .ok i => readsSource i && inWindow a s.latched.src.toNat s.latched.len.toNat
  | .error _ => false

/-- The address lies in the destination window of the running command (20_memory.md R73, 70_reset_and_hazards.md
R246). -/
def inRunningDest (s : State) (a : Nat) : Bool :=
  match decode s.latched.word with
  | .ok i => writesDest i && inWindow a s.latched.dst.toNat s.latched.dcap.toNat
  | .error _ => false

end Sys2Proof.Machine
end

