-- ==== Sys2Proof/Machine/Tree.lean ====
section
/-! DEFINITION. The Huffman Tree Builder: BUILD (43_tree.md R140, R141) and TGET (R143). -/

namespace Sys2Proof.Machine

/-- The weight of a node (10_state.md R51). -/
def Node.weight : Node → BitVec 40
  | .leaf w => w
  | .internal w _ _ => w

/-- The left child; a leaf has none and gives 0 (10_state.md R51). -/
def Node.left : Node → BitVec 9
  | .leaf _ => 0
  | .internal _ l _ => l

/-- The right child; a leaf has none and gives 0 (10_state.md R51). -/
def Node.right : Node → BitVec 9
  | .leaf _ => 0
  | .internal _ _ r => r

/-- An index of a leaf: 0 to 255 (10_state.md R51). -/
def isLeafIndex (i : BitVec 9) : Bool := decide (i.toNat ≤ 255)

/-- A node in the priority structure, with the weight its key reads (43_tree.md R141). -/
structure QEntry where
  weight : BitVec 40
  idx : BitVec 9
deriving DecidableEq, Repr

/-- kind(i): 0 for an internal node, 1 for a leaf (43_tree.md R141). -/
def QEntry.kind (e : QEntry) : Nat := if isLeafIndex e.idx then 1 else 0

/-- key(a) < key(b), the lexicographic order of (weight, kind, index) (43_tree.md R141). -/
def QEntry.before (a b : QEntry) : Bool :=
  decide (a.weight < b.weight) ||
    (a.weight == b.weight &&
      (decide (a.kind < b.kind) || (a.kind == b.kind && decide (a.idx < b.idx))))

/-- "Extract the minimum": the node with the smallest key, and the others (43_tree.md R141). -/
def extractMin : List QEntry → Option (QEntry × List QEntry)
  | [] => none
  | e :: rest =>
    match extractMin rest with
    | none => some (e, [])
    | some (m, others) => if e.before m then some (e, rest) else some (m, e :: others)

/-- The merge loop of BUILD: while at least two nodes are left, the two with the smallest keys become the children of
a new internal node, the first extracted on the left (43_tree.md R140). `fuel` bounds the merges (log 12). -/
def mergeLoop : Nat → Table Node 511 → List QEntry → Nat → Table Node 511 × List QEntry
  | 0, node, q, _ => (node, q)
  | fuel + 1, node, q, next =>
    match extractMin q with
    | none => (node, q)
    | some (a, q1) =>
      match extractMin q1 with
      | none => (node, q)
      | some (b, q2) =>
        mergeLoop fuel (node.set next (.internal (a.weight + b.weight) a.idx b.idx))
          ({ weight := a.weight + b.weight, idx := BitVec.ofNat 9 next } :: q2) (next + 1)

/-- What BUILD writes (43_tree.md R140). -/
structure BuiltTree where
  node : Table Node 511
  root : BitVec 9
  nnode : BitVec 9
  tkind : TKind
deriving DecidableEq, Repr

/-- S, the entries of the frequency table, as the leaves of the tree to be (43_tree.md R140). -/
def leafEntries (freq : Table Word 256) (valid : Table Bool 256) : List QEntry :=
  ((List.range 256).filter fun i => valid.get i).map fun i =>
    { weight := (freq.get i).setWidth 40, idx := BitVec.ofNat 9 i }

/-- NODE[s] <- Leaf for every entry s (43_tree.md R140). The arena starts blank (log 10). -/
def placeLeaves (leaves : List QEntry) : Table Node 511 :=
  leaves.foldl (fun node e => node.set e.idx.toNat (.leaf e.weight)) blankNodes

/-- The tree of a frequency table, a function of FREQ and VALID alone (43_tree.md R140, R145). -/
def buildTree (freq : Table Word 256) (valid : Table Bool 256) : BuiltTree :=
  let leaves := leafEntries freq valid
  let n := leaves.length
  if n = 0 then { node := blankNodes, root := 0, nnode := 0, tkind := .empty }
  else
    let built := mergeLoop (n - 1) (placeLeaves leaves) leaves 256
    { node := built.1
      root := match built.2 with
        | e :: _ => e.idx
        | [] => 0
      nnode := BitVec.ofNat 9 (2 * n - 1)
      tkind := if n = 1 then .single else .multi }

/-- BUILD (43_tree.md R140). -/
def execBuild (s : State) : Result :=
  let t := buildTree s.freq s.valid
  .next (complete { invalidate s with node := t.node, root := t.root, nnode := t.nnode, tkind := t.tkind })

/-- RES2 of an internal node: bits 1:0 kind 2, bits 12:4 left, bits 24:16 right (43_tree.md R143). -/
def internalWord (n : Node) : Word := 2 ||| (n.left.setWidth 32 <<< 4) ||| (n.right.setWidth 32 <<< 16)

/-- NODE[idx] is a leaf of the tree (43_tree.md R143; log 23). -/
def isTreeLeaf (s : State) (idx : BitVec 9) : Bool :=
  decide (idx.toNat ≤ 255) && decide (s.nnode.toNat > 0) && s.valid.get idx.toNat

/-- NODE[idx] is an internal node of the tree (43_tree.md R143). -/
def isTreeInternal (s : State) (idx : BitVec 9) : Bool :=
  decide (256 ≤ idx.toNat) && decide (idx.toNat ≤ 254 + s.nent.toNat) && decide (s.nent.toNat ≥ 2)

/-- TGET idx (43_tree.md R143). -/
def execTget (idx : BitVec 9) (s : State) : Result :=
  if s.tkind = .none then faulting .state 0 s
  else
    let n := s.node.get idx.toNat
    let lo := n.weight.setWidth 32
    let hi := (n.weight >>> 32).setWidth 32
    if isTreeLeaf s idx then .next (complete { s with res0 := lo, res1 := hi, res2 := 1 })
    else if isTreeInternal s idx then .next (complete { s with res0 := lo, res1 := hi, res2 := internalWord n })
    else .next (complete { s with res0 := 0, res1 := 0, res2 := 0 })

end Sys2Proof.Machine
end

