-- ==== Sys2Proof/Machine/CodeTable.lean ====
section
/-! DEFINITION. The Code Table Generator: GENCODE (44_codetable.md R160) and CGET (R161). -/

namespace Sys2Proof.Machine

/-- The code a leaf gets: its path, or "0" where the root itself is the leaf (44_codetable.md R160). -/
def leafCode (path : Code) : Code := if path = [] then [false] else path

/-- walk(i, path): the depth-first walk, 0 descending left and 1 descending right (44_codetable.md R160). `fuel`
bounds the levels (log 12). -/
def walk : Nat → Table Node 511 → BitVec 9 → Code → Table Code 256 → Table Code 256
  | 0, _, _, _, code => code
  | fuel + 1, node, i, path, code =>
    if isLeafIndex i then code.set i.toNat (leafCode path)
    else
      let n := node.get i.toNat
      walk fuel node n.right (path ++ [true]) (walk fuel node n.left (path ++ [false]) code)

/-- The levels of the deepest tree: 255 internal nodes and a leaf (44_codetable.md R160). -/
def walkLevels : Nat := 256

/-- The code table of a tree (44_codetable.md R160). -/
def genCodes (tkind : TKind) (root : BitVec 9) (node : Table Node 511) : Table Code 256 :=
  if tkind = .empty then blankCodes else walk walkLevels node root [] blankCodes

/-- GENCODE (44_codetable.md R160). -/
def execGencode (s : State) : Result :=
  if s.tkind = .none then faulting .state 0 s
  else .next (complete { s with code := genCodes s.tkind s.root s.node, codeV := true })

/-- CGET sym (44_codetable.md R161). -/
def execCget (sym : BitVec 8) (s : State) : Result :=
  if s.codeV = false then faulting .state 0 s
  else
    let bits : Code := s.code.get sym.toNat
    .next (complete { s with
      res0 := BitVec.ofNat 32 bits.length
      res1 := 0
      res2 := 0
      codew := .tabulate 8 (alignedWord bits) })

end Sys2Proof.Machine
end

