-- ==== Sys2Proof/Machine/BitPack.lean ====
section
/-! DEFINITION. The Bit Packer and Unpacker: PACK (45_bitpack.md R170) and UNPACK (R171, R172). -/

namespace Sys2Proof.Machine

/-- The code of a byte value. -/
def codeOf (code : Table Code 256) (b : Byte) : Code := code.get b.toNat

/-- The lowest offset whose byte has no code (45_bitpack.md R170, 60_exceptions.md R207). -/
def firstUncoded (code : Table Code 256) (bytes : List Byte) : Option Nat :=
  bytes.findIdx? fun b => (codeOf code b).isEmpty

/-- T, the total bit length (45_bitpack.md R170). -/
def totalBits (code : Table Code 256) (bytes : List Byte) : Nat := (bytes.map fun b => (codeOf code b).length).sum

/-- pad = (8 - T mod 8) mod 8 (45_bitpack.md R170, 40_control.md R116). -/
def padCount (t : Nat) : Nat := (8 - t % 8) % 8

/-- nbytes = (T + pad) div 8 (45_bitpack.md R170). -/
def byteCount (t : Nat) : Nat := (t + padCount t) / 8

/-- S, the concatenation of the codes in input order (45_bitpack.md R170). -/
def codeString (code : Table Code 256) (bytes : List Byte) : List Bool := bytes.flatMap (codeOf code)

/-- The packed payload: S padded on the right with zeros, eight bits to a byte (45_bitpack.md R170). -/
def payload (code : Table Code 256) (bytes : List Byte) : List Byte :=
  packBytes (codeString code bytes ++ List.replicate (padCount (totalBits code bytes)) false)

/-- PACK (45_bitpack.md R170). -/
def execPack (s : State) : Result :=
  if s.codeV = false then faulting .state 0 s
  else match checkWindows s true with
    | some (e, info) => faulting e info s
    | none =>
      let bytes := sourceBytes s
      match firstUncoded s.code bytes with
      | some j => faulting .nocode j s
      | none =>
        let t := totalBits s.code bytes
        let nbytes := byteCount t
        if nbytes > s.latched.dcap.toNat then faulting .dstovf nbytes s
        else .next (complete { s with
          mem := s.mem.writeBytes s.latched.dst.toNat (payload s.code bytes)
          outlen := BitVec.ofNat 32 nbytes
          pad := BitVec.ofNat 3 (padCount t)
          bitlenLo := BitVec.ofNat 32 t
          bitlenHi := BitVec.ofNat 8 (t / 2 ^ 32) })

/-- The walk of a MULTI tree, one node per bit, a byte for every leaf reached, then back to the root: the node the
stream ends at and the bytes (45_bitpack.md R171). -/
def decodeWalk (node : Table Node 511) (root : BitVec 9) : BitVec 9 → List Bool → BitVec 9 × List Byte
  | cur, [] => (cur, [])
  | cur, bit :: rest =>
    let n := node.get cur.toNat
    let next := if bit then n.right else n.left
    if isLeafIndex next then
      let r := decodeWalk node root root rest
      (r.1, next.setWidth 8 :: r.2)
    else decodeWalk node root next rest

/-- The decoded bytes, or the sub-cause of MALFORMED (45_bitpack.md R171, R172). -/
def decodeStream (tkind : TKind) (root : BitVec 9) (node : Table Node 511) (bits : List Bool) :
    Except Nat (List Byte) :=
  match tkind with
  | .none => .error 3
  | .empty => if bits = [] then .ok [] else .error 3
  | .single => if bits.any id then .error 4 else .ok (List.replicate bits.length (root.setWidth 8))
  | .multi =>
    let r := decodeWalk node root root bits
    if r.1 = root then .ok r.2 else .error 5

/-- The remaining bits: the last PADIN bits are dropped unread (45_bitpack.md R171). -/
def remainingBits (s : State) : List Bool :=
  (unpackBits (sourceBytes s)).take (8 * s.latched.len.toNat - s.latched.padin.toNat)

/-- UNPACK (45_bitpack.md R171). -/
def execUnpack (s : State) : Result :=
  if s.tkind = .none then faulting .state 0 s
  else if s.latched.padin.toNat > 7 then faulting .malformed 1 s
  else if s.latched.padin.toNat > 8 * s.latched.len.toNat then faulting .malformed 2 s
  else match checkWindows s true with
    | some (e, info) => faulting e info s
    | none =>
      match decodeStream s.tkind s.root s.node (remainingBits s) with
      | .error cause => faulting .malformed cause s
      | .ok out =>
        if out.length > s.latched.dcap.toNat then faulting .dstovf out.length s
        else .next (complete { s with
          mem := s.mem.writeBytes s.latched.dst.toNat out
          outlen := BitVec.ofNat 32 out.length })

end Sys2Proof.Machine
end

