-- ==== Sys2Proof/Machine/Control.lean ====
section
/-! DEFINITION. The control commands NOP and SRESET (40_control.md R110, R111). -/

namespace Sys2Proof.Machine

/-- NOP (40_control.md R110). -/
def execNop (s : State) : Result := .next (complete s)

/-- SRESET: the reset state, with no completion record; MEM is not touched (40_control.md R111, R112). -/
def execSreset (s : State) : Result := .next (blockReset s)

end Sys2Proof.Machine
end

