-- ==== Sys2Proof/Machine/FreqTable.lean ====
section
/-! DEFINITION. The frequency table commands FCLR, FSET, FGET and COUNT (42_freqtable.md R130 to R133). -/

namespace Sys2Proof.Machine

/-- No count (42_freqtable.md R130). -/
def zeroCounts : Table Word 256 := .fill 256 0

/-- No entry (42_freqtable.md R130). -/
def noEntries : Table Bool 256 := .fill 256 false

/-- FREQ[b] <- FREQ[b] + 1 (42_freqtable.md R133). -/
def countByte (freq : Table Word 256) (b : Byte) : Table Word 256 := freq.set b.toNat (freq.get b.toNat + 1)

/-- VALID[b] <- 1 (42_freqtable.md R133). -/
def markByte (valid : Table Bool 256) (b : Byte) : Table Bool 256 := valid.set b.toNat true

/-- The 256 counts of a buffer: the loop of COUNT (42_freqtable.md R133) and of ENTROPY (41_entropy.md R120). -/
def countBytes (bytes : List Byte) : Table Word 256 := bytes.foldl countByte zeroCounts

/-- The byte values a buffer holds (42_freqtable.md R133). -/
def markBytes (bytes : List Byte) : Table Bool 256 := bytes.foldl markByte noEntries

/-- The number of s with VALID[s] = 1 (10_state.md R33). -/
def entryCount (valid : Table Bool 256) : Nat := valid.cells.count true

/-- FCLR (42_freqtable.md R130). -/
def execFclr (s : State) : Result :=
  .next (complete (invalidate { s with freq := zeroCounts, valid := noEntries, nent := 0 }))

/-- FSET sym (42_freqtable.md R131). -/
def execFset (sym : BitVec 8) (s : State) : Result :=
  .next (complete (invalidate { s with
    freq := s.freq.set sym.toNat s.latched.arg
    valid := s.valid.set sym.toNat true
    nent := if s.valid.get sym.toNat then s.nent else s.nent + 1 }))

/-- FGET sym (42_freqtable.md R132). -/
def execFget (sym : BitVec 8) (s : State) : Result :=
  .next (complete { s with
    res0 := s.freq.get sym.toNat
    res1 := (BitVec.ofBool (s.valid.get sym.toNat)).setWidth 32
    res2 := 0 })

/-- COUNT (42_freqtable.md R133). -/
def execCount (s : State) : Result :=
  match checkWindows s false with
  | some (e, info) => faulting e info s
  | none =>
    let bytes := sourceBytes s
    .next (complete (invalidate { s with
      freq := countBytes bytes
      valid := markBytes bytes
      nent := BitVec.ofNat 9 (entryCount (markBytes bytes)) }))

end Sys2Proof.Machine
end

