-- ==== Sys2Proof/Machine/Entropy.lean ====
section
/-! DEFINITION. The Entropy Estimator: ENTROPY (41_entropy.md R120) and the entropy rounding function (R121, R122).
With N the sum of the counts c and P the product of the c^c, the entropy is H = log2(N^N / P) / N, so every bound on
H · 2^28 is a comparison of natural numbers. -/

namespace Sys2Proof.Machine

/-- N: the sum of the counts (41_entropy.md R121). -/
def countSum (c : List Word) : Nat := (c.map BitVec.toNat).sum

/-- P: the product of c_b^c_b over the counts; a count of 0 contributes 1, so it is left out (41_entropy.md R121). -/
def selfPowers (c : List Word) : Nat := (c.map fun x => x.toNat ^ x.toNat).prod

/-- H · 2^28 ≤ v (41_entropy.md R121, R122). -/
abbrev EntropyAtMost (c : List Word) (v : Nat) : Prop :=
  countSum c ^ (countSum c * 2 ^ 28) ≤ 2 ^ (countSum c * v) * selfPowers c ^ (2 ^ 28)

/-- v ≤ H · 2^28 (41_entropy.md R121, R122). -/
abbrev EntropyAtLeast (c : List Word) (v : Nat) : Prop :=
  2 ^ (countSum c * v) * selfPowers c ^ (2 ^ 28) ≤ countSum c ^ (countSum c * 2 ^ 28)

/-- `ENTQ_max` and `ENTQ_tol` of a proposed value (41_entropy.md R122). H is never negative, so the truncated
subtraction asks nothing where the tolerance reaches below 0. -/
abbrev EntropyAdmissible (c : List Word) (v : Nat) : Prop :=
  v ≤ Config.entMax ∧ EntropyAtMost c (v + Config.entTol) ∧ EntropyAtLeast c (v - Config.entTol)

/-- v - 1/2 ≤ H · 2^28, or v = 0: what the rounding to the nearest integer asks of v (41_entropy.md R122). -/
abbrev RoundsUpTo (c : List Word) (v : Nat) : Prop :=
  v = 0 ∨ 2 ^ (countSum c * (2 * v - 1)) * selfPowers c ^ (2 ^ 29) ≤ countSum c ^ (countSum c * 2 ^ 29)

/-- `ENTQ_exact(c) = floor(H · 2^28 + 1/2)`, the reference with all four properties (41_entropy.md R122). -/
def entqExact (c : List Word) : Nat := Nat.findGreatest (RoundsUpTo c) Config.entMax

/-- Exactly one count is not zero (41_entropy.md R122 `ENTQ_zero`). -/
def singleValued (c : List Word) : Bool := (c.filter fun x => x != 0).length == 1

/-- `ENTQ`: a function of the counts alone (`ENTQ_fn`), 0 for a one-valued buffer (`ENTQ_zero`), and otherwise the
implementation's own value wherever that meets `ENTQ_tol` and `ENTQ_max`; where it does not, no implementation gives
it, and the exactly rounded value stands (41_entropy.md R122; log 5). -/
def entq (c : List Word) : Word :=
  if singleValued c then 0
  else if EntropyAdmissible c (Config.entqChoice c).toNat then Config.entqChoice c
  else BitVec.ofNat 32 (entqExact c)

/-- ENTROPY (41_entropy.md R120). -/
def execEntropy (s : State) : Result :=
  if s.latched.len = 0 then faulting .empty 0 s
  else match checkWindows s false with
    | some (e, info) => faulting e info s
    | none => .next (complete { s with ent := entq (countBytes (sourceBytes s)).cells })

end Sys2Proof.Machine
end

