-- ==== Sys2Proof/Machine/Dispatch.lean ====
section
/-! DEFINITION. Which meaning each command has (40_control.md R112 "run the rule of d"). -/

namespace Sys2Proof.Machine

/-- The effect of a decoded command on the state its acceptance left. -/
def exec (i : Instr) (s : State) : Host.Outcome State Fault Refusal :=
  match i with
  | .nop => Sys2Proof.Machine.execNop s
  | .sreset => Sys2Proof.Machine.execSreset s
  | .fclr => Sys2Proof.Machine.execFclr s
  | .fset sym => Sys2Proof.Machine.execFset sym s
  | .fget sym => Sys2Proof.Machine.execFget sym s
  | .count => Sys2Proof.Machine.execCount s
  | .entropy => Sys2Proof.Machine.execEntropy s
  | .build => Sys2Proof.Machine.execBuild s
  | .tget idx => Sys2Proof.Machine.execTget idx s
  | .gencode => Sys2Proof.Machine.execGencode s
  | .cget sym => Sys2Proof.Machine.execCget sym s
  | .pack => Sys2Proof.Machine.execPack s
  | .unpack => Sys2Proof.Machine.execUnpack s

end Sys2Proof.Machine
end

