-- ==== Sys2Proof/Machine/HostPort.lean ====
section
/-! DEFINITION. The host's side of the block: the register window (10_state.md R21, R22; 40_control.md R119),
acceptance (40_control.md R112), the host's accesses to MEM, hardware reset (70_reset_and_hazards.md R240, R242), and
what each of these does while a command runs (R245 to R247). -/

namespace Sys2Proof.Machine

/-- The register at an offset as the host reads it, zero-extended to 32 bits; CMD and unmapped offsets read 0
(10_state.md R21, R22; 40_control.md R119). -/
def readReg (s : State) (off : Nat) : Word :=
  match off with
  | 0x00 => Config.idValue
  | 0x04 => 0
  | 0x08 => s.status
  | 0x0C => s.err
  | 0x10 => s.errinfo
  | 0x14 => s.errlog
  | 0x18 => s.ien.setWidth 32
  | 0x1C => s.ipend.setWidth 32
  | 0x20 => s.cmdcnt
  | 0x40 => s.src
  | 0x44 => s.len
  | 0x48 => s.dst
  | 0x4C => s.dcap
  | 0x50 => s.arg
  | 0x54 => s.padin.setWidth 32
  | 0x80 => s.res0
  | 0x84 => s.res1
  | 0x88 => s.res2
  | 0x8C => s.outlen
  | 0x90 => s.pad.setWidth 32
  | 0x94 => s.bitlenLo
  | 0x98 => s.bitlenHi.setWidth 32
  | 0x9C => s.nent.setWidth 32
  | 0xA0 => s.ent
  | 0xA4 => s.root.setWidth 32
  | 0xA8 => s.nnode.setWidth 32
  | 0xC0 => s.codew.get 0
  | 0xC4 => s.codew.get 1
  | 0xC8 => s.codew.get 2
  | 0xCC => s.codew.get 3
  | 0xD0 => s.codew.get 4
  | 0xD4 => s.codew.get 5
  | 0xD8 => s.codew.get 6
  | 0xDC => s.codew.get 7
  | _ => 0

/-- The offset of CMD (10_state.md R39). -/
def cmdOffset : Nat := 0x04

/-- A write to a register other than CMD while the block is idle (40_control.md R119). Read-only and unmapped offsets
change nothing. -/
def writeReg (off : Nat) (v : Word) (s : State) : State :=
  match off with
  | 0x18 => { s with ien := v.setWidth 2 }
  | 0x1C => { s with ipend := clearPending s.ipend v }
  | 0x40 => { s with src := v }
  | 0x44 => { s with len := v }
  | 0x48 => { s with dst := v }
  | 0x4C => { s with dcap := v }
  | 0x50 => { s with arg := v }
  | 0x54 => { s with padin := v.setWidth 8 }
  | _ => s

/-- The registers that read exactly while BUSY = 1: ID, STATUS and IEN (70_reset_and_hazards.md R247). -/
def exactWhileBusy (off : Nat) : Bool := off == 0x00 || off == 0x08 || off == 0x18

/-- The offsets of the register map (10_state.md R22). -/
def isMapped (off : Nat) : Bool :=
  decide (off ≤ 0x20) || (decide (0x40 ≤ off) && decide (off ≤ 0x54)) ||
    (decide (0x80 ≤ off) && decide (off ≤ 0xA8)) || (decide (0xC0 ≤ off) && decide (off ≤ 0xDC))

/-- accept(w), first half: BUSY is set and the word and the operand registers are latched (40_control.md R112). The
model also takes from `delays` how many host transactions land inside the command (log 2). -/
def accept (w : Word) (s : State) : State :=
  { s with busy := true, latched := latch w s, left := s.delays.headD 0, delays := s.delays.tail }

/-- accept(w), second half: the latched word is decoded and its command executed to its completion; a word that is no
command completes with ILLCMD (40_control.md R112, 30_encoding.md R94, 60_exceptions.md R202). -/
def runLatched (s : State) : Result :=
  match decode s.latched.word with
  | .ok i => exec i s
  | .error _ => faulting .illcmd s.latched.word.toNat s

/-- A write to CMD while the block is idle (40_control.md R112): the command runs whole in this step, unless host
transactions land inside it. -/
def issue (w : Word) (s : State) : Result :=
  let t := accept w s
  if t.left = 0 then runLatched t else .next t

/-- A host transaction while BUSY = 0 (40_control.md R119). -/
def idleTurn (txn : HostTxn) (s : State) : Result :=
  match txn with
  | .regRead off =>
    if HostTxn.offsetOk off then .next { s with hostData := readReg s off } else .refused (.registerAccess off)
  | .regWrite off v =>
    if HostTxn.offsetOk off then
      if off = cmdOffset then issue v s else .next (writeReg off v s)
    else .refused (.registerAccess off)
  | .memRead a => .next { s with hostData := (s.mem.read a.toNat).setWidth 32 }
  | .memWrite a v => .next { s with mem := s.mem.write a.toNat v }
  | .hardReset => .next (blockReset s)
  | .wait => .next { s with hostData := s.status }
  | .check => .next { s with hostData := s.err, script := if s.err = 0 then s.script else [] }

/-- A free draw: a fresh argument for the free value (log 6). -/
def drawWord (s : State) : Word := Config.freeWord s.draws

/-- A register read while BUSY = 1: exact for ID, STATUS and IEN, an unspecified value for any other register
(70_reset_and_hazards.md R247), 0 for an unmapped offset (10_state.md R21; log 15). -/
def busyRead (off : Nat) (s : State) : State :=
  if exactWhileBusy off then { s with hostData := readReg s off }
  else if isMapped off then { s with hostData := drawWord s, draws := s.draws + 1 }
  else { s with hostData := 0 }

/-- The destination window of a PACK or UNPACK that a hardware reset ends: every byte a free draw
(70_reset_and_hazards.md R242; log 7). -/
def scrambleDest (s : State) : State :=
  match decode s.latched.word with
  | .ok i =>
    if writesDest i then
      let n := min s.latched.dcap.toNat (Config.memBytes - s.latched.dst.toNat)
      { s with
        mem := s.mem.writeBytes s.latched.dst.toNat ((List.range n).map fun k => Config.freeByte (s.draws + k))
        draws := s.draws + n }
    else s
  | .error _ => s

/-- A host transaction while BUSY = 1 (70_reset_and_hazards.md R242, R245, R246, R247). -/
def busyTurn (txn : HostTxn) (s : State) : Result :=
  match txn with
  | .regRead off => if HostTxn.offsetOk off then .next (busyRead off s) else .refused (.registerAccess off)
  | .regWrite off _ =>
    if HostTxn.offsetOk off then .next { s with errlog := logBit s.errlog hostViolBit }
    else .refused (.registerAccess off)
  | .memRead a =>
    if inRunningDest s a.toNat then
      .next { s with hostData := (Config.freeByte s.draws).setWidth 32, draws := s.draws + 1 }
    else .next { s with hostData := (s.mem.read a.toNat).setWidth 32 }
  | .memWrite a v =>
    if inRunningSource s a.toNat || inRunningDest s a.toNat then .fault (.windowRace a.toNat)
    else .next { s with mem := s.mem.write a.toNat v }
  | .hardReset => .next (blockReset (scrambleDest s))
  | .wait => .next { s with hostData := s.status, script := .wait :: s.script }
  | .check =>
    .next { s with
      hostData := drawWord s
      draws := s.draws + 1
      script := if drawWord s = 0 then s.script else [] }

/-- Whether the running command completes now: no host transaction is left to land inside it, or the host has none
(40_control.md R118; logs 2, 25). -/
def completesNow (s : State) : Bool := s.busy && (s.left == 0 || s.script.isEmpty)

/-- The next transaction of the script, while the block is idle or while a command runs. -/
def hostTurn (txn : HostTxn) (s : State) : Result :=
  if s.busy then busyTurn txn { s with left := s.left - 1 } else idleTurn txn s

end Sys2Proof.Machine
end

