-- ==== Sys2Proof/Machine/Script.lean ====
section
/-! DEFINITION. The script notation: a command as the write that issues it (30_encoding.md R97), and the
pseudo-instructions as the transactions they expand to (R98). -/

namespace Sys2Proof.Machine

/-- A mnemonic line: `WR CMD, word` (30_encoding.md R97). -/
def scriptCommand (i : Instr) : HostTxn := .regWrite 0x04 (encode i)

/-- SETSRC a, n (30_encoding.md R98). -/
def scriptSetSrc (a n : Word) : List HostTxn := [.regWrite 0x40 a, .regWrite 0x44 n]

/-- SETDST a, c (30_encoding.md R98). -/
def scriptSetDst (a c : Word) : List HostTxn := [.regWrite 0x48 a, .regWrite 0x4C c]

/-- FLOAD s, f (30_encoding.md R98). -/
def scriptFload (sym : BitVec 8) (f : Word) : List HostTxn := [.regWrite 0x50 f, scriptCommand (.fset sym)]

/-- ACK (30_encoding.md R98). -/
def scriptAck : List HostTxn := [.regWrite 0x1C 3]

/-- WAIT (30_encoding.md R98; log 18). -/
def scriptWait : List HostTxn := [.wait]

/-- CHECK (30_encoding.md R98; log 18). -/
def scriptCheck : List HostTxn := [.check]

end Sys2Proof.Machine
end

