-- ==== Sys2Proof/Machine/Step.lean ====
section
/-! DEFINITION. One step: the engine completes the running command, or the host performs its next transaction
(00_scope.md R10, 40_control.md R112). -/

namespace Sys2Proof.Machine

/-- One step. A block whose host has nothing to do stays as it is (70_reset_and_hazards.md R241). -/
def step (s : State) : Host.Outcome State Fault Refusal :=
  if completesNow s then runLatched s
  else match s.script with
    | [] => .next s
    | txn :: rest => hostTurn txn { s with script := rest }

/-- The state with the opcode table's word as the host's next write to CMD, to an idle block, with no transaction
landing inside the command: the next step accepts and runs it (log 26). -/
def State.withFetchWord (s : State) (nbits w : Nat) : State :=
  { s with
    busy := false
    script := .regWrite cmdOffset (tableWord nbits w) :: s.script
    delays := 0 :: s.delays }

end Sys2Proof.Machine
end

