-- ==== Sys2Proof/Safety.lean ====
section
/-! DEFINITION. The terms the claims about HEB are stated in: what a command left as it was, what a completion
records, which windows are ready, the path a code spells, the entropy as a real number, and the invariants of
10_state.md section 10. -/

namespace Sys2Proof.Machine

/-! ### What a command leaves as it was -/

/-- The operand registers are unchanged (10_state.md section 3: "no command writes them"). -/
structure SameOperands (s t : State) : Prop where
  src : t.src = s.src
  len : t.len = s.len
  dst : t.dst = s.dst
  dcap : t.dcap = s.dcap
  arg : t.arg = s.arg
  padin : t.padin = s.padin

/-- The frequency table is unchanged (10_state.md R33, R49, R50). -/
structure SameTable (s t : State) : Prop where
  freq : t.freq = s.freq
  valid : t.valid = s.valid
  nent : t.nent = s.nent

/-- The tree is unchanged (10_state.md R35, R36, R40, R51). -/
structure SameTree (s t : State) : Prop where
  node : t.node = s.node
  root : t.root = s.root
  nnode : t.nnode = s.nnode
  tkind : t.tkind = s.tkind

/-- The code table is unchanged (10_state.md R40, R52). -/
structure SameCodes (s t : State) : Prop where
  code : t.code = s.code
  codeV : t.codeV = s.codeV

/-- RES0 to RES2 are unchanged (10_state.md R29). -/
structure SameRes (s t : State) : Prop where
  res0 : t.res0 = s.res0
  res1 : t.res1 = s.res1
  res2 : t.res2 = s.res2

/-- PAD and BITLEN are unchanged (10_state.md R31, R32). -/
structure SamePackLength (s t : State) : Prop where
  pad : t.pad = s.pad
  bitlenLo : t.bitlenLo = s.bitlenLo
  bitlenHi : t.bitlenHi = s.bitlenHi

/-- Every byte of MEM reads as before (20_memory.md R63). -/
def SameBytes (s t : State) : Prop := ∀ a, t.mem.read a = s.mem.read a

/-- Every byte of MEM outside the `n` bytes at `base` reads as before (20_memory.md R67). -/
def SameBytesOutside (base n : Nat) (s t : State) : Prop :=
  ∀ a, ¬(base ≤ a ∧ a < base + n) → t.mem.read a = s.mem.read a

/-- What no command touches but SRESET: the interrupt enables and the latched operands; and the platform's and the
model's own record (10_state.md R44, R53; logs 1, 2, 4, 6, 13). -/
structure SameRest (s t : State) : Prop where
  ien : t.ien = s.ien
  latched : t.latched = s.latched
  holes : t.holes = s.holes
  script : t.script = s.script
  hostData : t.hostData = s.hostData
  delays : t.delays = s.delays
  left : t.left = s.left
  draws : t.draws = s.draws

/-- The completion record of a command without error (40_control.md R113). -/
structure CompletedOk (s t : State) : Prop where
  err : t.err = 0
  errinfo : t.errinfo = 0
  errlog : t.errlog = s.errlog
  ipend : t.ipend = s.ipend ||| 1
  cmdcnt : t.cmdcnt.toNat = (s.cmdcnt.toNat + 1) % 4294967296
  busy : t.busy = false

/-- The fault record of error number `n` with detail `info`, and nothing else written (60_exceptions.md R200, R213). -/
structure FaultedWith (n info : Nat) (s t : State) : Prop where
  err : t.err.toNat = n
  errinfo : t.errinfo.toNat = min info 4294967295
  errlog : ∀ j, t.errlog.getLsbD j = (s.errlog.getLsbD j || decide (j = n))
  ipend : t.ipend = 3
  cmdcnt : t.cmdcnt.toNat = (s.cmdcnt.toNat + 1) % 4294967296
  busy : t.busy = false
  operands : SameOperands s t
  table : SameTable s t
  tree : SameTree s t
  codes : SameCodes s t
  res : SameRes s t
  outlen : t.outlen = s.outlen
  packLength : SamePackLength s t
  ent : t.ent = s.ent
  codew : t.codew = s.codew
  mem : t.mem = s.mem
  rest : SameRest s t

/-! ### Acceptance -/

/-- The host's next transaction writes `w` to CMD of an idle block, and nothing lands inside the command
(40_control.md R112; log 2). -/
structure Issues (s : State) (w : Word) (rest : List HostTxn) : Prop where
  idle : s.busy = false
  next : s.script = .regWrite 0x04 w :: rest
  atomic : s.delays.headD 0 = 0

/-- The state right after acceptance, with the command still to run (40_control.md R112). -/
def acceptedBy (w : Word) (rest : List HostTxn) (s : State) : State := accept w { s with script := rest }

/-- The next step resets the block: the running command is SRESET and completes, the host issues SRESET to be run
whole, or the platform applies a hardware reset (10_state.md R43, 70_reset_and_hazards.md R240; log 2). -/
def Resets (s : State) : Prop :=
  (s.busy = true ∧ (s.left = 0 ∨ s.script = []) ∧ s.latched.word = 0x00000001) ∨
  (∃ rest, Issues s 0x00000001 rest) ∨
  (∃ rest, (s.busy = true → 0 < s.left) ∧ s.script = .hardReset :: rest)

/-- The command a block runs, or none where its word is no command (40_control.md R112). -/
def runningCommand (s : State) : Option Instr := (decode s.latched.word).toOption

/-- Address `a` belongs to the running command as its source (20_memory.md R60, R68; 70_reset_and_hazards.md R246). -/
def OwnedSource (s : State) (a : Nat) : Prop :=
  (runningCommand s = some .count ∨ runningCommand s = some .entropy ∨ runningCommand s = some .pack ∨
    runningCommand s = some .unpack) ∧
  s.latched.src.toNat ≤ a ∧ a < s.latched.src.toNat + s.latched.len.toNat

/-- Address `a` belongs to the running command as its destination (20_memory.md R60, R68; 70_reset_and_hazards.md
R246). -/
def OwnedDest (s : State) (a : Nat) : Prop :=
  (runningCommand s = some .pack ∨ runningCommand s = some .unpack) ∧
  s.latched.dst.toNat ≤ a ∧ a < s.latched.dst.toNat + s.latched.dcap.toNat

/-- What stands between a command with windows and its CheckWindows is passed (60_exceptions.md R212, steps 2, 3). -/
def ReachesWindows (s : State) : Instr → Prop
  | .count => True
  | .entropy => s.latched.len ≠ 0
  | .pack => s.codeV = true
  | .unpack => s.tkind ≠ .none ∧ s.latched.padin.toNat ≤ 7 ∧ s.latched.padin.toNat ≤ 8 * s.latched.len.toNat
  | .nop => False
  | .sreset => False
  | .fclr => False
  | .fset _ => False
  | .fget _ => False
  | .build => False
  | .tget _ => False
  | .gencode => False
  | .cget _ => False

/-- The error numbers a command can complete with (60_exceptions.md R201, column "raised by"). -/
def mayComplete : Instr → List Nat
  | .nop => [0]
  | .sreset => [0]
  | .fclr => [0]
  | .fset _ => [0]
  | .fget _ => [0]
  | .count => [0, 3, 9]
  | .entropy => [0, 2, 3, 9]
  | .build => [0]
  | .tget _ => [0, 5]
  | .gencode => [0, 5]
  | .cget _ => [0, 5]
  | .pack => [0, 3, 4, 5, 6, 7, 9]
  | .unpack => [0, 3, 4, 5, 7, 8, 9]

/-- The registers the host can write, with the bits they keep (10_state.md R22). -/
def writableMask (off : Nat) : Option Word :=
  match off with
  | 0x18 => some 0x3
  | 0x40 => some 0xFFFFFFFF
  | 0x44 => some 0xFFFFFFFF
  | 0x48 => some 0xFFFFFFFF
  | 0x4C => some 0xFFFFFFFF
  | 0x50 => some 0xFFFFFFFF
  | 0x54 => some 0xFF
  | _ => none

/-- The values of STATUS.TKIND (10_state.md R40). -/
def tkindNumber : TKind → Nat
  | .none => 0
  | .empty => 1
  | .single => 2
  | .multi => 3

/-- What the host reads at the offsets of the control and status registers (10_state.md R22, R38 to R46). -/
structure ReadsControl (s : State) : Prop where
  id : readReg s 0x00 = 0x48554631
  cmd : readReg s 0x04 = 0
  status : (readReg s 0x08).toNat = s.busy.toNat + 2 * s.codeV.toNat + 4 * tkindNumber s.tkind
  err : readReg s 0x0C = s.err
  errinfo : readReg s 0x10 = s.errinfo
  errlog : readReg s 0x14 = s.errlog
  ien : (readReg s 0x18).toNat = s.ien.toNat
  ipend : (readReg s 0x1C).toNat = s.ipend.toNat
  cmdcnt : readReg s 0x20 = s.cmdcnt

/-- What the host reads at the offsets of the operand registers (10_state.md R22 to R28). -/
structure ReadsOperands (s : State) : Prop where
  src : readReg s 0x40 = s.src
  len : readReg s 0x44 = s.len
  dst : readReg s 0x48 = s.dst
  dcap : readReg s 0x4C = s.dcap
  arg : readReg s 0x50 = s.arg
  padin : (readReg s 0x54).toNat = s.padin.toNat

/-- What the host reads at the offsets of the result registers (10_state.md R22, R29 to R37). -/
structure ReadsResults (s : State) : Prop where
  res0 : readReg s 0x80 = s.res0
  res1 : readReg s 0x84 = s.res1
  res2 : readReg s 0x88 = s.res2
  outlen : readReg s 0x8C = s.outlen
  pad : (readReg s 0x90).toNat = s.pad.toNat
  bitlenLo : readReg s 0x94 = s.bitlenLo
  bitlenHi : (readReg s 0x98).toNat = s.bitlenHi.toNat
  nent : (readReg s 0x9C).toNat = s.nent.toNat
  ent : readReg s 0xA0 = s.ent
  root : (readReg s 0xA4).toNat = s.root.toNat
  nnode : (readReg s 0xA8).toNat = s.nnode.toNat
  codew : ∀ k, k < 8 → readReg s (0xC0 + 4 * k) = s.codew.get k

/-! ### Windows -/

/-- The source window ends inside MEM and the platform backs it (20_memory.md R68). -/
structure SourceReady (s : State) : Prop where
  inMem : s.latched.src.toNat + s.latched.len.toNat ≤ 4294967296
  backed : ∀ a, s.latched.src.toNat ≤ a → a < s.latched.src.toNat + s.latched.len.toNat → memOk s.holes a = true

/-- The destination window ends inside MEM, shares no address with the source window, and is backed
(20_memory.md R68). -/
structure DestReady (s : State) : Prop where
  inMem : s.latched.dst.toNat + s.latched.dcap.toNat ≤ 4294967296
  apart : ∀ a, ¬((s.latched.src.toNat ≤ a ∧ a < s.latched.src.toNat + s.latched.len.toNat) ∧
    (s.latched.dst.toNat ≤ a ∧ a < s.latched.dst.toNat + s.latched.dcap.toNat))
  backed : ∀ a, s.latched.dst.toNat ≤ a → a < s.latched.dst.toNat + s.latched.dcap.toNat → memOk s.holes a = true

/-- `a` is the lowest address of the window the platform does not back (20_memory.md R71). -/
structure LowestUnbacked (holes : List Hole) (base size a : Nat) : Prop where
  lower : base ≤ a
  upper : a < base + size
  unbacked : memOk holes a = false
  lowest : ∀ b, base ≤ b → b < a → memOk holes b = true

/-- Byte `j` of the source window (20_memory.md R79). -/
def sourceByte (s : State) (j : Nat) : Byte := s.mem.read (s.latched.src.toNat + j)

/-- How many positions of the source window hold the byte `b` (41_entropy.md R121 c_b, 42_freqtable.md R133). -/
def occurrences (s : State) (b : Byte) : Nat :=
  ((List.range s.latched.len.toNat).filter fun j => sourceByte s j == b).length

/-! ### Trees, codes and bits -/

/-- The child a bit leads to: 0 left, 1 right (44_codetable.md R160, 45_bitpack.md R171). -/
def childOf (node : Table Node 511) (i : BitVec 9) (bit : Bool) : BitVec 9 :=
  if bit then (node.get i.toNat).right else (node.get i.toNat).left

/-- The node a bit-string leads to from node `i`. -/
def follow (node : Table Node 511) (i : BitVec 9) (bits : List Bool) : BitVec 9 := bits.foldl (childOf node) i

/-- Byte value `sym` has a code. -/
def HasCode (code : Table Code 256) (sym : Nat) : Prop := code.get sym ≠ []

/-- The number BITLEN_HI ++ BITLEN_LO (10_state.md R32). -/
def State.bitlen (s : State) : Nat := s.bitlenHi.toNat * 4294967296 + s.bitlenLo.toNat

/-- Bit `p` of the stream that begins at address `base`: bit 7 - (p mod 8) of the byte at offset p div 8
(20_memory.md R64). -/
def streamBit (m : Memory) (base p : Nat) : Bool := (m.read (base + p / 8)).getLsbD (7 - p % 8)

/-- `bits` lead from the root to the node `leaf`, which is the first leaf they reach (45_bitpack.md R171). -/
structure IsPath (node : Table Node 511) (root : BitVec 9) (bits : List Bool) (leaf : BitVec 9) : Prop where
  moves : bits ≠ []
  arrives : follow node root bits = leaf
  atLeaf : isLeafIndex leaf = true
  through : ∀ k, 0 < k → k < bits.length → isLeafIndex (follow node root (bits.take k)) = false

/-- The number of bits UNPACK decodes: 8 × LEN - PADIN (45_bitpack.md R171). -/
def remainingCount (s : State) : Nat := 8 * s.latched.len.toNat - s.latched.padin.toNat

/-- The bits UNPACK decodes, in stream order (45_bitpack.md R171, 20_memory.md R64). -/
def remainingStream (s : State) : List Bool :=
  (List.range (remainingCount s)).map (streamBit s.mem s.latched.src.toNat)

/-- The codes of the source bytes, one after another (45_bitpack.md R170). -/
def codeStream (s : State) : List Bool :=
  ((List.range s.latched.len.toNat).map fun j => s.code.get (sourceByte s j).toNat).flatten

/-- The entries of a frequency table, ascending (43_tree.md R140 S). -/
def entries (valid : Table Bool 256) : List Nat := (List.range 256).filter fun i => valid.get i

/-- Index `j` is a node of the tree of a table with `n` entries (43_tree.md R142). -/
def IsTreeNode (valid : Table Bool 256) (n j : Nat) : Prop :=
  (j < 256 ∧ valid.get j = true) ∨ (256 ≤ j ∧ j ≤ 254 + n)

/-- key(a) < key(b): the smaller weight, then an internal node before a leaf, then the smaller index (43_tree.md
R141). -/
def KeyBefore (node : Table Node 511) (a b : BitVec 9) : Prop :=
  (node.get a.toNat).weight.toNat < (node.get b.toNat).weight.toNat ∨
  ((node.get a.toNat).weight = (node.get b.toNat).weight ∧
    ((256 ≤ a.toNat ∧ b.toNat ≤ 255) ∨ ((256 ≤ a.toNat ↔ 256 ≤ b.toNat) ∧ a.toNat < b.toNat)))

/-- Index `j` is a child of the node `k`. -/
def IsChild (node : Table Node 511) (k j : Nat) : Prop :=
  (node.get k).left.toNat = j ∨ (node.get k).right.toNat = j

/-! ### The entropy as a real number -/

/-- p(b), the share of the byte value b in a buffer (41_entropy.md R121). -/
noncomputable def byteShare (bytes : List Byte) (b : Nat) : ℝ :=
  (bytes.count (BitVec.ofNat 8 b) : ℝ) / (bytes.length : ℝ)

/-- H = -Σ p(b) log2(p(b)) in bits per byte (41_entropy.md R121). A byte value that does not occur contributes 0. -/
noncomputable def entropyBits (bytes : List Byte) : ℝ :=
  -∑ b ∈ Finset.range 256, byteShare bytes b * Real.logb 2 (byteShare bytes b)

/-! ### Invariants -/

/-- The table invariant (10_state.md R55). -/
structure TableInv (s : State) : Prop where
  nent : s.nent.toNat = s.valid.cells.count true
  absent : ∀ i, i < 256 → s.valid.get i = false → s.freq.get i = 0

/-- The tree invariant (10_state.md R56), and what ROOT and NNODE read without a tree (R35, R36). -/
structure TreeInv (s : State) : Prop where
  built : s.tkind ≠ .none → (⟨s.node, s.root, s.nnode, s.tkind⟩ : BuiltTree) = buildTree s.freq s.valid
  dropped : s.tkind = .none → s.root = 0 ∧ s.nnode = 0

/-- The code invariant (10_state.md R57). -/
structure CodeInv (s : State) : Prop where
  generated : s.codeV = true → s.tkind ≠ .none ∧ s.code = genCodes s.tkind s.root s.node

/-- No code is longer than 255 bits, so that `len` fits its 8 bits (10_state.md R52, 44_codetable.md R164). -/
def CodeLengthInv (s : State) : Prop := ∀ i, i < 256 → (s.code.get i).length ≤ 255

/-- The fault record: only codes 0 to 9 occur, an error is in the log, and the log's other bits read 0
(10_state.md R41, R43). -/
structure RecordInv (s : State) : Prop where
  codes : s.err.toNat ≤ 9
  logged : s.err ≠ 0 → s.errlog.getLsbD s.err.toNat = true
  reserved : ∀ j, s.errlog.getLsbD j = true → (1 ≤ j ∧ j ≤ 9) ∨ j = 31

/-- While a command runs the latched copies equal the registers (10_state.md R53). -/
def LatchInv (s : State) : Prop := s.busy = true → s.latched = latch s.latched.word s

/-- ENT is at most 8.0 (10_state.md R34). -/
def EntInv (s : State) : Prop := s.ent.toNat ≤ 0x80000000

end Sys2Proof.Machine
end

