-- ==== Sys2Proof/Certificates/Slice0/Obligations.lean ====
section
/-! DEFINITION. The statements about HEB for the provers. Each docstring names the rule of spec/ it rests on. -/

open Sys2Proof Sys2Proof.Machine

/-! ### Encoding -/

/-- 30_encoding.md R93, R94, vectors E1 to E31: words written out in the spec decode to the commands it names, or are
illegal. -/
def Obligations.ExampleWordsDecode : Prop :=
  decode 0x00000000 = .ok .nop ∧ decode 0x00000001 = .ok .sreset ∧ decode 0x00000010 = .ok .fclr ∧
  decode 0x00004111 = .ok (.fset 0x41) ∧ decode 0x0000FF12 = .ok (.fget 0xFF) ∧ decode 0x00000013 = .ok .count ∧
  decode 0x00000020 = .ok .entropy ∧ decode 0x00000030 = .ok .build ∧ decode 0x00010231 = .ok (.tget 258) ∧
  decode 0x0001FF31 = .ok (.tget 511) ∧ decode 0x00000032 = .ok .gencode ∧ decode 0x00006133 = .ok (.cget 0x61) ∧
  decode 0x00000040 = .ok .pack ∧ decode 0x00000041 = .ok .unpack ∧
  (∀ w : Word, w ∈ ([0x00000002, 0x00000100, 0x00010011, 0x00020031, 0x80000040, 0x000000FF, 0x00000014, 0x00000101,
    0x00010033, 0x00000113, 0xFFFFFFFF] : List Word) → (decode w).toOption = none)

/-- 30_encoding.md R91 to R93: decoding the word of any well-formed command gives it back, whatever its operand. -/
def Obligations.DecodeInvertsEncode : Prop :=
  ∀ i : Instr, i.wellFormed = true → decode (encode i) = .ok i

/-- 30_encoding.md R93, R94: a word that decodes to a command is the one word of that command, so no bit of a legal
word is ignored and no two words give one command. -/
def Obligations.DecodeAcceptsOnlyEncodings : Prop :=
  ∀ (w : Word) (i : Instr), decode w = .ok i → encode i = w

/-- 60_exceptions.md R202: a word of no command completes with ILLCMD and ERRINFO the word, and writes nothing but the
fault record; no command raises ILLCMD. -/
def Obligations.IllegalWordCompletesWithIllcmd : Prop :=
  (∀ (s : State) (w : Word) (rest : List HostTxn), Issues s w rest → (∀ i : Instr, encode i ≠ w) →
    ∃ t, step s = .next t ∧ FaultedWith 1 w.toNat (acceptedBy w rest s) t) ∧
  (∀ (i : Instr) (s t : State), exec i s = .next t → t.err ≠ 1)

/-! ### Steps -/

/-- 40_control.md R112, 10_state.md R53: when the host's next write to CMD decodes to a command, the step accepts it
(BUSY set, the word and the six operand registers latched, all else as it was) and is that command's effect. -/
def Obligations.StepRunsTheDecodedCommand : Prop :=
  ∀ (s : State) (w : Word) (rest : List HostTxn) (i : Instr), Issues s w rest → decode w = .ok i →
    i.wellFormed = true →
    step s = exec i (acceptedBy w rest s) ∧
    acceptedBy w rest s =
      { s with
        busy := true
        latched := ⟨w, s.src, s.len, s.dst, s.dcap, s.arg, s.padin⟩
        script := rest
        left := 0
        delays := s.delays.tail }

/-- 40_control.md R112, R118, 60_exceptions.md R202 with logs 2 and 25: a command inside which host transactions land is
accepted first, with STATUS.BUSY reading 1, whatever its word; it completes at the step at which none is left, or at
once where the host's script is empty: a word that decodes with its command's effect, any other with ILLCMD. An idle
block whose host has nothing to do stays as it is (70_reset_and_hazards.md R241). The count of transactions and what an
empty script does are the model's choices (logs 2, 25). -/
def Obligations.DelayedCommandRunsWhenItsTransactionsAreDone : Prop :=
  (∀ (s : State) (w : Word) (rest : List HostTxn), s.busy = false → s.script = .regWrite 0x04 w :: rest →
    s.delays.headD 0 ≠ 0 →
    ∃ t, step s = .next t ∧ t = acceptedBy w rest s ∧ (readReg t 0x08).getLsbD 0 = true) ∧
  (∀ (s : State) (i : Instr), s.busy = true → s.left = 0 ∨ s.script = [] → decode s.latched.word = .ok i →
    step s = exec i s) ∧
  (∀ s : State, s.busy = true → s.left = 0 ∨ s.script = [] → (∀ i : Instr, encode i ≠ s.latched.word) →
    ∃ t, step s = .next t ∧ FaultedWith 1 s.latched.word.toNat s t) ∧
  (∀ s : State, s.busy = false → s.script = [] → step s = .next s)

/-- 40_control.md R118, "Every command ends": each step of a running command that leaves it running uses up one of the
transactions that land inside it. The count is the model's own (log 2). -/
def Obligations.RunningCommandCountsDown : Prop :=
  ∀ s t : State, s.busy = true → step s = .next t → t.busy = true → t.left < s.left

/-! ### Completion and faults -/

/-- 60_exceptions.md R213, R200: a command that completes with an error writes its fault record and nothing else. -/
def Obligations.FaultingCommandWritesOnlyItsRecord : Prop :=
  ∀ (i : Instr) (s t : State), exec i s = .next t → t.err ≠ 0 →
    ∃ info, FaultedWith t.err.toNat info s t ∧ 2 ≤ t.err.toNat ∧ t.err.toNat ≤ 9

/-- 10_state.md R46: every completion, faulting or not, illegal or not, adds one to CMDCNT modulo 2^32; SRESET returns
it to 0 and is not counted. CMDCNT is read at offset 0x20, a write there changes nothing, and it is 0 at reset. -/
def Obligations.CompletionsAreCounted : Prop :=
  (∀ s t : State, runLatched s = .next t →
    (decode s.latched.word = .ok .sreset → t.cmdcnt = 0) ∧
    (decode s.latched.word ≠ .ok .sreset → t.cmdcnt.toNat = (s.cmdcnt.toNat + 1) % 4294967296)) ∧
  (∀ (s : State) (v : Word), readReg s 0x20 = s.cmdcnt ∧ writeReg 0x20 v s = s) ∧ State.reset.cmdcnt = 0

/-- 40_control.md R113, 60_exceptions.md R200, R215: a completion clears BUSY and sets IPEND.DONE, and sets
IPEND.ERRP exactly when it carries an error or ERRP was pending. -/
def Obligations.CompletionSetsPendingBits : Prop :=
  ∀ s t : State, runLatched s = .next t → decode s.latched.word ≠ .ok .sreset →
    t.busy = false ∧ t.ipend.getLsbD 0 = true ∧
    (t.ipend.getLsbD 1 = true ↔ s.ipend.getLsbD 1 = true ∨ t.err ≠ 0)

/-- 60_exceptions.md R201: each command completes only with an error number its row of the table allows. -/
def Obligations.OnlyListedErrorsAreRaised : Prop :=
  ∀ (i : Instr) (s : State), ∃ t, exec i s = .next t ∧ t.err.toNat ∈ mayComplete i

/-- 60_exceptions.md R206: a command whose prerequisite flag is not set completes with STATE, before any operand is
looked at. -/
def Obligations.MissingPrerequisiteRaisesState : Prop :=
  (∀ (i : Instr) (s : State), (i = .gencode ∨ i = .unpack ∨ ∃ idx, i = .tget idx) → s.tkind = .none →
    ∃ t, exec i s = .next t ∧ FaultedWith 5 0 s t) ∧
  (∀ (i : Instr) (s : State), (i = .pack ∨ ∃ sym, i = .cget sym) → s.codeV = false →
    ∃ t, exec i s = .next t ∧ FaultedWith 5 0 s t)

/-- 20_memory.md R68 to R71, 60_exceptions.md R204, R205, R210: what CheckWindows raises, in its order, once a command
reaches it; and where any command completes with ADDR, OVERLAP or BUS, that the windows are what that code says, so
that an empty window never raises ADDR, and BUS does not occur on a platform that backs every address. -/
def Obligations.WindowChecksRaiseInOrder : Prop :=
  (∀ (i : Instr) (s : State), ReachesWindows s i →
    (4294967296 < s.latched.src.toNat + s.latched.len.toNat →
      ∃ t, exec i s = .next t ∧ FaultedWith 3 0 s t) ∧
    (s.latched.src.toNat + s.latched.len.toNat ≤ 4294967296 → writesDest i = true →
      4294967296 < s.latched.dst.toNat + s.latched.dcap.toNat →
      ∃ t, exec i s = .next t ∧ FaultedWith 3 1 s t) ∧
    (s.latched.src.toNat + s.latched.len.toNat ≤ 4294967296 → writesDest i = true →
      s.latched.dst.toNat + s.latched.dcap.toNat ≤ 4294967296 →
      (∃ a, inWindow a s.latched.src.toNat s.latched.len.toNat = true ∧
        inWindow a s.latched.dst.toNat s.latched.dcap.toNat = true) →
      ∃ t, exec i s = .next t ∧ FaultedWith 4 0 s t) ∧
    (∀ a, s.latched.src.toNat + s.latched.len.toNat ≤ 4294967296 →
      (writesDest i = true → s.latched.dst.toNat + s.latched.dcap.toNat ≤ 4294967296 ∧
        ∀ b, ¬(inWindow b s.latched.src.toNat s.latched.len.toNat = true ∧
          inWindow b s.latched.dst.toNat s.latched.dcap.toNat = true)) →
      LowestUnbacked s.holes s.latched.src.toNat s.latched.len.toNat a →
      ∃ t, exec i s = .next t ∧ FaultedWith 9 a s t) ∧
    (∀ a, SourceReady s → writesDest i = true → s.latched.dst.toNat + s.latched.dcap.toNat ≤ 4294967296 →
      (∀ b, ¬(inWindow b s.latched.src.toNat s.latched.len.toNat = true ∧
        inWindow b s.latched.dst.toNat s.latched.dcap.toNat = true)) →
      LowestUnbacked s.holes s.latched.dst.toNat s.latched.dcap.toNat a →
      ∃ t, exec i s = .next t ∧ FaultedWith 9 a s t)) ∧
  (∀ (i : Instr) (s t : State), exec i s = .next t →
    (t.err = 3 →
      (t.errinfo = 0 ∧ 4294967296 < s.latched.src.toNat + s.latched.len.toNat) ∨
      (t.errinfo = 1 ∧ writesDest i = true ∧ s.latched.src.toNat + s.latched.len.toNat ≤ 4294967296 ∧
        4294967296 < s.latched.dst.toNat + s.latched.dcap.toNat)) ∧
    (t.err = 3 → s.latched.len = 0 → t.errinfo = 1 ∧ s.latched.dcap ≠ 0) ∧
    (t.err = 3 → s.latched.dcap = 0 → t.errinfo = 0 ∧ s.latched.len ≠ 0) ∧
    (t.err = 4 → t.errinfo = 0 ∧ writesDest i = true ∧
      ∃ a, inWindow a s.latched.src.toNat s.latched.len.toNat = true ∧
        inWindow a s.latched.dst.toNat s.latched.dcap.toNat = true) ∧
    (t.err = 9 →
      LowestUnbacked s.holes s.latched.src.toNat s.latched.len.toNat t.errinfo.toNat ∨
      (writesDest i = true ∧ SourceReady s ∧
        LowestUnbacked s.holes s.latched.dst.toNat s.latched.dcap.toNat t.errinfo.toNat)) ∧
    ((∀ a, memOk s.holes a = true) → t.err ≠ 9))

/-! ### Control -/

/-- 40_control.md R110: NOP, the word 0x00000000 and no other, writes only what complete() writes. -/
def Obligations.NopOnlyCompletes : Prop :=
  (∀ w, decode w = .ok .nop ↔ w = 0x00000000) ∧
  ∀ s : State, ∃ t, exec .nop s = .next t ∧ CompletedOk s t ∧ SameOperands s t ∧ SameTable s t ∧ SameTree s t ∧
    SameCodes s t ∧ SameRes s t ∧ t.outlen = s.outlen ∧ SamePackLength s t ∧ t.ent = s.ent ∧ t.codew = s.codew ∧
    SameBytes s t ∧ SameRest s t

/-- 40_control.md R111: after SRESET every register but ID reads 0, the frequency table is empty, there is no tree and no
code table, IRQ is low, and MEM is not touched. -/
def Obligations.SresetGivesTheResetState : Prop :=
  ∀ s : State, ∃ t, exec .sreset s = .next t ∧ readReg t 0x00 = 0x48554631 ∧ (∀ off, off ≠ 0 → readReg t off = 0) ∧
    (∀ i, i < 256 → t.freq.get i = 0 ∧ t.valid.get i = false) ∧ t.tkind = .none ∧ t.codeV = false ∧ t.irq = false ∧
    SameBytes s t ∧ t.holes = s.holes ∧ t.script = s.script

/-! ### Frequency table -/

/-- 42_freqtable.md R130: FCLR, the word 0x00000010, empties the table, drops the tree and the code table, and writes
nothing else. -/
def Obligations.FclrEmptiesTheTable : Prop :=
  encode .fclr = 0x00000010 ∧ decode 0x00000010 = .ok .fclr ∧
  ∀ s : State, ∃ t, exec .fclr s = .next t ∧ CompletedOk s t ∧
    (∀ i, i < 256 → t.freq.get i = 0 ∧ t.valid.get i = false) ∧ t.nent = 0 ∧
    t.tkind = .none ∧ t.codeV = false ∧ t.root = 0 ∧ t.nnode = 0 ∧
    t.node = s.node ∧ t.code = s.code ∧ SameOperands s t ∧ SameRes s t ∧ t.outlen = s.outlen ∧ SamePackLength s t ∧
    t.ent = s.ent ∧ t.codew = s.codew ∧ SameBytes s t ∧ SameRest s t

/-- 42_freqtable.md R131: FSET writes one entry, counts it if it is new, and drops the tree and the code table. -/
def Obligations.FsetSetsOneEntry : Prop :=
  ∀ (s : State) (sym : BitVec 8), ∃ t, exec (.fset sym) s = .next t ∧ CompletedOk s t ∧
    (∀ i, i < 256 → t.freq.get i = (if i = sym.toNat then s.latched.arg else s.freq.get i)) ∧
    (∀ i, i < 256 → t.valid.get i = (if i = sym.toNat then true else s.valid.get i)) ∧
    (s.valid.get sym.toNat = true → t.nent = s.nent) ∧ (s.valid.get sym.toNat = false → t.nent = s.nent + 1) ∧
    t.tkind = .none ∧ t.codeV = false ∧ t.root = 0 ∧ t.nnode = 0 ∧
    t.node = s.node ∧ t.code = s.code ∧ SameOperands s t ∧ SameRes s t ∧ t.outlen = s.outlen ∧ SamePackLength s t ∧
    t.ent = s.ent ∧ t.codew = s.codew ∧ SameBytes s t ∧ SameRest s t

/-- 42_freqtable.md R131: two entries loaded in either order give the same frequency table. -/
def Obligations.FsetOrderDoesNotMatter : Prop :=
  ∀ (s : State) (a b : BitVec 8) (f g : Word) (s1 s2 t1 t2 : State), a ≠ b →
    exec (.fset a) { s with latched := { s.latched with arg := f } } = .next s1 →
    exec (.fset b) { s1 with latched := { s.latched with arg := g } } = .next s2 →
    exec (.fset b) { s with latched := { s.latched with arg := g } } = .next t1 →
    exec (.fset a) { t1 with latched := { s.latched with arg := f } } = .next t2 →
    SameTable s2 t2

/-- 42_freqtable.md R132: FGET, the word (sym << 8) | 0x12, reads one entry into RES0 and RES1, clears RES2, and changes
no table. -/
def Obligations.FgetReadsOneEntry : Prop :=
  ∀ (s : State) (sym : BitVec 8), encode (.fget sym) = (sym.setWidth 32 <<< 8) ||| 0x12 ∧
    ∃ t, exec (.fget sym) s = .next t ∧ CompletedOk s t ∧
    t.res0 = s.freq.get sym.toNat ∧ t.res1.toNat = (s.valid.get sym.toNat).toNat ∧ t.res2 = 0 ∧
    SameOperands s t ∧ SameTable s t ∧ SameTree s t ∧ SameCodes s t ∧ t.outlen = s.outlen ∧ SamePackLength s t ∧
    t.ent = s.ent ∧ t.codew = s.codew ∧ SameBytes s t ∧ SameRest s t

/-- 42_freqtable.md R133: COUNT over a ready source window makes FREQ[b] the number of positions that hold b, makes b an
entry exactly when it occurs, makes NENT the number of distinct byte values, and drops the tree and the code table. -/
def Obligations.CountCountsTheSourceWindow : Prop :=
  ∀ s : State, SourceReady s → ∃ t, exec .count s = .next t ∧ CompletedOk s t ∧
    (∀ b : Byte, (t.freq.get b.toNat).toNat = occurrences s b) ∧
    (∀ b : Byte, t.valid.get b.toNat = true ↔ ∃ j, j < s.latched.len.toNat ∧ sourceByte s j = b) ∧
    t.nent.toNat = (((List.range s.latched.len.toNat).map (sourceByte s)).dedup).length ∧
    (((List.range 256).map fun i => (t.freq.get i).toNat).sum = s.latched.len.toNat) ∧
    t.tkind = .none ∧ t.codeV = false ∧ t.root = 0 ∧ t.nnode = 0 ∧
    t.node = s.node ∧ t.code = s.code ∧ SameOperands s t ∧ SameRes s t ∧ t.outlen = s.outlen ∧ SamePackLength s t ∧
    t.ent = s.ent ∧ t.codew = s.codew ∧ SameBytes s t ∧ SameRest s t

/-! ### Entropy -/

/-- 41_entropy.md R120 to R122: ENTROPY over a ready, non-empty source window gives the Shannon entropy of its bytes in
Q4.28 within `ENT_TOL`, never above 8.0, exactly 0 for a one-valued buffer, and writes ENT only. -/
def Obligations.EntropyIsWithinTolerance : Prop :=
  ∀ s : State, s.latched.len ≠ 0 → SourceReady s → ∃ t, exec .entropy s = .next t ∧ CompletedOk s t ∧
    |(t.ent.toNat : ℝ) - entropyBits (sourceBytes s) * 2 ^ 28| ≤ 4096 ∧ t.ent.toNat ≤ 0x80000000 ∧
    ((∀ j, j < s.latched.len.toNat → sourceByte s j = sourceByte s 0) → t.ent = 0) ∧
    SameOperands s t ∧ SameTable s t ∧ SameTree s t ∧ SameCodes s t ∧ SameRes s t ∧ t.outlen = s.outlen ∧
    SamePackLength s t ∧ t.codew = s.codew ∧ SameBytes s t ∧ SameRest s t

/-- 41_entropy.md R122 `ENTQ_fn`: two ENTROPY commands over windows with the same counts give the same ENT, whatever the
addresses, the order of the bytes, or the state before. It holds for every choice of the free part of ENTQ (log 5). -/
def Obligations.EntropyDependsOnTheCountsAlone : Prop :=
  ∀ s t u v : State, exec .entropy s = .next t → exec .entropy u = .next v → t.err = 0 → v.err = 0 →
    (∀ b : Byte, occurrences s b = occurrences u b) → t.ent = v.ent

/-- 60_exceptions.md R203: ENTROPY of an empty buffer completes with EMPTY, ERRINFO 0 and ENT unchanged, and no other
command raises EMPTY. -/
def Obligations.EmptyEntropyFaults : Prop :=
  (∀ s : State, s.latched.len = 0 → ∃ t, exec .entropy s = .next t ∧ FaultedWith 2 0 s t) ∧
  (∀ (i : Instr) (s t : State), i ≠ .entropy → exec i s = .next t → t.err ≠ 2)

/-! ### Tree -/

/-- 43_tree.md R141: "extract the minimum" removes the one node whose key (weight, internal before leaf, index) is
smallest, whatever the order the structure is held in. -/
def Obligations.ExtractionTakesTheSmallestKey : Prop :=
  ∀ (q : List QEntry) (m : QEntry) (rest : List QEntry), extractMin q = some (m, rest) →
    (m :: rest).Perm q ∧
    ∀ e, e ∈ rest → e.idx ≠ m.idx →
      m.weight.toNat < e.weight.toNat ∨
      (m.weight = e.weight ∧
        ((256 ≤ m.idx.toNat ∧ e.idx.toNat ≤ 255) ∨
          ((256 ≤ m.idx.toNat ↔ 256 ≤ e.idx.toNat) ∧ m.idx.toNat < e.idx.toNat)))

/-- 43_tree.md R140, corner cases: BUILD always completes, leaves the table, clears CODE_V, and gives the EMPTY tree for
no entry, the entry itself as root for one, and node 256 as root for two, with the lighter entry (then the smaller byte
value) on the left. -/
def Obligations.BuildOfSmallTables : Prop :=
  ∀ s : State, ∃ t, exec .build s = .next t ∧ CompletedOk s t ∧ t.codeV = false ∧
    (entries s.valid = [] → t.tkind = .empty ∧ t.root = 0 ∧ t.nnode = 0) ∧
    (∀ a, entries s.valid = [a] →
      t.tkind = .single ∧ t.root.toNat = a ∧ t.nnode = 1 ∧ ((t.node.get a).weight).toNat = (s.freq.get a).toNat) ∧
    (∀ a b, entries s.valid = [a, b] →
      t.tkind = .multi ∧ t.root = 256 ∧ t.nnode = 3 ∧
      (t.node.get 256).weight.toNat = (s.freq.get a).toNat + (s.freq.get b).toNat ∧
      (s.freq.get a ≤ s.freq.get b → (t.node.get 256).left.toNat = a ∧ (t.node.get 256).right.toNat = b) ∧
      (s.freq.get b < s.freq.get a → (t.node.get 256).left.toNat = b ∧ (t.node.get 256).right.toNat = a)) ∧
    SameOperands s t ∧ SameTable s t ∧ t.code = s.code ∧ SameRes s t ∧ t.outlen = s.outlen ∧ SamePackLength s t ∧
    t.ent = s.ent ∧ t.codew = s.codew ∧ SameBytes s t ∧ SameRest s t

/-- 43_tree.md R142: the tree of n entries. NNODE = 2n - 1; for n ≥ 2 the root is 254 + n; every leaf has its count as
weight; every internal node has two different children, both nodes of the tree with smaller indices, whose weights it
sums; every node but the root is the child of exactly one internal node; the root weighs the sum of the counts. R140,
R141: the left child's key is smaller than the right child's, and the right child's than that of every other node in
the priority structure at that merge, which are the nodes made before it that a later internal node takes. -/
def Obligations.BuildMakesABinaryTree : Prop :=
  ∀ (s t : State) (n : Nat), n = (entries s.valid).length → 1 ≤ n → exec .build s = .next t →
    t.nnode.toNat = 2 * n - 1 ∧ (2 ≤ n → t.root.toNat = 254 + n ∧ t.tkind = .multi) ∧
    (∀ i, i ∈ entries s.valid → (t.node.get i).weight.toNat = (s.freq.get i).toNat) ∧
    (∀ k, 256 ≤ k → k ≤ 254 + n → ∃ w l r, t.node.get k = .internal w l r ∧ l ≠ r ∧
      l.toNat < k ∧ r.toNat < k ∧ IsTreeNode s.valid n l.toNat ∧ IsTreeNode s.valid n r.toNat ∧
      w.toNat = (t.node.get l.toNat).weight.toNat + (t.node.get r.toNat).weight.toNat) ∧
    (∀ j, IsTreeNode s.valid n j → j ≠ t.root.toNat → ∃! k, 256 ≤ k ∧ k ≤ 254 + n ∧ IsChild t.node k j) ∧
    (∀ k, 256 ≤ k → k ≤ 254 + n →
      KeyBefore t.node (t.node.get k).left (t.node.get k).right ∧
      ∀ (later : Nat) (j : BitVec 9), k < later → later ≤ 254 + n → j.toNat < k → IsChild t.node later j.toNat →
        KeyBefore t.node (t.node.get k).right j) ∧
    (t.node.get t.root.toNat).weight.toNat = ((entries s.valid).map fun i => (s.freq.get i).toNat).sum

/-- 43_tree.md R144, 44_codetable.md R164: the codes of a table with at least two entries are as short as a prefix code
can be. A choice of lengths some prefix code has meets the Kraft inequality, and none of those has a smaller total
weighted length. -/
def Obligations.CodesAreOptimal : Prop :=
  ∀ (s t u : State), 2 ≤ (entries s.valid).length → exec .build s = .next t → exec .gencode t = .next u →
    ∀ lengths : Nat → Nat, ((entries s.valid).map fun i => (1 / 2 : ℚ) ^ lengths i).sum ≤ 1 →
      ((entries s.valid).map fun i => (s.freq.get i).toNat * (u.code.get i).length).sum ≤
        ((entries s.valid).map fun i => (s.freq.get i).toNat * lengths i).sum

/-- 43_tree.md R143: TGET with a valid tree writes RES0 to RES2 with the weight, the kind and the children of a node of
the tree, and with zeros for an index outside it, and changes nothing else. -/
def Obligations.TgetReadsOneNode : Prop :=
  ∀ (s : State) (idx : BitVec 9), s.tkind ≠ .none → ∃ t, exec (.tget idx) s = .next t ∧ CompletedOk s t ∧
    (idx.toNat ≤ 255 → 0 < s.nnode.toNat → s.valid.get idx.toNat = true →
      t.res1.toNat * 4294967296 + t.res0.toNat = (s.node.get idx.toNat).weight.toNat ∧ t.res2 = 1) ∧
    (256 ≤ idx.toNat → idx.toNat ≤ 254 + s.nent.toNat → 2 ≤ s.nent.toNat →
      t.res1.toNat * 4294967296 + t.res0.toNat = (s.node.get idx.toNat).weight.toNat ∧
      t.res2.toNat = 2 + 16 * (s.node.get idx.toNat).left.toNat + 65536 * (s.node.get idx.toNat).right.toNat) ∧
    (¬(idx.toNat ≤ 255 ∧ 0 < s.nnode.toNat ∧ s.valid.get idx.toNat = true) →
      ¬(256 ≤ idx.toNat ∧ idx.toNat ≤ 254 + s.nent.toNat ∧ 2 ≤ s.nent.toNat) →
      t.res0 = 0 ∧ t.res1 = 0 ∧ t.res2 = 0) ∧
    SameOperands s t ∧ SameTable s t ∧ SameTree s t ∧ SameCodes s t ∧ t.outlen = s.outlen ∧ SamePackLength s t ∧
    t.ent = s.ent ∧ t.codew = s.codew ∧ SameBytes s t ∧ SameRest s t

/-! ### Codes -/

/-- 44_codetable.md R160: GENCODE with a valid tree completes and sets CODE_V; an EMPTY tree gives no code; a root that
is a leaf gives that leaf the code "0" and no other byte value a code; below an internal root every code is the path
from the root to its leaf, 0 for left and 1 for right, every leaf that a path of at most 255 bits leads to has a code,
and where the tree is the tree of the table (the invariant of 10_state.md R56, which every step keeps) every entry has
its path and no other byte value has a code. It changes nothing but CODE and CODE_V. -/
def Obligations.GencodeGivesEachLeafItsPath : Prop :=
  ∀ s : State, s.tkind ≠ .none → ∃ t, exec .gencode s = .next t ∧ CompletedOk s t ∧ t.codeV = true ∧
    (s.tkind = .empty → ∀ sym, sym < 256 → t.code.get sym = []) ∧
    (s.tkind ≠ .empty → s.root.toNat ≤ 255 →
      ∀ sym, sym < 256 → t.code.get sym = if sym = s.root.toNat then [false] else []) ∧
    (s.tkind ≠ .empty → 256 ≤ s.root.toNat →
      ∀ sym : BitVec 8, t.code.get sym.toNat ≠ [] →
        IsPath s.node s.root (t.code.get sym.toNat) (sym.setWidth 9)) ∧
    (s.tkind ≠ .empty → 256 ≤ s.root.toNat →
      ∀ (sym : BitVec 8) (path : List Bool), path.length ≤ 255 → IsPath s.node s.root path (sym.setWidth 9) →
        t.code.get sym.toNat ≠ []) ∧
    (TreeInv s → s.tkind = .multi →
      ∀ sym : BitVec 8,
        (s.valid.get sym.toNat = true → IsPath s.node s.root (t.code.get sym.toNat) (sym.setWidth 9)) ∧
        (s.valid.get sym.toNat = false → t.code.get sym.toNat = [])) ∧
    SameOperands s t ∧ SameTable s t ∧ SameTree s t ∧ SameRes s t ∧ t.outlen = s.outlen ∧ SamePackLength s t ∧
    t.ent = s.ent ∧ t.codew = s.codew ∧ SameBytes s t ∧ SameRest s t

/-- 44_codetable.md R162: in a state whose tree is the tree of its frequency table, exactly the entries get a code. -/
def Obligations.GencodeCoversExactlyTheEntries : Prop :=
  ∀ s t : State, TreeInv s → s.tkind ≠ .none → exec .gencode s = .next t →
    ∀ sym, sym < 256 → (1 ≤ (t.code.get sym).length ↔ s.valid.get sym = true)

/-- 44_codetable.md R163: no code is a prefix of another. -/
def Obligations.CodesArePrefixFree : Prop :=
  ∀ s t : State, s.tkind ≠ .none → exec .gencode s = .next t →
    ∀ x y, x < 256 → y < 256 → x ≠ y → HasCode t.code x → HasCode t.code y →
      ¬(t.code.get x <+: t.code.get y)

/-- 44_codetable.md R163: under a MULTI tree the codes are complete, the sum of 2^(-len) is exactly 1. -/
def Obligations.CodesAreComplete : Prop :=
  ∀ s t : State, TreeInv s → s.tkind = .multi → exec .gencode s = .next t →
    (((List.range 256).filter fun i => decide (t.code.get i ≠ [])).map
      fun i => (1 / 2 : ℚ) ^ (t.code.get i).length).sum = 1

/-- 44_codetable.md R161, 10_state.md R37: CGET, the word (sym << 8) | 0x33, faults with STATE where there is no code
table; otherwise it gives the length in RES0 and the code left-aligned in CODEW0 to CODEW7, its bit i at bit
31 - (i mod 32) of word i div 32, zeros past its end, and changes nothing else. The premise on the length is the
invariant CodeLengthInv, which every step keeps. -/
def Obligations.CgetLeftAlignsTheCode : Prop :=
  ∀ (s : State) (sym : BitVec 8), encode (.cget sym) = (sym.setWidth 32 <<< 8) ||| 0x33 ∧
    (s.codeV = false → ∃ t, exec (.cget sym) s = .next t ∧ FaultedWith 5 0 s t) ∧
    (s.codeV = true → (s.code.get sym.toNat).length ≤ 255 →
    ∃ t, exec (.cget sym) s = .next t ∧ CompletedOk s t ∧
      t.res0.toNat = (s.code.get sym.toNat).length ∧ t.res1 = 0 ∧ t.res2 = 0 ∧
      (∀ i, i < 256 →
        (t.codew.get (i / 32)).getLsbD (31 - i % 32) = (s.code.get sym.toNat).getD i false) ∧
      SameOperands s t ∧ SameTable s t ∧ SameTree s t ∧ SameCodes s t ∧ t.outlen = s.outlen ∧ SamePackLength s t ∧
      t.ent = s.ent ∧ SameBytes s t ∧ SameRest s t)

/-! ### Packing and unpacking -/

/-- 45_bitpack.md R170, 40_control.md R116: PACK of a covered buffer into a large enough window writes the codes of the
bytes one after another, most significant bit first, then zeros to the byte boundary; sets OUTLEN, PAD and BITLEN; and
changes no other byte and no other register. -/
def Obligations.PackWritesThePayload : Prop :=
  ∀ s : State, CodeLengthInv s → s.mem.wf = true → s.codeV = true → SourceReady s → DestReady s →
    (∀ j, j < s.latched.len.toNat → HasCode s.code (sourceByte s j).toNat) →
    ((codeStream s).length + 7) / 8 ≤ s.latched.dcap.toNat →
    ∃ t, exec .pack s = .next t ∧ CompletedOk s t ∧
      t.outlen.toNat = ((codeStream s).length + 7) / 8 ∧ t.bitlen = (codeStream s).length ∧
      t.pad.toNat = (8 - (codeStream s).length % 8) % 8 ∧ t.bitlen + t.pad.toNat = 8 * t.outlen.toNat ∧
      (∀ p, p < 8 * t.outlen.toNat →
        streamBit t.mem s.latched.dst.toNat p = (codeStream s).getD p false) ∧
      SameBytesOutside s.latched.dst.toNat t.outlen.toNat s t ∧
      SameOperands s t ∧ SameTable s t ∧ SameTree s t ∧ SameCodes s t ∧ SameRes s t ∧ t.ent = s.ent ∧
      t.codew = s.codew ∧ SameRest s t

/-- 60_exceptions.md R207, and R208 for PACK: PACK of a byte without a code reports the lowest offset of such a byte; PACK of a covered
buffer whose payload is longer than DCAP reports the bytes it needs, saturated at 2^32 - 1. -/
def Obligations.PackReportsItsErrors : Prop :=
  (∀ (s : State) (j : Nat), s.codeV = true → SourceReady s → DestReady s → j < s.latched.len.toNat →
    ¬HasCode s.code (sourceByte s j).toNat → (∀ k, k < j → HasCode s.code (sourceByte s k).toNat) →
    ∃ t, exec .pack s = .next t ∧ FaultedWith 6 j s t) ∧
  (∀ s : State, s.codeV = true → SourceReady s → DestReady s →
    (∀ j, j < s.latched.len.toNat → HasCode s.code (sourceByte s j).toNat) →
    s.latched.dcap.toNat < ((codeStream s).length + 7) / 8 →
    ∃ t, exec .pack s = .next t ∧ FaultedWith 7 (((codeStream s).length + 7) / 8) s t)

/-- 45_bitpack.md R171: UNPACK under a MULTI tree of a stream that is a sequence of paths to leaves writes the leaves'
byte values in order and sets OUTLEN, and changes no other byte and no other register; a result longer than DCAP is
DSTOVF with the number of bytes it needs; and a stream that ends inside a path is MALFORMED(5), whatever DCAP is. -/
def Obligations.UnpackDecodesPaths : Prop :=
  ∀ (s : State) (paths : List (List Bool)) (out : List Byte), s.mem.wf = true → s.tkind = .multi →
    s.latched.padin.toNat ≤ 7 → s.latched.padin.toNat ≤ 8 * s.latched.len.toNat → SourceReady s → DestReady s →
    List.Forall₂ (fun p (b : Byte) => IsPath s.node s.root p (b.setWidth 9)) paths out →
    (remainingStream s = paths.flatten → out.length ≤ s.latched.dcap.toNat →
      ∃ t, exec .unpack s = .next t ∧ CompletedOk s t ∧ t.outlen.toNat = out.length ∧
        (∀ k (h : k < out.length), t.mem.read (s.latched.dst.toNat + k) = out[k]) ∧
        SameBytesOutside s.latched.dst.toNat out.length s t ∧
        SameOperands s t ∧ SameTable s t ∧ SameTree s t ∧ SameCodes s t ∧ SameRes s t ∧ SamePackLength s t ∧
        t.ent = s.ent ∧ t.codew = s.codew ∧ SameRest s t) ∧
    (remainingStream s = paths.flatten → s.latched.dcap.toNat < out.length →
      ∃ t, exec .unpack s = .next t ∧ FaultedWith 7 out.length s t) ∧
    (∀ tail, remainingStream s = paths.flatten ++ tail →
      (∀ k, 0 < k → k ≤ tail.length → isLeafIndex (follow s.node s.root (tail.take k)) = false) →
      follow s.node s.root tail ≠ s.root →
      ∃ t, exec .unpack s = .next t ∧ FaultedWith 8 5 s t)

/-- 45_bitpack.md R172, and R171 and 60_exceptions.md R208 for its size: under a SINGLE tree each of the remaining bits
that is 0 emits the byte value ROOT; more of them than DCAP is DSTOVF with the number of bytes needed; and a 1 bit is
MALFORMED(4), whatever DCAP is. -/
def Obligations.UnpackOfASingleLeaf : Prop :=
  ∀ s : State, s.mem.wf = true → s.tkind = .single → s.root.toNat ≤ 255 → s.latched.padin.toNat ≤ 7 →
    s.latched.padin.toNat ≤ 8 * s.latched.len.toNat → SourceReady s → DestReady s →
    ((∀ p, p < remainingCount s → streamBit s.mem s.latched.src.toNat p = false) →
      remainingCount s ≤ s.latched.dcap.toNat →
      ∃ t, exec .unpack s = .next t ∧ CompletedOk s t ∧ t.outlen.toNat = remainingCount s ∧
        (∀ k, k < remainingCount s → (t.mem.read (s.latched.dst.toNat + k)).toNat = s.root.toNat) ∧
        SameBytesOutside s.latched.dst.toNat (remainingCount s) s t ∧
        SameOperands s t ∧ SameTable s t ∧ SameTree s t ∧ SameCodes s t ∧ SameRes s t ∧ SamePackLength s t ∧
        t.ent = s.ent ∧ t.codew = s.codew ∧ SameRest s t) ∧
    ((∀ p, p < remainingCount s → streamBit s.mem s.latched.src.toNat p = false) →
      s.latched.dcap.toNat < remainingCount s →
      ∃ t, exec .unpack s = .next t ∧ FaultedWith 7 (remainingCount s) s t) ∧
    ((∃ p, p < remainingCount s ∧ streamBit s.mem s.latched.src.toNat p = true) →
      ∃ t, exec .unpack s = .next t ∧ FaultedWith 8 4 s t)

/-- 60_exceptions.md R209, sub-causes 1 to 3, 45_bitpack.md R171: a padding count above 7, then more padding than bits,
both before the windows; then bits under an EMPTY tree; and the empty stream under an EMPTY tree decodes to nothing. -/
def Obligations.UnpackChecksPaddingAndEmptyTree : Prop :=
  (∀ s : State, s.tkind ≠ .none → 7 < s.latched.padin.toNat →
    ∃ t, exec .unpack s = .next t ∧ FaultedWith 8 1 s t) ∧
  (∀ s : State, s.tkind ≠ .none → s.latched.padin.toNat ≤ 7 → 8 * s.latched.len.toNat < s.latched.padin.toNat →
    ∃ t, exec .unpack s = .next t ∧ FaultedWith 8 2 s t) ∧
  (∀ s : State, s.tkind = .empty → s.latched.padin.toNat ≤ 7 → s.latched.padin.toNat < 8 * s.latched.len.toNat →
    SourceReady s → DestReady s → ∃ t, exec .unpack s = .next t ∧ FaultedWith 8 3 s t) ∧
  (∀ s : State, s.tkind = .empty → s.latched.padin = 0 → s.latched.len = 0 → SourceReady s → DestReady s →
    ∃ t, exec .unpack s = .next t ∧ CompletedOk s t ∧ t.outlen = 0 ∧ SameBytes s t)

/-- 45_bitpack.md R173: what PACK wrote, UNPACK under the same tree turns back into the bytes PACK read, on the same block
or on another. -/
def Obligations.UnpackInvertsPack : Prop :=
  ∀ s t u : State, TreeInv s → CodeInv s → s.mem.wf = true → exec .pack s = .next t → t.err = 0 →
    SameTree s u → u.mem.wf = true → u.latched.len = t.outlen → u.latched.padin.toNat = t.pad.toNat →
    (∀ k, k < t.outlen.toNat → sourceByte u k = t.mem.read (s.latched.dst.toNat + k)) →
    SourceReady u → DestReady u → s.latched.len.toNat ≤ u.latched.dcap.toNat →
    ∃ v, exec .unpack u = .next v ∧ CompletedOk u v ∧ v.outlen = s.latched.len ∧
      ∀ j, j < s.latched.len.toNat → v.mem.read (u.latched.dst.toNat + j) = sourceByte s j

/-- 45_bitpack.md R174: PACK under the same code table turns what UNPACK wrote back into the packed bytes, where the
stripped bits were 0. -/
def Obligations.PackInvertsUnpackOfZeroPadding : Prop :=
  ∀ s t u : State, TreeInv s → CodeInv s → s.codeV = true → s.mem.wf = true → exec .unpack s = .next t → t.err = 0 →
    (∀ p, remainingCount s ≤ p → p < 8 * s.latched.len.toNat → streamBit s.mem s.latched.src.toNat p = false) →
    SameCodes s u → u.mem.wf = true → u.latched.len = t.outlen →
    (∀ k, k < t.outlen.toNat → sourceByte u k = t.mem.read (s.latched.dst.toNat + k)) →
    SourceReady u → DestReady u → s.latched.len.toNat ≤ u.latched.dcap.toNat →
    ∃ v, exec .pack u = .next v ∧ CompletedOk u v ∧ v.outlen = s.latched.len ∧
      v.pad.toNat = s.latched.padin.toNat ∧
      ∀ k, k < s.latched.len.toNat → v.mem.read (u.latched.dst.toNat + k) = sourceByte s k

/-! ### Rules over all commands -/

/-- 20_memory.md R60, R67: no command but PACK and UNPACK changes a byte of MEM; those two change at most the OUTLEN bytes
at DST, and no command writes its source window. -/
def Obligations.OnlyTheDestinationIsWritten : Prop :=
  ∀ (i : Instr) (s t : State), exec i s = .next t →
    (i ≠ .pack → i ≠ .unpack → SameBytes s t) ∧
    (i = .pack ∨ i = .unpack → t.err = 0 →
      t.outlen.toNat ≤ s.latched.dcap.toNat ∧ SameBytesOutside s.latched.dst.toNat t.outlen.toNat s t) ∧
    (∀ a, inWindow a s.latched.src.toNat s.latched.len.toNat = true → t.mem.read a = s.mem.read a)

/-- 10_state.md section 3: no command but SRESET writes an operand register, an interrupt enable, or what the platform
backs. -/
def Obligations.CommandsLeaveTheOperandRegisters : Prop :=
  ∀ (i : Instr) (s t : State), i ≠ .sreset → exec i s = .next t → SameOperands s t ∧ SameRest s t

/-- 42_freqtable.md R134, 10_state.md R48, R58: the frequency table is changed only by FCLR, FSET, COUNT and SRESET, and a
command that changes it leaves no tree and no code table; only FCLR, FSET, COUNT, BUILD and SRESET change the tree, and
only these and GENCODE the code table or CODE_V; each of them makes it anew or drops it. -/
def Obligations.ChangedTableDropsTheTree : Prop :=
  ∀ (i : Instr) (s t : State), exec i s = .next t →
    (i ≠ .fclr → i ≠ .count → i ≠ .sreset → (∀ sym, i ≠ .fset sym) → SameTable s t) ∧
    (¬SameTable s t → t.tkind = .none ∧ t.codeV = false ∧ t.root = 0 ∧ t.nnode = 0) ∧
    (i ≠ .build → SameTree s t ∨ (t.tkind = .none ∧ t.codeV = false ∧ t.root = 0 ∧ t.nnode = 0)) ∧
    (i ≠ .gencode → SameCodes s t ∨ t.codeV = false) ∧
    (i ≠ .fclr → i ≠ .count → i ≠ .build → i ≠ .sreset → (∀ sym, i ≠ .fset sym) →
      SameTree s t ∧ (i ≠ .gencode → SameCodes s t))

/-- 10_state.md section 4, R29 to R37: a result register is written only by the commands its rule names, and by SRESET;
NENT by those that change VALID (R33), ROOT and NNODE by BUILD and, to 0, by those that drop the tree (R58). -/
def Obligations.ResultsAreWrittenByTheirCommandsOnly : Prop :=
  ∀ (i : Instr) (s t : State), i ≠ .sreset → exec i s = .next t →
    ((∀ x, i ≠ .fget x) → (∀ x, i ≠ .tget x) → (∀ x, i ≠ .cget x) → SameRes s t) ∧
    (i ≠ .pack → i ≠ .unpack → t.outlen = s.outlen) ∧ (i ≠ .pack → SamePackLength s t) ∧
    (i ≠ .entropy → t.ent = s.ent) ∧ ((∀ x, i ≠ .cget x) → t.codew = s.codew) ∧
    (i ≠ .fclr → i ≠ .count → (∀ x, i ≠ .fset x) → t.nent = s.nent) ∧
    (i ≠ .build → i ≠ .fclr → i ≠ .count → (∀ x, i ≠ .fset x) → t.root = s.root ∧ t.nnode = s.nnode) ∧
    (i = .fclr ∨ i = .count ∨ (∃ x, i = .fset x) → t.err = 0 → t.root = 0 ∧ t.nnode = 0)

/-- 10_state.md R43: a bit of ERRLOG is never cleared except by a hardware reset or SRESET, which clear them all. That a
running command completes where the script is empty is the model's choice (log 25). -/
def Obligations.ErrorLogIsSticky : Prop :=
  ∀ s t : State, step s = .next t →
    (¬Resets s → ∀ j, s.errlog.getLsbD j = true → t.errlog.getLsbD j = true) ∧ (Resets s → t.errlog = 0)

/-! ### Invariants that every step keeps -/

/-- 10_state.md R55: NENT is the population count of VALID, and a byte value that is no entry has count 0. -/
def Obligations.StepKeepsTheTableInvariant : Prop :=
  ∀ s t : State, TableInv s → step s = .next t → TableInv t

/-- 10_state.md R56: while a tree is valid it is the tree BUILD makes from the current table. -/
def Obligations.StepKeepsTheTreeInvariant : Prop :=
  ∀ s t : State, TreeInv s → step s = .next t → TreeInv t

/-- 10_state.md R57: while CODE_V is 1 the code table is the one GENCODE makes from the current tree. -/
def Obligations.StepKeepsTheCodeInvariant : Prop :=
  ∀ s t : State, CodeInv s → step s = .next t → CodeInv t

/-- 10_state.md R41, R43: only codes 0 to 9 occur in ERR, an error in ERR is in ERRLOG, and ERRLOG's other bits read 0. -/
def Obligations.StepKeepsTheFaultRecord : Prop :=
  ∀ s t : State, RecordInv s → step s = .next t → RecordInv t

/-- 20_memory.md R60, R63 with log 3: MEM keeps its canonical form, with no address beyond 2^32 - 1. -/
def Obligations.StepKeepsMemoryCanonical : Prop :=
  ∀ s t : State, s.mem.wf = true → step s = .next t → t.mem.wf = true

/-- 10_state.md R52, R34, 44_codetable.md R164: no code is ever longer than 255 bits, and ENT never exceeds 8.0. -/
def Obligations.StepKeepsCodeLengthsAndEntropyInRange : Prop :=
  ∀ s t : State, step s = .next t → (CodeLengthInv s → CodeLengthInv t) ∧ (EntInv s → EntInv t)

/-- 10_state.md R53: while a command runs its latched operands equal the registers, since writes are dropped. -/
def Obligations.StepKeepsLatchedOperands : Prop :=
  ∀ s t : State, LatchInv s → step s = .next t → LatchInv t

/-- 10_state.md R59: the reset state meets every invariant. -/
def Obligations.ResetMeetsTheInvariants : Prop :=
  TableInv State.reset ∧ TreeInv State.reset ∧ CodeInv State.reset ∧ RecordInv State.reset ∧
    State.reset.mem.wf = true ∧ CodeLengthInv State.reset ∧ LatchInv State.reset ∧ EntInv State.reset

/-! ### The host's side -/

/-- 10_state.md R59, 70_reset_and_hazards.md R241: the reset state as the window and the tables show it. -/
def Obligations.ResetState : Prop :=
  readReg State.reset 0x00 = 0x48554631 ∧ (∀ off, off ≠ 0 → readReg State.reset off = 0) ∧
    (∀ i, i < 256 → State.reset.freq.get i = 0 ∧ State.reset.valid.get i = false) ∧
    State.reset.tkind = .none ∧ State.reset.codeV = false ∧ State.reset.busy = false ∧ State.reset.irq = false

/-- 40_control.md R119, 10_state.md R21, R22, R38 to R46, 70_reset_and_hazards.md R251: a register read of an idle block
returns the register its offset names, 0 for CMD and for unmapped offsets, and changes nothing; a read of a byte of MEM
returns that byte and changes nothing; a register read at an offset that is no whole register is refused (log 9); WAIT
and CHECK read STATUS and ERR, and CHECK goes on only on 0 (log 18). The host reaches every address of MEM, backed for
the engine or not (log 22). What the host holds of a read is the model's own field (log 13). -/
def Obligations.RegisterReadHasNoSideEffect : Prop :=
  (∀ (s : State) (off : Nat) (rest : List HostTxn), s.busy = false → off % 4 = 0 → off < 256 →
    s.script = .regRead off :: rest →
    step s = .next { s with script := rest, hostData := readReg s off } ∧
    (off = 0x04 ∨ (0x20 < off ∧ off < 0x40) ∨ (0x54 < off ∧ off < 0x80) ∨ (0xA8 < off ∧ off < 0xC0) ∨ 0xDC < off →
      readReg s off = 0)) ∧
  (∀ s : State, ReadsControl s ∧ ReadsOperands s ∧ ReadsResults s) ∧
  (∀ (s : State) (a : Word) (rest : List HostTxn), s.busy = false → s.script = .memRead a :: rest →
    ∃ t, step s = .next t ∧ t = { s with script := rest, hostData := t.hostData } ∧
      t.hostData.toNat = (s.mem.read a.toNat).toNat) ∧
  (∀ (s : State) (off : Nat) (rest : List HostTxn), s.busy = false → off % 4 ≠ 0 ∨ 256 ≤ off →
    s.script = .regRead off :: rest → step s = .refused (.registerAccess off)) ∧
  (∀ (s : State) (rest : List HostTxn), s.busy = false → s.script = .wait :: rest →
    step s = .next { s with script := rest, hostData := readReg s 0x08 }) ∧
  (∀ (s : State) (rest : List HostTxn), s.busy = false → s.script = .check :: rest →
    step s = .next { s with script := if s.err = 0 then rest else [], hostData := s.err })

/-- 40_control.md R119, 10_state.md R21 to R28, R44, R45, 70_reset_and_hazards.md R251: a register write to an idle block,
to any offset but CMD, stores into the register its offset names the bits that register has, clears the IPEND bits
written with 1, and changes nothing else; a write of a byte of MEM changes that byte alone, at every address, backed for
the engine or not (log 22); a register write at an offset that is no whole register is refused (log 9). -/
def Obligations.RegisterWriteChangesOneRegister : Prop :=
  (∀ (s : State) (off : Nat) (v : Word) (rest : List HostTxn), s.busy = false → off % 4 = 0 → off < 256 → off ≠ 0x04 →
    s.script = .regWrite off v :: rest →
    ∃ t, step s = .next t ∧
      (off = 0x18 → t = { s with script := rest, ien := v.extractLsb' 0 2 }) ∧
      (off = 0x1C → t = { s with script := rest, ipend := s.ipend &&& ~~~(v.extractLsb' 0 2) }) ∧
      (off = 0x40 → t = { s with script := rest, src := v }) ∧
      (off = 0x44 → t = { s with script := rest, len := v }) ∧
      (off = 0x48 → t = { s with script := rest, dst := v }) ∧
      (off = 0x4C → t = { s with script := rest, dcap := v }) ∧
      (off = 0x50 → t = { s with script := rest, arg := v }) ∧
      (off = 0x54 → t = { s with script := rest, padin := v.extractLsb' 0 8 }) ∧
      (∀ mask, writableMask off = some mask → readReg t off = v &&& mask) ∧
      (off = 0x1C → readReg t 0x1C = readReg s 0x1C &&& ~~~v) ∧
      (writableMask off = none → off ≠ 0x1C → t = { s with script := rest }) ∧
      (∀ other, other ≠ off → readReg t other = readReg s other) ∧
      SameTable s t ∧ SameTree s t ∧ SameCodes s t ∧ t.mem = s.mem ∧ t.latched = s.latched ∧ t.script = rest) ∧
  (∀ (s : State) (a : Word) (v : Byte) (rest : List HostTxn), s.busy = false → s.mem.wf = true →
    s.script = .memWrite a v :: rest →
    ∃ t, step s = .next t ∧ t = { s with script := rest, mem := t.mem } ∧ t.mem.read a.toNat = v ∧
      ∀ b, b ≠ a.toNat → t.mem.read b = s.mem.read b) ∧
  (∀ (s : State) (off : Nat) (v : Word) (rest : List HostTxn), s.busy = false → off % 4 ≠ 0 ∨ 256 ≤ off →
    s.script = .regWrite off v :: rest → step s = .refused (.registerAccess off))

/-- 70_reset_and_hazards.md R245, R246, R251: a register write while BUSY = 1 is dropped, whatever its offset, and sets
ERRLOG[31], and the running command is not disturbed; a write of a byte of MEM outside the running command's windows
changes that byte alone; a write inside them ends the run in a fault (windowRace, log 8), and a register write at an
offset that is no whole register is refused (log 9). What lands inside a command is the model's count (log 2), and the
host reaches every address of MEM, backed for the engine or not (log 22). -/
def Obligations.BusyWriteIsDroppedAndLogged : Prop :=
  (∀ (s : State) (off : Nat) (v : Word) (rest : List HostTxn), s.busy = true → 0 < s.left → off % 4 = 0 → off < 256 →
    s.script = .regWrite off v :: rest →
    ∃ t, step s = .next t ∧
      t = { s with script := rest, left := s.left - 1, errlog := t.errlog } ∧
      ∀ j, t.errlog.getLsbD j = (s.errlog.getLsbD j || decide (j = 31))) ∧
  (∀ (s : State) (a : Word) (v : Byte) (rest : List HostTxn), s.busy = true → 0 < s.left → s.mem.wf = true →
    s.script = .memWrite a v :: rest → ¬OwnedSource s a.toNat → ¬OwnedDest s a.toNat →
    ∃ t, step s = .next t ∧ t = { s with script := rest, left := s.left - 1, mem := t.mem } ∧
      t.mem.read a.toNat = v ∧ ∀ b, b ≠ a.toNat → t.mem.read b = s.mem.read b) ∧
  (∀ (s : State) (a : Word) (v : Byte) (rest : List HostTxn), s.busy = true → 0 < s.left →
    s.script = .memWrite a v :: rest → OwnedSource s a.toNat ∨ OwnedDest s a.toNat →
    step s = .fault (.windowRace a.toNat)) ∧
  (∀ (s : State) (off : Nat) (v : Word) (rest : List HostTxn), s.busy = true → 0 < s.left → off % 4 ≠ 0 ∨ 256 ≤ off →
    s.script = .regWrite off v :: rest → step s = .refused (.registerAccess off))

/-- 70_reset_and_hazards.md R247, R251, 10_state.md R21, 20_memory.md R73: a read of ID, STATUS or IEN while BUSY = 1 is
exact; a read of an unmapped offset returns 0 (log 15); a read of any other register returns an unspecified value (it
holds for every value of the free draw, log 6); no read changes a register. A read of a byte of MEM outside the running command's destination window returns that byte, one inside an
unspecified value, at every address, backed for the engine or not (log 22). A register read at an offset that is no
whole register is refused (log 9). WAIT reads STATUS and stays (log 18); CHECK reads ERR, so an unspecified value, and goes on or ends the script (log 18). -/
def Obligations.BusyReadIsExactForIdStatusIen : Prop :=
  (∀ (s : State) (off : Nat) (rest : List HostTxn), s.busy = true → 0 < s.left → off % 4 = 0 → off < 256 →
    s.script = .regRead off :: rest →
    ∃ t, step s = .next t ∧ (off = 0x00 ∨ off = 0x08 ∨ off = 0x18 → t.hostData = readReg s off) ∧
      ((0x20 < off ∧ off < 0x40) ∨ (0x54 < off ∧ off < 0x80) ∨ (0xA8 < off ∧ off < 0xC0) ∨ 0xDC < off →
        t.hostData = 0 ∧ t.draws = s.draws) ∧
      t = { s with script := rest, left := s.left - 1, hostData := t.hostData, draws := t.draws }) ∧
  (∀ (s : State) (a : Word) (rest : List HostTxn), s.busy = true → 0 < s.left → s.script = .memRead a :: rest →
    ∃ t, step s = .next t ∧ (¬OwnedDest s a.toNat → t.hostData.toNat = (s.mem.read a.toNat).toNat) ∧
      t = { s with script := rest, left := s.left - 1, hostData := t.hostData, draws := t.draws }) ∧
  (∀ (s : State) (off : Nat) (rest : List HostTxn), s.busy = true → 0 < s.left → off % 4 ≠ 0 ∨ 256 ≤ off →
    s.script = .regRead off :: rest → step s = .refused (.registerAccess off)) ∧
  (∀ (s : State) (rest : List HostTxn), s.busy = true → 0 < s.left → s.script = .wait :: rest →
    step s = .next { s with left := s.left - 1, hostData := readReg s 0x08 }) ∧
  (∀ (s : State) (rest : List HostTxn), s.busy = true → 0 < s.left → s.script = .check :: rest →
    ∃ t, step s = .next t ∧ (t.hostData = 0 → t.script = rest) ∧ (t.hostData ≠ 0 → t.script = []) ∧
      t = { s with
        script := t.script, left := s.left - 1, hostData := t.hostData, draws := t.draws })

/-- 70_reset_and_hazards.md R240, R242: a hardware reset gives the same registers and tables as SRESET; it leaves MEM, but
that the destination window of a PACK or UNPACK it ends is unspecified. -/
def Obligations.HardResetLeavesMemory : Prop :=
  ∀ (s : State) (rest : List HostTxn), (s.busy = true → 0 < s.left) → s.script = .hardReset :: rest →
    ∃ t, step s = .next t ∧ readReg t 0x00 = 0x48554631 ∧ (∀ off, off ≠ 0 → readReg t off = 0) ∧
      (∀ i, i < 256 → t.freq.get i = 0 ∧ t.valid.get i = false) ∧ t.tkind = .none ∧ t.codeV = false ∧
      t.holes = s.holes ∧ t.script = rest ∧
      (s.busy = false → SameBytes s t) ∧
      (∀ a, inRunningDest s a = false → t.mem.read a = s.mem.read a)

/-- 60_exceptions.md R216: the level of IRQ, a function of IEN and IPEND; low at reset; raised at once where an enable
bit is set over a pending bit; pending bits are set whether or not they are enabled. -/
def Obligations.IrqLevel : Prop :=
  (∀ s : State, s.irq = true ↔
    (s.ien.getLsbD 0 = true ∧ s.ipend.getLsbD 0 = true) ∨ (s.ien.getLsbD 1 = true ∧ s.ipend.getLsbD 1 = true)) ∧
  State.reset.ien = 0 ∧ State.reset.ipend = 0 ∧ State.reset.irq = false ∧
  (∀ (s : State) (v : Word), (v.getLsbD 0 = true ∧ s.ipend.getLsbD 0 = true) ∨
    (v.getLsbD 1 = true ∧ s.ipend.getLsbD 1 = true) → (writeReg 0x18 v s).irq = true) ∧
  (∀ (i : Instr) (s t : State), i ≠ .sreset → exec i s = .next t →
    t.ipend.getLsbD 0 = true ∧ (t.err ≠ 0 → t.ipend.getLsbD 1 = true))
end

