-- ==== Sys2Proof/Laws/Bits.lean ====
section
/-! SUPPORT. Bits and bytes: packing and unpacking are inverse to each other. -/

namespace Sys2Proof.Machine

@[simp] theorem length_bits8 (b : Byte) : (bits8 b).length = 8 := rfl

@[simp] theorem byte8_bits8 (b : Byte) : byte8 (bits8 b) = b := by revert b; decide +kernel

theorem bits8_byte8 : ∀ b7 b6 b5 b4 b3 b2 b1 b0 : Bool,
    bits8 (byte8 [b7, b6, b5, b4, b3, b2, b1, b0]) = [b7, b6, b5, b4, b3, b2, b1, b0] := by decide +kernel

/-- Position j of a byte's bit-string is bit 7 - j of the byte (00_scope.md R7). -/
theorem getElem_bits8 (b : Byte) (j : Nat) (h : j < (bits8 b).length) : (bits8 b)[j] = b.getLsbD (7 - j) := by
  have h8 : j < 8 := h
  match j, h8 with
  | 0, _ | 1, _ | 2, _ | 3, _ | 4, _ | 5, _ | 6, _ | 7, _ => rfl

@[simp] theorem length_unpackBits (bytes : List Byte) : (unpackBits bytes).length = 8 * bytes.length := by
  induction bytes with
  | nil => rfl
  | cons b bs ih =>
    simp only [unpackBits, List.flatMap_cons, List.length_append, length_bits8, List.length_cons] at ih ⊢
    omega

/-- Bit p of unpacked bytes is bit 7 - (p mod 8) of byte p div 8 (20_memory.md R64). -/
theorem getElem_unpackBits (bytes : List Byte) (p : Nat) (h : p < (unpackBits bytes).length)
    (h' : p / 8 < bytes.length) : (unpackBits bytes)[p] = (bytes[p / 8]).getLsbD (7 - p % 8) := by
  induction bytes generalizing p with
  | nil => simp at h'
  | cons b bs ih =>
    by_cases hp : p < 8
    · have h0 : p / 8 = 0 := by omega
      have hm : p % 8 = p := by omega
      simp only [unpackBits, List.flatMap_cons, h0, hm, List.getElem_cons_zero]
      rw [List.getElem_append_left (by simpa using hp)]
      exact getElem_bits8 b p _
    · obtain ⟨q, rfl⟩ : ∃ q, p = q + 8 := ⟨p - 8, by omega⟩
      have hq : (q + 8) / 8 = q / 8 + 1 := by omega
      have hm : (q + 8) % 8 = q % 8 := by omega
      simp only [length_unpackBits, List.length_cons] at h
      simp only [List.length_cons, hq] at h'
      simp only [hq, hm, List.getElem_cons_succ]
      simp only [unpackBits, List.flatMap_cons]
      rw [List.getElem_append_right (by simp)]
      simp only [length_bits8, Nat.add_sub_cancel]
      exact ih q (by simp; omega) (by omega)

@[simp] theorem packBytes_unpackBits (bytes : List Byte) : packBytes (unpackBits bytes) = bytes := by
  induction bytes with
  | nil => rfl
  | cons b bs ih =>
    have : packBytes (unpackBits (b :: bs)) = byte8 (bits8 b) :: packBytes (unpackBits bs) := rfl
    rw [this, ih, byte8_bits8]

/-- A bit-string of whole bytes is what unpacking its bytes gives. -/
theorem unpackBits_packBytes : ∀ (n : Nat) (bits : List Bool), bits.length = 8 * n →
    unpackBits (packBytes bits) = bits ∧ (packBytes bits).length = n
  | 0, bits, h => by
    have : bits = [] := List.length_eq_zero_iff.mp h
    subst this
    exact ⟨rfl, rfl⟩
  | n + 1, bits, h => by
    match bits, h with
    | b7 :: b6 :: b5 :: b4 :: b3 :: b2 :: b1 :: b0 :: rest, h =>
      have hr : rest.length = 8 * n := by simp only [List.length_cons] at h; omega
      obtain ⟨h1, h2⟩ := unpackBits_packBytes n rest hr
      have : unpackBits (packBytes (b7 :: b6 :: b5 :: b4 :: b3 :: b2 :: b1 :: b0 :: rest)) =
          bits8 (byte8 [b7, b6, b5, b4, b3, b2, b1, b0]) ++ unpackBits (packBytes rest) := rfl
      refine ⟨by rw [this, bits8_byte8, h1]; rfl, ?_⟩
      simp only [packBytes, List.length_cons, h2]

end Sys2Proof.Machine
end

