-- ==== Sys2Proof/Laws/State.lean ====
section
/-! SUPPORT. Each named update of State, field by field, so that no proof unfolds a record update. -/

namespace Sys2Proof.Machine

/-! ### complete() (40_control.md R113) -/

@[simp] theorem complete_busy (s : State) : (complete s).busy = false := rfl
@[simp] theorem complete_codeV (s : State) : (complete s).codeV = s.codeV := rfl
@[simp] theorem complete_tkind (s : State) : (complete s).tkind = s.tkind := rfl
@[simp] theorem complete_err (s : State) : (complete s).err = 0 := rfl
@[simp] theorem complete_errinfo (s : State) : (complete s).errinfo = 0 := rfl
@[simp] theorem complete_errlog (s : State) : (complete s).errlog = s.errlog := rfl
@[simp] theorem complete_ien (s : State) : (complete s).ien = s.ien := rfl
@[simp] theorem complete_ipend (s : State) : (complete s).ipend = setDone s.ipend := rfl
@[simp] theorem complete_cmdcnt (s : State) : (complete s).cmdcnt = s.cmdcnt + 1 := rfl
@[simp] theorem complete_src (s : State) : (complete s).src = s.src := rfl
@[simp] theorem complete_len (s : State) : (complete s).len = s.len := rfl
@[simp] theorem complete_dst (s : State) : (complete s).dst = s.dst := rfl
@[simp] theorem complete_dcap (s : State) : (complete s).dcap = s.dcap := rfl
@[simp] theorem complete_arg (s : State) : (complete s).arg = s.arg := rfl
@[simp] theorem complete_padin (s : State) : (complete s).padin = s.padin := rfl
@[simp] theorem complete_res0 (s : State) : (complete s).res0 = s.res0 := rfl
@[simp] theorem complete_res1 (s : State) : (complete s).res1 = s.res1 := rfl
@[simp] theorem complete_res2 (s : State) : (complete s).res2 = s.res2 := rfl
@[simp] theorem complete_outlen (s : State) : (complete s).outlen = s.outlen := rfl
@[simp] theorem complete_pad (s : State) : (complete s).pad = s.pad := rfl
@[simp] theorem complete_bitlenLo (s : State) : (complete s).bitlenLo = s.bitlenLo := rfl
@[simp] theorem complete_bitlenHi (s : State) : (complete s).bitlenHi = s.bitlenHi := rfl
@[simp] theorem complete_nent (s : State) : (complete s).nent = s.nent := rfl
@[simp] theorem complete_ent (s : State) : (complete s).ent = s.ent := rfl
@[simp] theorem complete_root (s : State) : (complete s).root = s.root := rfl
@[simp] theorem complete_nnode (s : State) : (complete s).nnode = s.nnode := rfl
@[simp] theorem complete_codew (s : State) : (complete s).codew = s.codew := rfl
@[simp] theorem complete_freq (s : State) : (complete s).freq = s.freq := rfl
@[simp] theorem complete_valid (s : State) : (complete s).valid = s.valid := rfl
@[simp] theorem complete_node (s : State) : (complete s).node = s.node := rfl
@[simp] theorem complete_code (s : State) : (complete s).code = s.code := rfl
@[simp] theorem complete_latched (s : State) : (complete s).latched = s.latched := rfl
@[simp] theorem complete_mem (s : State) : (complete s).mem = s.mem := rfl
@[simp] theorem complete_holes (s : State) : (complete s).holes = s.holes := rfl
@[simp] theorem complete_script (s : State) : (complete s).script = s.script := rfl
@[simp] theorem complete_hostData (s : State) : (complete s).hostData = s.hostData := rfl
@[simp] theorem complete_delays (s : State) : (complete s).delays = s.delays := rfl
@[simp] theorem complete_left (s : State) : (complete s).left = s.left := rfl
@[simp] theorem complete_draws (s : State) : (complete s).draws = s.draws := rfl

/-! ### raise E(info) (60_exceptions.md R200) -/

@[simp] theorem raise_busy (e : ErrCode) (info : Nat) (s : State) : (raise e info s).busy = false := rfl
@[simp] theorem raise_codeV (e : ErrCode) (info : Nat) (s : State) : (raise e info s).codeV = s.codeV := rfl
@[simp] theorem raise_tkind (e : ErrCode) (info : Nat) (s : State) : (raise e info s).tkind = s.tkind := rfl
@[simp] theorem raise_err (e : ErrCode) (info : Nat) (s : State) : (raise e info s).err = BitVec.ofNat 32 e.code := rfl
@[simp] theorem raise_errinfo (e : ErrCode) (info : Nat) (s : State) : (raise e info s).errinfo = BitVec.ofNat 32 (min info Config.wordMax) := rfl
@[simp] theorem raise_errlog (e : ErrCode) (info : Nat) (s : State) : (raise e info s).errlog = logBit s.errlog e.code := rfl
@[simp] theorem raise_ien (e : ErrCode) (info : Nat) (s : State) : (raise e info s).ien = s.ien := rfl
@[simp] theorem raise_ipend (e : ErrCode) (info : Nat) (s : State) : (raise e info s).ipend = setErrp (setDone s.ipend) := rfl
@[simp] theorem raise_cmdcnt (e : ErrCode) (info : Nat) (s : State) : (raise e info s).cmdcnt = s.cmdcnt + 1 := rfl
@[simp] theorem raise_src (e : ErrCode) (info : Nat) (s : State) : (raise e info s).src = s.src := rfl
@[simp] theorem raise_len (e : ErrCode) (info : Nat) (s : State) : (raise e info s).len = s.len := rfl
@[simp] theorem raise_dst (e : ErrCode) (info : Nat) (s : State) : (raise e info s).dst = s.dst := rfl
@[simp] theorem raise_dcap (e : ErrCode) (info : Nat) (s : State) : (raise e info s).dcap = s.dcap := rfl
@[simp] theorem raise_arg (e : ErrCode) (info : Nat) (s : State) : (raise e info s).arg = s.arg := rfl
@[simp] theorem raise_padin (e : ErrCode) (info : Nat) (s : State) : (raise e info s).padin = s.padin := rfl
@[simp] theorem raise_res0 (e : ErrCode) (info : Nat) (s : State) : (raise e info s).res0 = s.res0 := rfl
@[simp] theorem raise_res1 (e : ErrCode) (info : Nat) (s : State) : (raise e info s).res1 = s.res1 := rfl
@[simp] theorem raise_res2 (e : ErrCode) (info : Nat) (s : State) : (raise e info s).res2 = s.res2 := rfl
@[simp] theorem raise_outlen (e : ErrCode) (info : Nat) (s : State) : (raise e info s).outlen = s.outlen := rfl
@[simp] theorem raise_pad (e : ErrCode) (info : Nat) (s : State) : (raise e info s).pad = s.pad := rfl
@[simp] theorem raise_bitlenLo (e : ErrCode) (info : Nat) (s : State) : (raise e info s).bitlenLo = s.bitlenLo := rfl
@[simp] theorem raise_bitlenHi (e : ErrCode) (info : Nat) (s : State) : (raise e info s).bitlenHi = s.bitlenHi := rfl
@[simp] theorem raise_nent (e : ErrCode) (info : Nat) (s : State) : (raise e info s).nent = s.nent := rfl
@[simp] theorem raise_ent (e : ErrCode) (info : Nat) (s : State) : (raise e info s).ent = s.ent := rfl
@[simp] theorem raise_root (e : ErrCode) (info : Nat) (s : State) : (raise e info s).root = s.root := rfl
@[simp] theorem raise_nnode (e : ErrCode) (info : Nat) (s : State) : (raise e info s).nnode = s.nnode := rfl
@[simp] theorem raise_codew (e : ErrCode) (info : Nat) (s : State) : (raise e info s).codew = s.codew := rfl
@[simp] theorem raise_freq (e : ErrCode) (info : Nat) (s : State) : (raise e info s).freq = s.freq := rfl
@[simp] theorem raise_valid (e : ErrCode) (info : Nat) (s : State) : (raise e info s).valid = s.valid := rfl
@[simp] theorem raise_node (e : ErrCode) (info : Nat) (s : State) : (raise e info s).node = s.node := rfl
@[simp] theorem raise_code (e : ErrCode) (info : Nat) (s : State) : (raise e info s).code = s.code := rfl
@[simp] theorem raise_latched (e : ErrCode) (info : Nat) (s : State) : (raise e info s).latched = s.latched := rfl
@[simp] theorem raise_mem (e : ErrCode) (info : Nat) (s : State) : (raise e info s).mem = s.mem := rfl
@[simp] theorem raise_holes (e : ErrCode) (info : Nat) (s : State) : (raise e info s).holes = s.holes := rfl
@[simp] theorem raise_script (e : ErrCode) (info : Nat) (s : State) : (raise e info s).script = s.script := rfl
@[simp] theorem raise_hostData (e : ErrCode) (info : Nat) (s : State) : (raise e info s).hostData = s.hostData := rfl
@[simp] theorem raise_delays (e : ErrCode) (info : Nat) (s : State) : (raise e info s).delays = s.delays := rfl
@[simp] theorem raise_left (e : ErrCode) (info : Nat) (s : State) : (raise e info s).left = s.left := rfl
@[simp] theorem raise_draws (e : ErrCode) (info : Nat) (s : State) : (raise e info s).draws = s.draws := rfl

/-! ### invalidate() (10_state.md R58) -/

@[simp] theorem invalidate_busy (s : State) : (invalidate s).busy = s.busy := rfl
@[simp] theorem invalidate_codeV (s : State) : (invalidate s).codeV = false := rfl
@[simp] theorem invalidate_tkind (s : State) : (invalidate s).tkind = .none := rfl
@[simp] theorem invalidate_err (s : State) : (invalidate s).err = s.err := rfl
@[simp] theorem invalidate_errinfo (s : State) : (invalidate s).errinfo = s.errinfo := rfl
@[simp] theorem invalidate_errlog (s : State) : (invalidate s).errlog = s.errlog := rfl
@[simp] theorem invalidate_ien (s : State) : (invalidate s).ien = s.ien := rfl
@[simp] theorem invalidate_ipend (s : State) : (invalidate s).ipend = s.ipend := rfl
@[simp] theorem invalidate_cmdcnt (s : State) : (invalidate s).cmdcnt = s.cmdcnt := rfl
@[simp] theorem invalidate_src (s : State) : (invalidate s).src = s.src := rfl
@[simp] theorem invalidate_len (s : State) : (invalidate s).len = s.len := rfl
@[simp] theorem invalidate_dst (s : State) : (invalidate s).dst = s.dst := rfl
@[simp] theorem invalidate_dcap (s : State) : (invalidate s).dcap = s.dcap := rfl
@[simp] theorem invalidate_arg (s : State) : (invalidate s).arg = s.arg := rfl
@[simp] theorem invalidate_padin (s : State) : (invalidate s).padin = s.padin := rfl
@[simp] theorem invalidate_res0 (s : State) : (invalidate s).res0 = s.res0 := rfl
@[simp] theorem invalidate_res1 (s : State) : (invalidate s).res1 = s.res1 := rfl
@[simp] theorem invalidate_res2 (s : State) : (invalidate s).res2 = s.res2 := rfl
@[simp] theorem invalidate_outlen (s : State) : (invalidate s).outlen = s.outlen := rfl
@[simp] theorem invalidate_pad (s : State) : (invalidate s).pad = s.pad := rfl
@[simp] theorem invalidate_bitlenLo (s : State) : (invalidate s).bitlenLo = s.bitlenLo := rfl
@[simp] theorem invalidate_bitlenHi (s : State) : (invalidate s).bitlenHi = s.bitlenHi := rfl
@[simp] theorem invalidate_nent (s : State) : (invalidate s).nent = s.nent := rfl
@[simp] theorem invalidate_ent (s : State) : (invalidate s).ent = s.ent := rfl
@[simp] theorem invalidate_root (s : State) : (invalidate s).root = 0 := rfl
@[simp] theorem invalidate_nnode (s : State) : (invalidate s).nnode = 0 := rfl
@[simp] theorem invalidate_codew (s : State) : (invalidate s).codew = s.codew := rfl
@[simp] theorem invalidate_freq (s : State) : (invalidate s).freq = s.freq := rfl
@[simp] theorem invalidate_valid (s : State) : (invalidate s).valid = s.valid := rfl
@[simp] theorem invalidate_node (s : State) : (invalidate s).node = s.node := rfl
@[simp] theorem invalidate_code (s : State) : (invalidate s).code = s.code := rfl
@[simp] theorem invalidate_latched (s : State) : (invalidate s).latched = s.latched := rfl
@[simp] theorem invalidate_mem (s : State) : (invalidate s).mem = s.mem := rfl
@[simp] theorem invalidate_holes (s : State) : (invalidate s).holes = s.holes := rfl
@[simp] theorem invalidate_script (s : State) : (invalidate s).script = s.script := rfl
@[simp] theorem invalidate_hostData (s : State) : (invalidate s).hostData = s.hostData := rfl
@[simp] theorem invalidate_delays (s : State) : (invalidate s).delays = s.delays := rfl
@[simp] theorem invalidate_left (s : State) : (invalidate s).left = s.left := rfl
@[simp] theorem invalidate_draws (s : State) : (invalidate s).draws = s.draws := rfl

/-! ### reset (10_state.md R59) -/

@[simp] theorem blockReset_busy (s : State) : (blockReset s).busy = State.reset.busy := rfl
@[simp] theorem blockReset_codeV (s : State) : (blockReset s).codeV = State.reset.codeV := rfl
@[simp] theorem blockReset_tkind (s : State) : (blockReset s).tkind = State.reset.tkind := rfl
@[simp] theorem blockReset_err (s : State) : (blockReset s).err = State.reset.err := rfl
@[simp] theorem blockReset_errinfo (s : State) : (blockReset s).errinfo = State.reset.errinfo := rfl
@[simp] theorem blockReset_errlog (s : State) : (blockReset s).errlog = State.reset.errlog := rfl
@[simp] theorem blockReset_ien (s : State) : (blockReset s).ien = State.reset.ien := rfl
@[simp] theorem blockReset_ipend (s : State) : (blockReset s).ipend = State.reset.ipend := rfl
@[simp] theorem blockReset_cmdcnt (s : State) : (blockReset s).cmdcnt = State.reset.cmdcnt := rfl
@[simp] theorem blockReset_src (s : State) : (blockReset s).src = State.reset.src := rfl
@[simp] theorem blockReset_len (s : State) : (blockReset s).len = State.reset.len := rfl
@[simp] theorem blockReset_dst (s : State) : (blockReset s).dst = State.reset.dst := rfl
@[simp] theorem blockReset_dcap (s : State) : (blockReset s).dcap = State.reset.dcap := rfl
@[simp] theorem blockReset_arg (s : State) : (blockReset s).arg = State.reset.arg := rfl
@[simp] theorem blockReset_padin (s : State) : (blockReset s).padin = State.reset.padin := rfl
@[simp] theorem blockReset_res0 (s : State) : (blockReset s).res0 = State.reset.res0 := rfl
@[simp] theorem blockReset_res1 (s : State) : (blockReset s).res1 = State.reset.res1 := rfl
@[simp] theorem blockReset_res2 (s : State) : (blockReset s).res2 = State.reset.res2 := rfl
@[simp] theorem blockReset_outlen (s : State) : (blockReset s).outlen = State.reset.outlen := rfl
@[simp] theorem blockReset_pad (s : State) : (blockReset s).pad = State.reset.pad := rfl
@[simp] theorem blockReset_bitlenLo (s : State) : (blockReset s).bitlenLo = State.reset.bitlenLo := rfl
@[simp] theorem blockReset_bitlenHi (s : State) : (blockReset s).bitlenHi = State.reset.bitlenHi := rfl
@[simp] theorem blockReset_nent (s : State) : (blockReset s).nent = State.reset.nent := rfl
@[simp] theorem blockReset_ent (s : State) : (blockReset s).ent = State.reset.ent := rfl
@[simp] theorem blockReset_root (s : State) : (blockReset s).root = State.reset.root := rfl
@[simp] theorem blockReset_nnode (s : State) : (blockReset s).nnode = State.reset.nnode := rfl
@[simp] theorem blockReset_codew (s : State) : (blockReset s).codew = State.reset.codew := rfl
@[simp] theorem blockReset_freq (s : State) : (blockReset s).freq = State.reset.freq := rfl
@[simp] theorem blockReset_valid (s : State) : (blockReset s).valid = State.reset.valid := rfl
@[simp] theorem blockReset_node (s : State) : (blockReset s).node = State.reset.node := rfl
@[simp] theorem blockReset_code (s : State) : (blockReset s).code = State.reset.code := rfl
@[simp] theorem blockReset_latched (s : State) : (blockReset s).latched = State.reset.latched := rfl
@[simp] theorem blockReset_mem (s : State) : (blockReset s).mem = s.mem := rfl
@[simp] theorem blockReset_holes (s : State) : (blockReset s).holes = s.holes := rfl
@[simp] theorem blockReset_script (s : State) : (blockReset s).script = s.script := rfl
@[simp] theorem blockReset_hostData (s : State) : (blockReset s).hostData = s.hostData := rfl
@[simp] theorem blockReset_delays (s : State) : (blockReset s).delays = s.delays := rfl
@[simp] theorem blockReset_left (s : State) : (blockReset s).left = State.reset.left := rfl
@[simp] theorem blockReset_draws (s : State) : (blockReset s).draws = s.draws := rfl

/-! ### acceptance (40_control.md R112) -/

@[simp] theorem accept_busy (w : Word) (s : State) : (accept w s).busy = true := rfl
@[simp] theorem accept_codeV (w : Word) (s : State) : (accept w s).codeV = s.codeV := rfl
@[simp] theorem accept_tkind (w : Word) (s : State) : (accept w s).tkind = s.tkind := rfl
@[simp] theorem accept_err (w : Word) (s : State) : (accept w s).err = s.err := rfl
@[simp] theorem accept_errinfo (w : Word) (s : State) : (accept w s).errinfo = s.errinfo := rfl
@[simp] theorem accept_errlog (w : Word) (s : State) : (accept w s).errlog = s.errlog := rfl
@[simp] theorem accept_ien (w : Word) (s : State) : (accept w s).ien = s.ien := rfl
@[simp] theorem accept_ipend (w : Word) (s : State) : (accept w s).ipend = s.ipend := rfl
@[simp] theorem accept_cmdcnt (w : Word) (s : State) : (accept w s).cmdcnt = s.cmdcnt := rfl
@[simp] theorem accept_src (w : Word) (s : State) : (accept w s).src = s.src := rfl
@[simp] theorem accept_len (w : Word) (s : State) : (accept w s).len = s.len := rfl
@[simp] theorem accept_dst (w : Word) (s : State) : (accept w s).dst = s.dst := rfl
@[simp] theorem accept_dcap (w : Word) (s : State) : (accept w s).dcap = s.dcap := rfl
@[simp] theorem accept_arg (w : Word) (s : State) : (accept w s).arg = s.arg := rfl
@[simp] theorem accept_padin (w : Word) (s : State) : (accept w s).padin = s.padin := rfl
@[simp] theorem accept_res0 (w : Word) (s : State) : (accept w s).res0 = s.res0 := rfl
@[simp] theorem accept_res1 (w : Word) (s : State) : (accept w s).res1 = s.res1 := rfl
@[simp] theorem accept_res2 (w : Word) (s : State) : (accept w s).res2 = s.res2 := rfl
@[simp] theorem accept_outlen (w : Word) (s : State) : (accept w s).outlen = s.outlen := rfl
@[simp] theorem accept_pad (w : Word) (s : State) : (accept w s).pad = s.pad := rfl
@[simp] theorem accept_bitlenLo (w : Word) (s : State) : (accept w s).bitlenLo = s.bitlenLo := rfl
@[simp] theorem accept_bitlenHi (w : Word) (s : State) : (accept w s).bitlenHi = s.bitlenHi := rfl
@[simp] theorem accept_nent (w : Word) (s : State) : (accept w s).nent = s.nent := rfl
@[simp] theorem accept_ent (w : Word) (s : State) : (accept w s).ent = s.ent := rfl
@[simp] theorem accept_root (w : Word) (s : State) : (accept w s).root = s.root := rfl
@[simp] theorem accept_nnode (w : Word) (s : State) : (accept w s).nnode = s.nnode := rfl
@[simp] theorem accept_codew (w : Word) (s : State) : (accept w s).codew = s.codew := rfl
@[simp] theorem accept_freq (w : Word) (s : State) : (accept w s).freq = s.freq := rfl
@[simp] theorem accept_valid (w : Word) (s : State) : (accept w s).valid = s.valid := rfl
@[simp] theorem accept_node (w : Word) (s : State) : (accept w s).node = s.node := rfl
@[simp] theorem accept_code (w : Word) (s : State) : (accept w s).code = s.code := rfl
@[simp] theorem accept_latched (w : Word) (s : State) : (accept w s).latched = latch w s := rfl
@[simp] theorem accept_mem (w : Word) (s : State) : (accept w s).mem = s.mem := rfl
@[simp] theorem accept_holes (w : Word) (s : State) : (accept w s).holes = s.holes := rfl
@[simp] theorem accept_script (w : Word) (s : State) : (accept w s).script = s.script := rfl
@[simp] theorem accept_hostData (w : Word) (s : State) : (accept w s).hostData = s.hostData := rfl
@[simp] theorem accept_delays (w : Word) (s : State) : (accept w s).delays = s.delays.tail := rfl
@[simp] theorem accept_left (w : Word) (s : State) : (accept w s).left = s.delays.headD 0 := rfl
@[simp] theorem accept_draws (w : Word) (s : State) : (accept w s).draws = s.draws := rfl

end Sys2Proof.Machine
end

