-- ==== Sys2Proof/Laws/Windows.lean ====
section
/-! SUPPORT. What CheckWindows can answer (20_memory.md R68 to R71). -/

namespace Sys2Proof.Machine

/-- `firstUnbacked` finds no address exactly when the platform backs the whole window. -/
theorem firstUnbacked_eq_none {holes : List Hole} {base size : Nat} :
    firstUnbacked holes base size = none ↔ ∀ a, base ≤ a → a < base + size → memOk holes a = true := by
  induction holes with
  | nil => simp [firstUnbacked, memOk]
  | cons h rest ih =>
    simp only [firstUnbacked]
    split
    · next hlt =>
      constructor
      · intro hn
        split at hn <;> cases hn
      · intro hall
        have := hall (max base h.base) (by omega) (by omega)
        simp [memOk, inWindow] at this
        omega
    · next hge =>
      rw [ih]
      constructor
      · intro hall a h1 h2
        have := hall a h1 h2
        simp only [memOk, List.any_cons, Bool.not_or, Bool.and_eq_true] at this ⊢
        refine ⟨?_, this⟩
        simp [inWindow]
        omega
      · intro hall a h1 h2
        have := hall a h1 h2
        simp only [memOk, List.any_cons, Bool.not_or, Bool.and_eq_true] at this
        exact this.2

/-- What `firstUnbacked` finds is the lowest address of the window the platform does not back. -/
theorem firstUnbacked_eq_some {holes : List Hole} {base size a : Nat} (h : firstUnbacked holes base size = some a) :
    LowestUnbacked holes base size a := by
  induction holes generalizing a with
  | nil => simp [firstUnbacked] at h
  | cons hole rest ih =>
    simp only [firstUnbacked] at h
    split at h
    · next hlt =>
      cases hrest : firstUnbacked rest base size with
      | none =>
        rw [hrest] at h
        cases h
        rw [firstUnbacked_eq_none] at hrest
        refine ⟨by omega, by omega, by simp [memOk, inWindow]; omega, fun b h1 h2 => ?_⟩
        have := hrest b h1 (by omega)
        simp only [memOk, List.any_cons, Bool.not_or, Bool.and_eq_true] at this ⊢
        exact ⟨by simp [inWindow]; omega, this⟩
      | some c =>
        rw [hrest] at h
        cases h
        have hc := ih hrest
        have hl := hc.lower
        have hu := hc.upper
        refine ⟨by omega, by omega, ?_, fun b h1 h2 => ?_⟩
        · by_cases hle : max base hole.base ≤ c
          · rw [min_eq_left hle]
            simp [memOk, inWindow]
            omega
          · rw [min_eq_right (by omega)]
            have := hc.unbacked
            simp only [memOk, List.any_cons, Bool.not_or, Bool.and_eq_false_iff] at this ⊢
            exact Or.inr this
        · have := hc.lowest b h1 (by omega)
          simp only [memOk, List.any_cons, Bool.not_or, Bool.and_eq_true] at this ⊢
          exact ⟨by simp [inWindow]; omega, this⟩
    · next hge =>
      have hc := ih h
      have hl := hc.lower
      have hu := hc.upper
      refine ⟨hl, hu, ?_, fun b h1 h2 => ?_⟩
      · have := hc.unbacked
        simp only [memOk, List.any_cons, Bool.not_or, Bool.and_eq_false_iff] at this ⊢
        exact Or.inr this
      · have := hc.lowest b h1 h2
        simp only [memOk, List.any_cons, Bool.not_or, Bool.and_eq_true] at this ⊢
        exact ⟨by simp [inWindow]; omega, this⟩

theorem LowestUnbacked.unique {holes : List Hole} {base size a b : Nat} (ha : LowestUnbacked holes base size a)
    (hb : LowestUnbacked holes base size b) : a = b := by
  rcases Nat.lt_trichotomy a b with h | h | h
  · have := hb.lowest a ha.lower h
    rw [ha.unbacked] at this
    cases this
  · exact h
  · have := ha.lowest b hb.lower h
    rw [hb.unbacked] at this
    cases this

/-- A command without a destination window passes CheckWindows exactly when its source window is ready. -/
theorem checkWindows_source_none {s : State} : checkWindows s false = none ↔ SourceReady s := by
  unfold checkWindows
  by_cases h1 : s.latched.src.toNat + s.latched.len.toNat > Config.memBytes
  · simp only [h1, if_true, reduceCtorEq, false_iff]
    intro h
    have := h.inMem
    simp only [Config.memBytes] at h1
    omega
  · simp only [h1, if_false, Bool.false_eq_true, false_and]
    have h1' : s.latched.src.toNat + s.latched.len.toNat ≤ 4294967296 := by
      simpa [Config.memBytes] using h1
    constructor
    · intro h
      cases h2 : firstUnbacked s.holes s.latched.src.toNat s.latched.len.toNat with
      | none => exact ⟨h1', firstUnbacked_eq_none.mp h2⟩
      | some a => rw [h2] at h; cases h
    · intro h
      rw [firstUnbacked_eq_none.mpr h.backed]

/-- A command with both windows passes CheckWindows exactly when both are ready. -/
theorem checkWindows_both_none {s : State} : checkWindows s true = none ↔ SourceReady s ∧ DestReady s := by
  unfold checkWindows
  by_cases h1 : s.latched.src.toNat + s.latched.len.toNat > Config.memBytes
  · simp only [h1, if_true, reduceCtorEq, false_iff]
    rintro ⟨h, -⟩
    have := h.inMem
    simp only [Config.memBytes] at h1
    omega
  simp only [h1, if_false, true_and, if_true]
  simp only [Config.memBytes, gt_iff_lt, not_lt] at h1
  by_cases h2 : s.latched.dst.toNat + s.latched.dcap.toNat > Config.memBytes
  · simp only [h2, if_true, reduceCtorEq, false_iff]
    rintro ⟨-, h⟩
    have := h.inMem
    simp only [Config.memBytes] at h2
    omega
  simp only [h2, if_false]
  simp only [Config.memBytes, gt_iff_lt, not_lt] at h2
  split
  · next h3 =>
    simp only [reduceCtorEq, false_iff]
    rintro ⟨-, h⟩
    exact h.apart (max s.latched.src.toNat s.latched.dst.toNat) (by omega)
  · next h3 =>
    constructor
    · intro h
      cases h4 : firstUnbacked s.holes s.latched.src.toNat s.latched.len.toNat with
      | some a => rw [h4] at h; cases h
      | none =>
        rw [h4] at h
        simp only [Option.map_eq_none_iff] at h
        exact ⟨⟨h1, firstUnbacked_eq_none.mp h4⟩, ⟨h2, fun a => by omega, firstUnbacked_eq_none.mp h⟩⟩
    · rintro ⟨hs, hd⟩
      rw [firstUnbacked_eq_none.mpr hs.backed]
      simp only [firstUnbacked_eq_none.mpr hd.backed, Option.map_none]

/-- The errors CheckWindows can answer, and what holds where it answers each. -/
theorem checkWindows_some {s : State} {hasDst : Bool} {e : ErrCode} {info : Nat}
    (h : checkWindows s hasDst = some (e, info)) :
    (e = .addr ∧ info = 0 ∧ 4294967296 < s.latched.src.toNat + s.latched.len.toNat) ∨
      (e = .addr ∧ info = 1 ∧ hasDst = true ∧ s.latched.src.toNat + s.latched.len.toNat ≤ 4294967296 ∧
        4294967296 < s.latched.dst.toNat + s.latched.dcap.toNat) ∨
      (e = .overlap ∧ info = 0 ∧ hasDst = true ∧ 0 < s.latched.len.toNat ∧ 0 < s.latched.dcap.toNat ∧
        s.latched.src.toNat < s.latched.dst.toNat + s.latched.dcap.toNat ∧
        s.latched.dst.toNat < s.latched.src.toNat + s.latched.len.toNat) ∨
      (e = .bus ∧ LowestUnbacked s.holes s.latched.src.toNat s.latched.len.toNat info) ∨
      (e = .bus ∧ hasDst = true ∧ SourceReady s ∧
        LowestUnbacked s.holes s.latched.dst.toNat s.latched.dcap.toNat info) := by
  simp only [checkWindows] at h
  split at h
  · next h1 => cases h; exact .inl ⟨rfl, rfl, h1⟩
  · next h1 =>
    have h1 := Nat.le_of_not_lt h1
    split at h
    · next h2 => cases h; exact .inr (.inl ⟨rfl, rfl, h2.1, h1, h2.2⟩)
    · split at h
      · next h3 => cases h; exact .inr (.inr (.inl ⟨rfl, rfl, h3.1, h3.2⟩))
      · split at h
        · next h4 => cases h; exact .inr (.inr (.inr (.inl ⟨rfl, firstUnbacked_eq_some h4⟩)))
        · next h4 =>
          split at h
          · next hd =>
            cases h5 : firstUnbacked s.holes s.latched.dst.toNat s.latched.dcap.toNat with
            | none => rw [h5] at h; cases h
            | some a =>
              rw [h5] at h
              cases h
              exact .inr (.inr (.inr (.inr
                ⟨rfl, hd, ⟨h1, firstUnbacked_eq_none.mp h4⟩, firstUnbacked_eq_some h5⟩)))
          · cases h

end Sys2Proof.Machine
end

