-- ==== Sys2Proof/Laws/Exec.lean ====
section
/-! SUPPORT. For each command with more than one way to complete, each way and when it is taken; for a step, every
way it answers a next state. Later proofs cite these and unfold no meaning. -/

namespace Sys2Proof.Machine

/-! ### The two ways a command completes -/

/-- `raise` writes the fault record and nothing else. -/
theorem raise_faultedWith (e : ErrCode) (info : Nat) (s : State) : FaultedWith e.code info s (raise e info s) where
  err := by cases e <;> rfl
  errinfo := by
    simp only [raise, Config.wordMax, BitVec.toNat_ofNat]
    exact Nat.mod_eq_of_lt (by omega)
  errlog j := by
    simp only [raise, logBit, BitVec.getLsbD_or, BitVec.getLsbD_twoPow]
    congr 1
    have : e.code < 32 := by cases e <;> decide
    by_cases h : j = e.code
    · simp [h, this]
    · have h' : ¬e.code = j := fun hh => h hh.symm
      simp [h, h']
  ipend := by
    have : ∀ p : BitVec 2, setErrp (setDone p) = 3 := by decide
    exact this s.ipend
  cmdcnt := by simp [raise]
  busy := rfl
  operands := by constructor <;> rfl
  table := by constructor <;> rfl
  tree := by constructor <;> rfl
  codes := by constructor <;> rfl
  res := by constructor <;> rfl
  outlen := rfl
  packLength := by constructor <;> rfl
  ent := rfl
  codew := rfl
  mem := rfl
  rest := by constructor <;> rfl

/-- `complete` of a state with the same log, pending bits and count writes the completion record. -/
theorem complete_completedOk {s u : State} (hl : u.errlog = s.errlog) (hp : u.ipend = s.ipend)
    (hc : u.cmdcnt = s.cmdcnt) : CompletedOk s (complete u) where
  err := rfl
  errinfo := rfl
  errlog := hl
  ipend := by rw [← hp]; rfl
  cmdcnt := by rw [← hc]; simp [complete]
  busy := rfl

/-! ### Commands with windows -/

theorem execCount_inv {s t : State} (h : execCount s = .next t) :
    (∃ e info, checkWindows s false = some (e, info) ∧ t = raise e info s) ∨
    (SourceReady s ∧ t = complete (invalidate { s with
      freq := countBytes (sourceBytes s)
      valid := markBytes (sourceBytes s)
      nent := BitVec.ofNat 9 (entryCount (markBytes (sourceBytes s))) })) := by
  unfold execCount at h
  split at h <;> cases h
  · exact .inl ⟨_, _, ‹_›, rfl⟩
  · exact .inr ⟨checkWindows_source_none.mp ‹_›, rfl⟩

theorem execCount_ready {s : State} (h : SourceReady s) :
    execCount s = .next (complete (invalidate { s with
      freq := countBytes (sourceBytes s)
      valid := markBytes (sourceBytes s)
      nent := BitVec.ofNat 9 (entryCount (markBytes (sourceBytes s))) })) := by
  simp only [execCount, checkWindows_source_none.mpr h]

theorem execEntropy_inv {s t : State} (h : execEntropy s = .next t) :
    (s.latched.len = 0 ∧ t = raise .empty 0 s) ∨
    (s.latched.len ≠ 0 ∧ ∃ e info, checkWindows s false = some (e, info) ∧ t = raise e info s) ∨
    (s.latched.len ≠ 0 ∧ SourceReady s ∧
      t = complete { s with ent := entq (countBytes (sourceBytes s)).cells }) := by
  unfold execEntropy at h
  split at h
  · cases h; exact .inl ⟨‹_›, rfl⟩
  · split at h <;> cases h
    · exact .inr (.inl ⟨‹_›, _, _, ‹_›, rfl⟩)
    · exact .inr (.inr ⟨‹_›, checkWindows_source_none.mp ‹_›, rfl⟩)

theorem execEntropy_ready {s : State} (hl : s.latched.len ≠ 0) (h : SourceReady s) :
    execEntropy s = .next (complete { s with ent := entq (countBytes (sourceBytes s)).cells }) := by
  simp only [execEntropy, hl, if_false, checkWindows_source_none.mpr h]

theorem execPack_inv {s t : State} (h : execPack s = .next t) :
    (s.codeV = false ∧ t = raise .state 0 s) ∨
    (s.codeV = true ∧ ∃ e info, checkWindows s true = some (e, info) ∧ t = raise e info s) ∨
    (s.codeV = true ∧ SourceReady s ∧ DestReady s ∧
      ∃ j, firstUncoded s.code (sourceBytes s) = some j ∧ t = raise .nocode j s) ∨
    (s.codeV = true ∧ SourceReady s ∧ DestReady s ∧ firstUncoded s.code (sourceBytes s) = none ∧
      s.latched.dcap.toNat < byteCount (totalBits s.code (sourceBytes s)) ∧
      t = raise .dstovf (byteCount (totalBits s.code (sourceBytes s))) s) ∨
    (s.codeV = true ∧ SourceReady s ∧ DestReady s ∧ firstUncoded s.code (sourceBytes s) = none ∧
      byteCount (totalBits s.code (sourceBytes s)) ≤ s.latched.dcap.toNat ∧
      t = complete { s with
        mem := s.mem.writeBytes s.latched.dst.toNat (payload s.code (sourceBytes s))
        outlen := BitVec.ofNat 32 (byteCount (totalBits s.code (sourceBytes s)))
        pad := BitVec.ofNat 3 (padCount (totalBits s.code (sourceBytes s)))
        bitlenLo := BitVec.ofNat 32 (totalBits s.code (sourceBytes s))
        bitlenHi := BitVec.ofNat 8 (totalBits s.code (sourceBytes s) / 2 ^ 32) }) := by
  unfold execPack at h
  split at h
  · cases h; exact .inl ⟨‹_›, rfl⟩
  · have hv : s.codeV = true := by simpa using ‹¬s.codeV = false›
    split at h
    · cases h; exact .inr (.inl ⟨hv, _, _, ‹_›, rfl⟩)
    · obtain ⟨hs, hd⟩ := checkWindows_both_none.mp ‹_›
      simp only at h
      split at h
      · cases h; exact .inr (.inr (.inl ⟨hv, hs, hd, _, ‹_›, rfl⟩))
      · split at h <;> cases h
        · exact .inr (.inr (.inr (.inl ⟨hv, hs, hd, ‹_›, ‹_›, rfl⟩)))
        · exact .inr (.inr (.inr (.inr ⟨hv, hs, hd, ‹_›, Nat.le_of_not_lt ‹_›, rfl⟩)))

theorem execUnpack_inv {s t : State} (h : execUnpack s = .next t) :
    (s.tkind = .none ∧ t = raise .state 0 s) ∨
    (s.tkind ≠ .none ∧ 7 < s.latched.padin.toNat ∧ t = raise .malformed 1 s) ∨
    (s.tkind ≠ .none ∧ s.latched.padin.toNat ≤ 7 ∧ 8 * s.latched.len.toNat < s.latched.padin.toNat ∧
      t = raise .malformed 2 s) ∨
    (ReachesWindows s .unpack ∧ ∃ e info, checkWindows s true = some (e, info) ∧ t = raise e info s) ∨
    (ReachesWindows s .unpack ∧ SourceReady s ∧ DestReady s ∧
      ∃ cause, decodeStream s.tkind s.root s.node (remainingBits s) = .error cause ∧ t = raise .malformed cause s) ∨
    (ReachesWindows s .unpack ∧ SourceReady s ∧ DestReady s ∧
      ∃ out, decodeStream s.tkind s.root s.node (remainingBits s) = .ok out ∧ s.latched.dcap.toNat < out.length ∧
        t = raise .dstovf out.length s) ∨
    (ReachesWindows s .unpack ∧ SourceReady s ∧ DestReady s ∧
      ∃ out, decodeStream s.tkind s.root s.node (remainingBits s) = .ok out ∧ out.length ≤ s.latched.dcap.toNat ∧
        t = complete { s with
          mem := s.mem.writeBytes s.latched.dst.toNat out
          outlen := BitVec.ofNat 32 out.length }) := by
  unfold execUnpack at h
  split at h
  · cases h; exact .inl ⟨‹_›, rfl⟩
  · split at h
    · cases h; exact .inr (.inl ⟨‹_›, ‹_›, rfl⟩)
    · split at h
      · cases h; exact .inr (.inr (.inl ⟨‹_›, Nat.le_of_not_lt ‹_›, ‹_›, rfl⟩))
      · have hr : ReachesWindows s .unpack := ⟨‹_›, Nat.le_of_not_lt ‹_›, Nat.le_of_not_lt ‹_›⟩
        split at h
        · cases h; exact .inr (.inr (.inr (.inl ⟨hr, _, _, ‹_›, rfl⟩)))
        · obtain ⟨hs, hd⟩ := checkWindows_both_none.mp ‹_›
          split at h
          · cases h; exact .inr (.inr (.inr (.inr (.inl ⟨hr, hs, hd, _, ‹_›, rfl⟩))))
          · split at h <;> cases h
            · exact .inr (.inr (.inr (.inr (.inr (.inl ⟨hr, hs, hd, _, ‹_›, ‹_›, rfl⟩)))))
            · exact .inr (.inr (.inr (.inr (.inr (.inr
                ⟨hr, hs, hd, _, ‹_›, Nat.le_of_not_lt ‹_›, rfl⟩)))))

/-! ### Commands with a prerequisite -/

theorem execGencode_inv {s t : State} (h : execGencode s = .next t) :
    (s.tkind = .none ∧ t = raise .state 0 s) ∨
    (s.tkind ≠ .none ∧ t = complete { s with code := genCodes s.tkind s.root s.node, codeV := true }) := by
  unfold execGencode at h
  split at h <;> cases h
  · exact .inl ⟨‹_›, rfl⟩
  · exact .inr ⟨‹_›, rfl⟩

theorem execCget_inv {sym : BitVec 8} {s t : State} (h : execCget sym s = .next t) :
    (s.codeV = false ∧ t = raise .state 0 s) ∨
    (s.codeV = true ∧ t = complete { s with
      res0 := BitVec.ofNat 32 (s.code.get sym.toNat).length
      res1 := 0
      res2 := 0
      codew := .tabulate 8 (alignedWord (s.code.get sym.toNat)) }) := by
  unfold execCget at h
  split at h <;> cases h
  · exact .inl ⟨‹_›, rfl⟩
  · exact .inr ⟨by simpa using ‹¬s.codeV = false›, rfl⟩

theorem execTget_inv {idx : BitVec 9} {s t : State} (h : execTget idx s = .next t) :
    (s.tkind = .none ∧ t = raise .state 0 s) ∨
    (s.tkind ≠ .none ∧ ∃ r0 r1 r2, t = complete { s with res0 := r0, res1 := r1, res2 := r2 }) := by
  unfold execTget at h
  split at h
  · cases h; exact .inl ⟨‹_›, rfl⟩
  · simp only at h
    split at h
    · cases h; exact .inr ⟨‹_›, _, _, _, rfl⟩
    · split at h <;> cases h <;> exact .inr ⟨‹_›, _, _, _, rfl⟩

/-! ### Any command -/

/-- A command answers a next state in three ways: a fault record over the state it found, the reset state (SRESET), or
a completion of a state that agrees with the one it found in all that no command but SRESET writes. -/
theorem exec_inv {i : Instr} {s t : State} (h : exec i s = .next t) :
    (∃ e info, t = raise e info s) ∨ (i = .sreset ∧ t = blockReset s) ∨
    (i ≠ .sreset ∧ ∃ u, t = complete u ∧ u.errlog = s.errlog ∧ u.ipend = s.ipend ∧ u.cmdcnt = s.cmdcnt ∧
      SameOperands s u ∧ SameRest s u) := by
  cases i with
  | nop => cases h; exact .inr (.inr ⟨nofun, _, rfl, rfl, rfl, rfl, by constructor <;> rfl, by constructor <;> rfl⟩)
  | sreset => cases h; exact .inr (.inl ⟨rfl, rfl⟩)
  | fclr => cases h; exact .inr (.inr ⟨nofun, _, rfl, rfl, rfl, rfl, by constructor <;> rfl, by constructor <;> rfl⟩)
  | fset sym => cases h; exact .inr (.inr ⟨nofun, _, rfl, rfl, rfl, rfl, by constructor <;> rfl, by constructor <;> rfl⟩)
  | fget sym => cases h; exact .inr (.inr ⟨nofun, _, rfl, rfl, rfl, rfl, by constructor <;> rfl, by constructor <;> rfl⟩)
  | build => cases h; exact .inr (.inr ⟨nofun, _, rfl, rfl, rfl, rfl, by constructor <;> rfl, by constructor <;> rfl⟩)
  | count =>
    obtain ⟨_, _, _, rfl⟩ | ⟨_, rfl⟩ := execCount_inv h
    · exact .inl ⟨_, _, rfl⟩
    · exact .inr (.inr ⟨nofun, _, rfl, rfl, rfl, rfl, by constructor <;> rfl, by constructor <;> rfl⟩)
  | entropy =>
    obtain ⟨_, rfl⟩ | ⟨_, _, _, _, rfl⟩ | ⟨_, _, rfl⟩ := execEntropy_inv h
    · exact .inl ⟨_, _, rfl⟩
    · exact .inl ⟨_, _, rfl⟩
    · exact .inr (.inr ⟨nofun, _, rfl, rfl, rfl, rfl, by constructor <;> rfl, by constructor <;> rfl⟩)
  | tget idx =>
    obtain ⟨_, rfl⟩ | ⟨_, _, _, _, rfl⟩ := execTget_inv h
    · exact .inl ⟨_, _, rfl⟩
    · exact .inr (.inr ⟨nofun, _, rfl, rfl, rfl, rfl, by constructor <;> rfl, by constructor <;> rfl⟩)
  | gencode =>
    obtain ⟨_, rfl⟩ | ⟨_, rfl⟩ := execGencode_inv h
    · exact .inl ⟨_, _, rfl⟩
    · exact .inr (.inr ⟨nofun, _, rfl, rfl, rfl, rfl, by constructor <;> rfl, by constructor <;> rfl⟩)
  | cget sym =>
    obtain ⟨_, rfl⟩ | ⟨_, rfl⟩ := execCget_inv h
    · exact .inl ⟨_, _, rfl⟩
    · exact .inr (.inr ⟨nofun, _, rfl, rfl, rfl, rfl, by constructor <;> rfl, by constructor <;> rfl⟩)
  | pack =>
    obtain ⟨_, rfl⟩ | ⟨_, _, _, _, rfl⟩ | ⟨_, _, _, _, _, rfl⟩ | ⟨_, _, _, _, _, rfl⟩ | ⟨_, _, _, _, _, rfl⟩ :=
      execPack_inv h
    · exact .inl ⟨_, _, rfl⟩
    · exact .inl ⟨_, _, rfl⟩
    · exact .inl ⟨_, _, rfl⟩
    · exact .inl ⟨_, _, rfl⟩
    · exact .inr (.inr ⟨nofun, _, rfl, rfl, rfl, rfl, by constructor <;> rfl, by constructor <;> rfl⟩)
  | unpack =>
    obtain ⟨_, rfl⟩ | ⟨_, _, rfl⟩ | ⟨_, _, _, rfl⟩ | ⟨_, _, _, _, rfl⟩ | ⟨_, _, _, _, _, rfl⟩ |
      ⟨_, _, _, _, _, _, rfl⟩ | ⟨_, _, _, _, _, _, rfl⟩ := execUnpack_inv h
    · exact .inl ⟨_, _, rfl⟩
    · exact .inl ⟨_, _, rfl⟩
    · exact .inl ⟨_, _, rfl⟩
    · exact .inl ⟨_, _, rfl⟩
    · exact .inl ⟨_, _, rfl⟩
    · exact .inl ⟨_, _, rfl⟩
    · exact .inr (.inr ⟨nofun, _, rfl, rfl, rfl, rfl, by constructor <;> rfl, by constructor <;> rfl⟩)

/-- No command stops the machine. -/
theorem exec_answers (i : Instr) (s : State) : ∃ t, exec i s = .next t := by
  cases i <;>
    simp only [exec, execNop, execSreset, execFclr, execFset, execFget, execCount, execEntropy, execBuild, execTget,
      execGencode, execCget, execPack, execUnpack, faulting] <;>
    (repeat' split) <;> exact ⟨_, rfl⟩

theorem runLatched_inv {s t : State} (h : runLatched s = .next t) :
    (∃ i, decode s.latched.word = .ok i ∧ exec i s = .next t) ∨
    (∃ r, decode s.latched.word = .error r ∧ t = raise .illcmd s.latched.word.toNat s) := by
  unfold runLatched at h
  split at h
  · exact .inl ⟨_, ‹_›, h⟩
  · cases h; exact .inr ⟨_, ‹_›, rfl⟩

/-! ### Steps -/

/-- A step answers a next state in three ways: a running command completes; nothing is left to do; or the host
performs the first transaction of its script. -/
theorem step_inv {s t : State} (h : step s = .next t) :
    (completesNow s = true ∧ runLatched s = .next t) ∨
    (completesNow s = false ∧ s.script = [] ∧ t = s) ∨
    (completesNow s = false ∧ ∃ txn rest, s.script = txn :: rest ∧ hostTurn txn { s with script := rest } = .next t) := by
  unfold step at h
  split at h
  · exact .inl ⟨‹_›, h⟩
  · have hc : completesNow s = false := by simpa using ‹¬completesNow s = true›
    split at h
    · cases h; exact .inr (.inl ⟨hc, ‹_›, rfl⟩)
    · exact .inr (.inr ⟨hc, _, _, ‹_›, h⟩)

/-- The step of a running command that completes. -/
theorem step_completes {s : State} (hb : s.busy = true) (h : s.left = 0 ∨ s.script = []) : step s = runLatched s := by
  have : completesNow s = true := by
    obtain h | h := h <;> simp [completesNow, hb, h]
  rw [step, if_pos this]

/-- The step of an idle block whose host has a transaction. -/
theorem step_idle {s : State} {txn : HostTxn} {rest : List HostTxn} (hb : s.busy = false)
    (hs : s.script = txn :: rest) : step s = idleTurn txn { s with script := rest } := by
  have : ¬completesNow s = true := by simp [completesNow, hb]
  rw [step, if_neg this, hs]
  exact if_neg (by simp [hb])

/-- The step of a running command inside which a transaction lands. -/
theorem step_busy {s : State} {txn : HostTxn} {rest : List HostTxn} (hb : s.busy = true) (hl : 0 < s.left)
    (hs : s.script = txn :: rest) : step s = busyTurn txn { s with script := rest, left := s.left - 1 } := by
  have : ¬completesNow s = true := by simp [completesNow, hs]; omega
  rw [step, if_neg this, hs]
  exact if_pos hb

/-- The source window of the running command, in the claims' terms. -/
theorem inRunningSource_iff {s : State} {a : Nat} : inRunningSource s a = true ↔ OwnedSource s a := by
  unfold inRunningSource OwnedSource runningCommand
  cases decode s.latched.word with
  | error e => simp [Except.toOption]
  | ok i => cases i <;> simp [Except.toOption, readsSource, inWindow]

/-- The destination window of the running command, in the claims' terms. -/
theorem inRunningDest_iff {s : State} {a : Nat} : inRunningDest s a = true ↔ OwnedDest s a := by
  unfold inRunningDest OwnedDest runningCommand
  cases decode s.latched.word with
  | error e => simp [Except.toOption]
  | ok i => cases i <;> simp [Except.toOption, writesDest, inWindow]

/-- What a host transaction does to an idle block, where it answers a next state. -/
theorem idleTurn_inv {txn : HostTxn} {s t : State} (h : idleTurn txn s = .next t) :
    (∃ w, txn = .regWrite cmdOffset w ∧ issue w s = .next t) ∨
    (∃ off v, txn = .regWrite off v ∧ off ≠ cmdOffset ∧ t = writeReg off v s) ∨
    (∃ a v, txn = .memWrite a v ∧ t = { s with mem := s.mem.write a.toNat v }) ∨
    (txn = .hardReset ∧ t = blockReset s) ∨
    (∃ data script, t = { s with hostData := data, script := script }) := by
  cases txn with
  | regRead off =>
    simp only [idleTurn] at h
    split at h <;> cases h
    exact .inr (.inr (.inr (.inr ⟨_, _, rfl⟩)))
  | regWrite off v =>
    simp only [idleTurn] at h
    split at h
    · split at h
      · subst off; exact .inl ⟨_, rfl, h⟩
      · cases h; exact .inr (.inl ⟨_, _, rfl, ‹_›, rfl⟩)
    · cases h
  | memRead a => cases h; exact .inr (.inr (.inr (.inr ⟨_, _, rfl⟩)))
  | memWrite a v => cases h; exact .inr (.inr (.inl ⟨_, _, rfl, rfl⟩))
  | hardReset => cases h; exact .inr (.inr (.inr (.inl ⟨rfl, rfl⟩)))
  | wait => cases h; exact .inr (.inr (.inr (.inr ⟨_, _, rfl⟩)))
  | check => cases h; exact .inr (.inr (.inr (.inr ⟨_, _, rfl⟩)))

/-- What a host transaction does while a command runs, where it answers a next state. -/
theorem busyTurn_inv {txn : HostTxn} {s t : State} (h : busyTurn txn s = .next t) :
    (t = { s with errlog := logBit s.errlog hostViolBit }) ∨
    (∃ a v, txn = .memWrite a v ∧ inRunningSource s a.toNat = false ∧ inRunningDest s a.toNat = false ∧
      t = { s with mem := s.mem.write a.toNat v }) ∨
    (txn = .hardReset ∧ t = blockReset (scrambleDest s)) ∨
    (∃ data draws script, t = { s with hostData := data, draws := draws, script := script }) := by
  cases txn with
  | regRead off =>
    simp only [busyTurn] at h
    split at h <;> cases h
    unfold busyRead
    split
    · exact .inr (.inr (.inr ⟨_, _, _, rfl⟩))
    · split <;> exact .inr (.inr (.inr ⟨_, _, _, rfl⟩))
  | regWrite off v =>
    simp only [busyTurn] at h
    split at h <;> cases h
    exact .inl rfl
  | memRead a =>
    simp only [busyTurn] at h
    split at h <;> cases h <;> exact .inr (.inr (.inr ⟨_, _, _, rfl⟩))
  | memWrite a v =>
    simp only [busyTurn] at h
    split at h <;> cases h
    have hw : ¬(inRunningSource s a.toNat || inRunningDest s a.toNat) = true := ‹_›
    simp only [Bool.or_eq_true, not_or, Bool.not_eq_true] at hw
    exact .inr (.inl ⟨_, _, rfl, hw.1, hw.2, rfl⟩)
  | hardReset => cases h; exact .inr (.inr (.inl ⟨rfl, rfl⟩))
  | wait => cases h; exact .inr (.inr (.inr ⟨_, _, _, rfl⟩))
  | check => cases h; exact .inr (.inr (.inr ⟨_, _, _, rfl⟩))

end Sys2Proof.Machine
end

