-- ==== Sys2Proof/Laws/Table.lean ====
section
/-! SUPPORT. What reading a table gives after each way of making one. -/

namespace Sys2Proof.Machine

variable {α : Type} {n : Nat} [Inhabited α]

theorem Table.get_eq_getElem (t : Table α n) {i : Nat} (h : i < n) :
    t.get i = t.cells[i]'(by rw [t.length_eq]; exact h) := by
  simp [Table.get, List.getD_eq_getElem?_getD, t.length_eq, h]

theorem Table.get_set (t : Table α n) {i : Nat} (j : Nat) (v : α) (h : i < n) :
    (t.set i v).get j = if i = j then v else t.get j := by
  by_cases hij : i = j
  · subst hij
    simp [Table.get, Table.set, t.length_eq, h]
  · simp [Table.get, Table.set, List.getElem?_set_ne hij, hij]

@[simp] theorem Table.get_set_self (t : Table α n) {i : Nat} (v : α) (h : i < n) : (t.set i v).get i = v := by
  rw [Table.get_set t i v h, if_pos rfl]

theorem Table.get_set_ne (t : Table α n) {i j : Nat} (v : α) (h : i ≠ j) : (t.set i v).get j = t.get j := by
  simp [Table.get, Table.set, List.getElem?_set_ne h]

theorem Table.get_fill {i : Nat} (a : α) (h : i < n) : (Table.fill n a).get i = a := by
  simp [Table.get, Table.fill, h]

theorem Table.get_tabulate {i : Nat} (f : Nat → α) (h : i < n) : (Table.tabulate n f).get i = f i := by
  simp [Table.get, Table.tabulate, h]

/-- Two tables that read alike are the same table. -/
theorem Table.ext_get {t u : Table α n} (h : ∀ i, i < n → t.get i = u.get i) : t = u := by
  obtain ⟨tc, ht⟩ := t
  obtain ⟨uc, hu⟩ := u
  have : tc = uc := by
    apply List.ext_getElem (ht.trans hu.symm)
    intro i h1 h2
    have hi : i < n := ht ▸ h1
    have := h i hi
    rwa [Table.get_eq_getElem _ hi, Table.get_eq_getElem _ hi] at this
  subst this
  rfl

end Sys2Proof.Machine
end

