-- ==== Sys2Proof/Laws/FreqTable.lean ====
section
/-! SUPPORT. What the counting loop leaves in the frequency table, and what the priority structure gives out. -/

namespace Sys2Proof.Machine

/-- The counting loop started from a table adds to each byte value its number of occurrences (42_freqtable.md R133). -/
theorem get_foldl_countByte (bytes : List Byte) (freq : Table Word 256) (b : Byte) :
    (bytes.foldl countByte freq).get b.toNat = freq.get b.toNat + BitVec.ofNat 32 (bytes.count b) := by
  induction bytes generalizing freq with
  | nil => simp
  | cons c cs ih =>
    rw [List.foldl_cons, ih, countByte, Table.get_set _ _ _ (show c.toNat < 256 from c.isLt)]
    by_cases h : b = c
    · subst h
      simp only [if_true, List.count_cons_self]
      rw [BitVec.add_assoc, BitVec.add_comm 1]
      simp [BitVec.ofNat_add]
    · have h' : ¬b.toNat = c.toNat := fun hh => h (BitVec.eq_of_toNat_eq hh)
      have h'' : ¬c.toNat = b.toNat := fun hh => h' hh.symm
      simp [h'', List.count_cons_of_ne (Ne.symm h)]

/-- COUNT's table holds each byte value's number of occurrences (42_freqtable.md R133). -/
theorem get_countBytes (bytes : List Byte) (b : Byte) :
    (countBytes bytes).get b.toNat = BitVec.ofNat 32 (bytes.count b) := by
  rw [countBytes, get_foldl_countByte, zeroCounts, Table.get_fill _ (show b.toNat < 256 from b.isLt)]
  simp

theorem get_foldl_markByte (bytes : List Byte) (valid : Table Bool 256) (b : Byte) :
    (bytes.foldl markByte valid).get b.toNat = (valid.get b.toNat || decide (b ∈ bytes)) := by
  induction bytes generalizing valid with
  | nil => simp
  | cons c cs ih =>
    rw [List.foldl_cons, ih, markByte, Table.get_set _ _ _ (show c.toNat < 256 from c.isLt)]
    by_cases h : b = c
    · subst h; simp
    · have h' : ¬b.toNat = c.toNat := fun hh => h (BitVec.eq_of_toNat_eq hh)
      have h'' : ¬c.toNat = b.toNat := fun hh => h' hh.symm
      simp [h, h'']

/-- COUNT's entries are the byte values that occur (42_freqtable.md R133). -/
theorem get_markBytes (bytes : List Byte) (b : Byte) : (markBytes bytes).get b.toNat = decide (b ∈ bytes) := by
  rw [markBytes, get_foldl_markByte, noEntries, Table.get_fill _ (show b.toNat < 256 from b.isLt)]
  simp

/-- Only the empty structure has no minimum. -/
theorem extractMin_eq_none {q : List QEntry} : extractMin q = none ↔ q = [] := by
  cases q with
  | nil => simp [extractMin]
  | cons e rest =>
    simp only [extractMin, reduceCtorEq, iff_false]
    split
    · simp
    · split <;> simp

/-- Extraction takes out one node. -/
theorem length_of_extractMin {q rest : List QEntry} {m : QEntry} (h : extractMin q = some (m, rest)) :
    q.length = rest.length + 1 := by
  induction q generalizing m rest with
  | nil => cases h
  | cons e es ih =>
    simp only [extractMin] at h
    split at h
    · cases h
      have : es = [] := extractMin_eq_none.mp ‹_›
      simp [this]
    · have := ih ‹_›
      split at h <;> cases h <;> simp [this]

end Sys2Proof.Machine
end

