-- ==== Sys2Proof/Laws/Memory.lean ====
section
/-! SUPPORT. The memory primitives: a read after a write, and the canonical form that every operation keeps
(20_memory.md R63; log 3). -/

namespace Sys2Proof.Machine

theorem Memory.wfFrom_mono {lo lo' : Nat} {m : Memory} (h : lo' ≤ lo) (hm : Memory.wfFrom lo m = true) :
    Memory.wfFrom lo' m = true := by
  cases m with
  | nil => rfl
  | cons c rest =>
    obtain ⟨a, v⟩ := c
    simp only [Memory.wfFrom, Bool.and_eq_true, decide_eq_true_eq] at hm ⊢
    exact ⟨⟨⟨le_trans h hm.1.1.1, hm.1.1.2⟩, hm.1.2⟩, hm.2⟩

/-- An address below the first listed one reads as unlisted. -/
theorem Memory.read_below {lo a : Nat} {m : Memory} (hm : Memory.wfFrom lo m = true) (h : a < lo) :
    Memory.read m a = Memory.unlisted := by
  induction m generalizing lo with
  | nil => rfl
  | cons c rest ih =>
    obtain ⟨b, v⟩ := c
    simp only [Memory.wfFrom, Bool.and_eq_true, decide_eq_true_eq] at hm
    have hb : b ≠ a := by omega
    rw [Memory.read, if_neg hb]
    exact ih hm.2 (by omega)

/-- A write leaves every other byte as it was. -/
theorem Memory.read_write_ne (m : Memory) {a c : Nat} (v : Byte) (h : c ≠ a) :
    (m.write a v).read c = m.read c := by
  have ha : a ≠ c := h.symm
  have hcons : ∀ m : Memory, (Memory.cons a v m).read c = m.read c := by
    intro m
    unfold Memory.cons
    split
    · rfl
    · simp [Memory.read, ha]
  induction m with
  | nil => simp [Memory.write, hcons]
  | cons cell rest ih =>
    obtain ⟨b, u⟩ := cell
    unfold Memory.write
    split
    · exact hcons _
    · split
      · next hab => subst hab; simp [hcons, Memory.read, ha]
      · simp [Memory.read, ih]

/-- A write is what the same address reads. -/
theorem Memory.read_write_self {lo : Nat} {m : Memory} (hm : Memory.wfFrom lo m = true) (a : Nat) (v : Byte) :
    (m.write a v).read a = v := by
  have hcons : ∀ {lo : Nat} {m : Memory}, Memory.wfFrom lo m = true → a < lo → (Memory.cons a v m).read a = v := by
    intro lo m hm ha
    unfold Memory.cons
    split
    · next hv => rw [Memory.read_below hm ha, hv]
    · simp [Memory.read]
  induction m generalizing lo with
  | nil => exact hcons (lo := a + 1) rfl (by omega)
  | cons cell rest ih =>
    obtain ⟨b, u⟩ := cell
    have hm' := hm
    simp only [Memory.wfFrom, Bool.and_eq_true, decide_eq_true_eq] at hm
    unfold Memory.write
    split
    · next hab =>
      refine hcons (lo := b) ?_ hab
      simp only [Memory.wfFrom, Bool.and_eq_true, decide_eq_true_eq]
      exact ⟨⟨⟨le_refl b, hm.1.1.2⟩, hm.1.2⟩, hm.2⟩
    · split
      · next hab => exact hcons hm.2 (by omega)
      · next hab =>
        have hne : b ≠ a := fun h => hab h.symm
        rw [Memory.read, if_neg hne]
        exact ih hm.2

/-- A write to an address of MEM keeps the canonical form. -/
theorem Memory.write_wfFrom {lo a : Nat} {m : Memory} (hm : Memory.wfFrom lo m = true) (hlo : lo ≤ a)
    (ha : a < Config.memBytes) (v : Byte) : Memory.wfFrom lo (m.write a v) = true := by
  have hcons : ∀ {lo : Nat} {m : Memory}, lo ≤ a → Memory.wfFrom (a + 1) m = true →
      Memory.wfFrom lo (Memory.cons a v m) = true := by
    intro lo m hlo hm
    unfold Memory.cons
    split
    · exact Memory.wfFrom_mono (by omega) hm
    · next hv =>
      simp only [Memory.wfFrom, Bool.and_eq_true, decide_eq_true_eq]
      exact ⟨⟨⟨hlo, ha⟩, hv⟩, hm⟩
  induction m generalizing lo with
  | nil => exact hcons hlo rfl
  | cons cell rest ih =>
    obtain ⟨b, u⟩ := cell
    have hm' := hm
    simp only [Memory.wfFrom, Bool.and_eq_true, decide_eq_true_eq] at hm
    unfold Memory.write
    split
    · next hab =>
      refine hcons hlo ?_
      simp only [Memory.wfFrom, Bool.and_eq_true, decide_eq_true_eq]
      exact ⟨⟨⟨hab, hm.1.1.2⟩, hm.1.2⟩, hm.2⟩
    · split
      · next hab => subst hab; exact hcons hlo hm.2
      · next hlt hne =>
        simp only [Memory.wfFrom, Bool.and_eq_true, decide_eq_true_eq]
        exact ⟨hm.1, ih hm.2 (by omega)⟩

theorem Memory.write_wf {a : Nat} {m : Memory} (hm : m.wf = true) (ha : a < Config.memBytes) (v : Byte) :
    (m.write a v).wf = true :=
  Memory.write_wfFrom hm (Nat.zero_le a) ha v

/-- Two canonical memories that read alike are equal. -/
theorem Memory.ext_read {lo : Nat} {m m' : Memory} (hm : Memory.wfFrom lo m = true) (hm' : Memory.wfFrom lo m' = true)
    (h : ∀ a, m.read a = m'.read a) : m = m' := by
  induction m generalizing lo m' with
  | nil =>
    cases m' with
    | nil => rfl
    | cons c' rest' =>
      obtain ⟨b, u⟩ := c'
      simp only [Memory.wfFrom, Bool.and_eq_true, decide_eq_true_eq] at hm'
      have := h b
      simp only [Memory.read, if_true] at this
      exact absurd this.symm hm'.1.2
  | cons c rest ih =>
    obtain ⟨a, v⟩ := c
    have hm0 := hm
    simp only [Memory.wfFrom, Bool.and_eq_true, decide_eq_true_eq] at hm
    cases m' with
    | nil =>
      have := h a
      simp only [Memory.read, if_true] at this
      exact absurd this hm.1.2
    | cons c' rest' =>
      obtain ⟨b, u⟩ := c'
      have hm0' := hm'
      simp only [Memory.wfFrom, Bool.and_eq_true, decide_eq_true_eq] at hm'
      have hab : a = b := by
        rcases Nat.lt_trichotomy a b with hlt | heq | hgt
        · have h1 := h a
          rw [Memory.read, if_pos rfl, Memory.read, if_neg (by omega : ¬ b = a),
            Memory.read_below hm'.2 (by omega)] at h1
          exact absurd h1 hm.1.2
        · exact heq
        · have h1 := h b
          rw [Memory.read, if_neg (by omega : ¬ a = b), Memory.read_below hm.2 (by omega), Memory.read,
            if_pos rfl] at h1
          exact absurd h1.symm hm'.1.2
      subst hab
      have huv : v = u := by simpa [Memory.read] using h a
      subst huv
      have : rest = rest' := by
        refine ih hm.2 hm'.2 fun c => ?_
        by_cases hc : a = c
        · subst hc
          rw [Memory.read_below hm.2 (by omega), Memory.read_below hm'.2 (by omega)]
        · simpa [Memory.read, hc] using h c
      rw [this]

/-! ### Runs of bytes -/

@[simp] theorem Memory.length_readBytes (m : Memory) (base n : Nat) : (m.readBytes base n).length = n := by
  simp [Memory.readBytes]

theorem Memory.getElem_readBytes (m : Memory) (base n j : Nat) (h : j < (m.readBytes base n).length) :
    (m.readBytes base n)[j] = m.read (base + j) := by
  simp [Memory.readBytes]

theorem Memory.read_writeBytes_outside (m : Memory) (base : Nat) (bs : List Byte) {a : Nat}
    (h : a < base ∨ base + bs.length ≤ a) : (m.writeBytes base bs).read a = m.read a := by
  induction bs generalizing m base with
  | nil => rfl
  | cons b bs ih =>
    simp only [List.length_cons] at h
    rw [Memory.writeBytes, ih _ _ (by omega), Memory.read_write_ne _ _ (by omega)]

theorem Memory.writeBytes_wf {m : Memory} (hm : m.wf = true) (base : Nat) (bs : List Byte)
    (h : base + bs.length ≤ Config.memBytes) : (m.writeBytes base bs).wf = true := by
  induction bs generalizing m base with
  | nil => exact hm
  | cons b bs ih =>
    simp only [List.length_cons] at h
    exact ih (Memory.write_wf hm (by omega) b) _ (by omega)

theorem Memory.read_writeBytes_inside {m : Memory} (hm : m.wf = true) (base : Nat) (bs : List Byte) (k : Nat)
    (hk : k < bs.length) (h : base + bs.length ≤ Config.memBytes) :
    (m.writeBytes base bs).read (base + k) = bs[k] := by
  induction bs generalizing m base k with
  | nil => simp at hk
  | cons b bs ih =>
    simp only [List.length_cons] at h hk
    have hw := Memory.write_wf hm (by omega : base < Config.memBytes) b
    cases k with
    | zero =>
      rw [Memory.writeBytes, Memory.read_writeBytes_outside _ _ _ (by omega)]
      exact Memory.read_write_self hm base b
    | succ k =>
      have := ih hw (base + 1) k (by omega) (by omega)
      rw [Memory.writeBytes]
      rw [show base + (k + 1) = base + 1 + k by omega]
      simpa using this

end Sys2Proof.Machine
end

