-- ==== Sys2Proof/Laws/PerInstr.lean ====
section
/-! SUPPORT. One law per command about its word: of the opcode map's rows it selects its own and no other. -/

namespace Sys2Proof.Laws.RowMatch

/-- The mnemonic of a command's row (30_encoding.md R93). -/
def rowName : Instr → String
  | .nop => "NOP"
  | .sreset => "SRESET"
  | .fclr => "FCLR"
  | .fset _ => "FSET"
  | .fget _ => "FGET"
  | .count => "COUNT"
  | .entropy => "ENTROPY"
  | .build => "BUILD"
  | .tget _ => "TGET"
  | .gencode => "GENCODE"
  | .cget _ => "CGET"
  | .pack => "PACK"
  | .unpack => "UNPACK"

/-- The word of the command selects exactly the row of its mnemonic: "the rows are disjoint" (30_encoding.md R93). -/
def Statement (i : Instr) : Prop :=
  (opcodeRows.filter fun r => r.selects (encode i)).map OpcodeRow.mnemonic = [rowName i]

theorem nop : Statement .nop := by unfold Statement; decide +kernel
theorem sreset : Statement .sreset := by unfold Statement; decide +kernel
theorem fclr : Statement .fclr := by unfold Statement; decide +kernel
theorem fset (sym : BitVec 8) : Statement (.fset sym) := by unfold Statement; revert sym; decide +kernel
theorem fget (sym : BitVec 8) : Statement (.fget sym) := by unfold Statement; revert sym; decide +kernel
theorem count : Statement .count := by unfold Statement; decide +kernel
theorem entropy : Statement .entropy := by unfold Statement; decide +kernel
theorem build : Statement .build := by unfold Statement; decide +kernel
theorem tget (idx : BitVec 9) : Statement (.tget idx) := by unfold Statement; revert idx; decide +kernel
theorem gencode : Statement .gencode := by unfold Statement; decide +kernel
theorem cget (sym : BitVec 8) : Statement (.cget sym) := by unfold Statement; revert sym; decide +kernel
theorem pack : Statement .pack := by unfold Statement; decide +kernel
theorem unpack : Statement .unpack := by unfold Statement; decide +kernel

end Sys2Proof.Laws.RowMatch
end

