-- ==== Sys2Proof/Tests/Slice0.lean ====
section
/-! SUPPORT. The model's own tests. Every expected value is one that 30_encoding.md, 40_control.md to 45_bitpack.md or
95_test_vectors.md writes out; the vector is named beside each test. -/

namespace Sys2Proof.Tests

-- one theorem after another: many at once need more memory than a check has
set_option Elab.async false

open Sys2Proof Sys2Proof.Machine

/-- A view of the next state, where there is one. -/
def after {α : Type} (r : Result) (view : State → α) : Option α :=
  match r with
  | .next t => some (view t)
  | .fault _ => none
  | .refused _ => none

/-- MEM holding `bytes` from `base` on, over what `m` holds. -/
def withBytes (m : Memory) (base : Nat) (bytes : List Byte) : Memory := m.writeBytes base bytes

/-- The reset state with windows latched. -/
def windows (src len dst dcap : Word) (padin : Byte) (m : Memory) : State :=
  { State.reset with
    latched := { word := 0, src := src, len := len, dst := dst, dcap := dcap, arg := 0, padin := padin }
    mem := m }

/-- "aaabbbccd" -/
def text : List Byte := [0x61, 0x61, 0x61, 0x62, 0x62, 0x62, 0x63, 0x63, 0x64]

/-- The frequency table of vector T1. -/
def t1Freq : Table Word 256 := (((zeroCounts.set 0x61 3).set 0x62 3).set 0x63 2).set 0x64 1

/-- The entries of vector T1. -/
def t1Valid : Table Bool 256 := (((noEntries.set 0x61 true).set 0x62 true).set 0x63 true).set 0x64 true

/-- The arena of vector T1. -/
def t1Nodes : Table Node 511 :=
  ((((((blankNodes.set 0x61 (.leaf 3)).set 0x62 (.leaf 3)).set 0x63 (.leaf 2)).set 0x64 (.leaf 1)).set
    256 (.internal 3 0x64 0x63)).set 257 (.internal 6 256 0x61)).set 258 (.internal 9 0x62 257)

/-- The codes of 44_codetable.md R160's example. -/
def t1Codes : Table Code 256 :=
  (((blankCodes.set 0x61 [true, true]).set 0x62 [false]).set 0x63 [true, false, true]).set 0x64 [true, false, false]

/-- A state with table, tree and codes of vector T1 (STATUS = 0xE). -/
def t1State (s : State) : State :=
  { s with
    freq := t1Freq, valid := t1Valid, nent := 4, node := t1Nodes, root := 258, nnode := 7, tkind := .multi
    code := t1Codes, codeV := true }

/-- A state with table and tree of vector T3, {A: 10}. -/
def t3State (s : State) : State :=
  { s with
    freq := zeroCounts.set 0x41 10, valid := noEntries.set 0x41 true, nent := 1
    node := blankNodes.set 0x41 (.leaf 10), root := 0x41, nnode := 1, tkind := .single
    code := blankCodes.set 0x41 [false], codeV := true }

/-! ### Well-formedness: an ill-formed term for each check -/

theorem test_misaligned_read_illFormed : HostTxn.wellFormed (.regRead 0x0A) = false := by decide
theorem test_beyond_window_read_illFormed : HostTxn.wellFormed (.regRead 0x100) = false := by decide
theorem test_misaligned_write_illFormed : HostTxn.wellFormed (.regWrite 0x41 7) = false := by decide
theorem test_beyond_window_write_illFormed : HostTxn.wellFormed (.regWrite 0x104 7) = false := by decide
theorem test_last_register_wellFormed : HostTxn.wellFormed (.regWrite 0xFC 7) = true := by decide
theorem test_illFormed_refused :
    idleTurn (.regRead 0x0A) State.reset = .refused (.registerAccess 0x0A) ∧
      idleTurn (.regWrite 0x104 7) State.reset = .refused (.registerAccess 0x104) := by
  constructor <;> rfl

/-! ### Decoding: words written out from 30_encoding.md R91 to R94 (vectors E1 to E31) -/

theorem test_decode_nop : decode 0x00000000 = .ok .nop := by rfl
theorem test_decode_sreset : decode 0x00000001 = .ok .sreset := by rfl
theorem test_decode_fclr : decode 0x00000010 = .ok .fclr := by rfl
theorem test_decode_fset : decode 0x00004111 = .ok (.fset 0x41) := by rfl
theorem test_decode_fset_last : decode 0x0000FF11 = .ok (.fset 0xFF) := by rfl
theorem test_decode_fget : decode 0x00006112 = .ok (.fget 0x61) := by rfl
theorem test_decode_count : decode 0x00000013 = .ok .count := by rfl
theorem test_decode_entropy : decode 0x00000020 = .ok .entropy := by rfl
theorem test_decode_build : decode 0x00000030 = .ok .build := by rfl
theorem test_decode_tget : decode 0x00010231 = .ok (.tget 258) := by rfl
theorem test_decode_tget_last : decode 0x0001FF31 = .ok (.tget 511) := by rfl
theorem test_decode_gencode : decode 0x00000032 = .ok .gencode := by rfl
theorem test_decode_cget : decode 0x00006133 = .ok (.cget 0x61) := by rfl
theorem test_decode_pack : decode 0x00000040 = .ok .pack := by rfl
theorem test_decode_unpack : decode 0x00000041 = .ok .unpack := by rfl
/-- The format drawings of R91 bit by bit: FSET 0x41 is sym 01000001 over op 00010001, TGET 258 is idx 100000010 over
op 00110001. -/
theorem test_decode_bit_by_bit :
    decode 0b0000000000000000_01000001_00010001 = .ok (.fset 0x41) ∧
      decode 0b000000000000000_100000010_00110001 = .ok (.tget 258) := by constructor <;> rfl
theorem test_illegal_op : decode 0x00000002 = .error (.unlistedOp 0x02) := by rfl
theorem test_illegal_nop_argument : decode 0x00000100 = .error (.mustBeZero 0x00000100) := by rfl
theorem test_illegal_fset_bit16 : decode 0x00010011 = .error (.mustBeZero 0x00010011) := by rfl
theorem test_illegal_tget_bit17 : decode 0x00020031 = .error (.mustBeZero 0x00020031) := by rfl
theorem test_illegal_pack_bit31 : decode 0x80000040 = .error (.mustBeZero 0x80000040) := by rfl
theorem test_illegal_all_ones : decode 0xFFFFFFFF = .error (.unlistedOp 0xFF) := by rfl
theorem test_encode_examples :
    encode (.fset 0x41) = 0x00004111 ∧ encode (.fget 0xFF) = 0x0000FF12 ∧ encode (.cget 0x61) = 0x00006133 ∧
      encode (.tget 258) = 0x00010231 ∧ encode .pack = 0x00000040 := by decide

/-! ### Running a command as the next step -/

/-- Vector C1. -/
theorem test_step_nop :
    after (step (State.reset.withFetchWord 32 0x00000000)) (fun t => (t.cmdcnt, t.ipend, t.err, t.errlog, t.status)) =
      some (1, 1, 0, 0, 0) := by decide
/-- Vector F1: ARG = 10, FSET 0x41. -/
theorem test_step_fset :
    after (step ({ State.reset with arg := 10 }.withFetchWord 32 0x00004111))
      (fun t => (t.freq.get 0x41, t.valid.get 0x41, t.nent)) = some (10, true, 1) := by decide +kernel
/-- Vector I2: an illegal word. -/
theorem test_step_illegal :
    after (step (State.reset.withFetchWord 32 0x00000002))
      (fun t => (t.err, t.errinfo, t.errlog, t.ipend, t.cmdcnt)) = some (1, 2, 2, 3, 1) := by decide
/-- Vectors Q11 and H15 from reset. -/
theorem test_step_gencode_state :
    after (step (State.reset.withFetchWord 32 0x00000032)) (fun t => (t.err, t.errlog)) = some (5, 0x20) := by decide
theorem test_step_entropy_empty :
    after (step (State.reset.withFetchWord 32 0x00000020)) (fun t => (t.err, t.errinfo, t.ent)) = some (2, 0, 0) := by
  decide

/-! ### Control -/

/-- Vector C6: CMDCNT wraps. -/
theorem test_nop_wraps :
    after (exec .nop { State.reset with cmdcnt := 0xFFFFFFFF }) (fun t => t.cmdcnt) = some 0 := by decide
/-- Vector C3: SRESET clears the log and the count, and leaves MEM. -/
theorem test_sreset :
    after (exec .sreset { t1State State.reset with errlog := 0xB6, cmdcnt := 12, ipend := 3, mem := [(0x2000, 0x1B)] })
      (fun t => (t.errlog, t.cmdcnt, t.ipend, t.status, t.nent, t.mem.read 0x2000)) =
      some (0, 0, 0, 0, 0, 0x1B) := by decide

/-! ### Frequency table -/

/-- Vectors F5 and F10. -/
theorem test_fclr :
    after (exec .fclr (t1State State.reset)) (fun t => (t.nent, t.freq.get 0x61, t.valid.get 0x61, t.status, t.root)) =
      some (0, 0, false, 0, 0) := by decide +kernel
/-- Vectors F2 and F10: the last write wins, NENT stays, the tree is dropped. -/
theorem test_fset_again :
    after (exec (.fset 0x61) (t1State State.reset)) (fun t => (t.freq.get 0x61, t.nent, t.status, t.nnode)) =
      some (0, 4, 0, 0) := by decide +kernel
/-- Vector F3: a count of 0 makes an entry. -/
theorem test_fset_zero_entry :
    after (exec (.fset 0x42) State.reset) (fun t => (t.freq.get 0x42, t.valid.get 0x42, t.nent)) =
      some (0, true, 1) := by decide +kernel
/-- Vector F6, first and last lines. -/
theorem test_fget :
    after (exec (.fget 0x61) (t1State State.reset)) (fun t => (t.res0, t.res1, t.res2)) = some (3, 1, 0) ∧
      after (exec (.fget 0x65) (t1State State.reset)) (fun t => (t.res0, t.res1, t.res2)) = some (0, 0, 0) := by
  decide +kernel
/-- 42_freqtable.md R133's example. -/
theorem test_count :
    after (exec .count (windows 0x2000 9 0 0 0 (withBytes [] 0x2000 text)))
      (fun t => (t.freq.get 0x61, t.freq.get 0x63, t.freq.get 0x64, t.valid.get 0x65, t.nent)) =
      some (3, 2, 1, false, 4) := by decide +kernel
/-- Vectors M1 and M2: a window may end at the top of MEM, and may not wrap. -/
theorem test_count_top_of_mem :
    after (exec .count (windows 0xFFFFFFFF 1 0 0 0 [(0xFFFFFFFF, 0x7A)])) (fun t => (t.err, t.freq.get 0x7A, t.nent)) =
      some (0, 1, 1) ∧
    after (exec .count (windows 0xFFFFFFFF 2 0 0 0 [(0xFFFFFFFF, 0x7A)])) (fun t => (t.err, t.errinfo, t.errlog)) =
      some (3, 0, 8) := by decide +kernel
/-- Vector M6: the lowest unbacked address of the source window. -/
theorem test_count_bus :
    after (exec .count { windows 0x7FFE 3 0 0 0 [] with holes := [⟨0x8000, 0x1000⟩] })
      (fun t => (t.err, t.errinfo, t.errlog)) = some (9, 0x8000, 0x200) := by decide +kernel

/-! ### Entropy -/

/-- Vector H1: a one-valued buffer gives exactly 0. -/
theorem test_entropy_uniform :
    after (exec .entropy { windows 0x100 3 0 0 0 (withBytes [] 0x100 [0x41, 0x41, 0x41]) with ent := 5 })
      (fun t => (t.err, t.ent)) = some (0, 0) := by decide +kernel
/-- Vector H17: ENTROPY leaves the table and the tree. -/
theorem test_entropy_frame :
    after (exec .entropy (t1State (windows 0x100 2 0 0 0 (withBytes [] 0x100 [0x01, 0x02]))))
      (fun t => (t.err, t.nent, t.status)) = some (0, 4, 0xE) := by decide +kernel

/-! ### Tree -/

/-- Vector T1, 43_tree.md R140's example. -/
theorem test_build :
    buildTree t1Freq t1Valid = { node := t1Nodes, root := 258, nnode := 7, tkind := .multi } := by decide +kernel
/-- Vector T4: the empty table. -/
theorem test_build_empty :
    after (exec .build State.reset) (fun t => (t.status, t.root, t.nnode, t.err)) = some (4, 0, 0, 0) := by
  decide +kernel
/-- Vector T17: {0: 1, 1: 1, 2: 1}, the leaf 2 before the internal node of weight 2. -/
theorem test_build_three :
    (buildTree (((zeroCounts.set 0 1).set 1 1).set 2 1) (((noEntries.set 0 true).set 1 true).set 2 true)).node.get 257 =
      .internal 3 2 256 := by decide +kernel
/-- Vector T1's TGET lines. -/
theorem test_tget :
    after (exec (.tget 258) (t1State State.reset)) (fun t => (t.res0, t.res1, t.res2)) = some (9, 0, 0x01010622) ∧
      after (exec (.tget 257) (t1State State.reset)) (fun t => t.res2) = some 0x00611002 := by decide +kernel
theorem test_tget_outside :
    after (exec (.tget 0x64) (t1State State.reset)) (fun t => (t.res0, t.res2)) = some (1, 1) ∧
      after (exec (.tget 259) (t1State State.reset)) (fun t => (t.err, t.res2)) = some (0, 0) := by decide +kernel

/-! ### Codes -/

/-- 44_codetable.md R160's example, and vector K2. -/
theorem test_gencode : genCodes .multi 258 t1Nodes = t1Codes := by decide +kernel
theorem test_gencode_single : (genCodes .single 0x41 (blankNodes.set 0x41 (.leaf 10))).get 0x41 = [false] := by
  decide +kernel
/-- Vector K1. -/
theorem test_cget :
    after (exec (.cget 0x63) (t1State State.reset)) (fun t => (t.res0, t.codew.get 0, t.codew.get 7)) =
      some (3, 0xA0000000, 0) := by decide +kernel
/-- Vector K6: the code of byte 1 in the chain tree, 254 zeros and a 1. -/
theorem test_cget_longest :
    after (exec (.cget 1) { State.reset with
        codeV := true, code := blankCodes.set 1 (List.replicate 254 false ++ [true]) })
      (fun t => (t.res0, t.codew.get 0, t.codew.get 7)) = some (255, 0, 2) := by decide +kernel

/-! ### Packing and unpacking -/

/-- 45_bitpack.md R170's example. -/
theorem test_pack :
    after (exec .pack (t1State (windows 0x2000 9 0x3000 16 0 (withBytes [] 0x2000 text))))
      (fun t => (t.mem.readBytes 0x3000 4, t.outlen, t.pad, t.bitlenLo, t.bitlenHi, t.err)) =
      some ([0xFC, 0x5B, 0x00, 0x00], 3, 6, 18, 0, 0) := by decide +kernel
/-- Vector M7: NOCODE before DSTOVF, then DSTOVF with the size needed. -/
theorem test_pack_faults :
    after (exec .pack (t1State (windows 0x200 4 0x300 0 0 (withBytes [] 0x200 [0x61, 0x62, 0x78, 0x64]))))
      (fun t => (t.err, t.errinfo)) = some (6, 2) ∧
    after (exec .pack (t1State (windows 0x200 2 0x300 0 0 (withBytes [] 0x200 [0x61, 0x62, 0x78, 0x64]))))
      (fun t => (t.err, t.errinfo)) = some (7, 1) := by decide +kernel
/-- 45_bitpack.md R171's example. -/
theorem test_unpack :
    after (exec .unpack (t1State (windows 0x3000 3 0x4000 16 6 (withBytes [] 0x3000 [0xFC, 0x5B, 0x00]))))
      (fun t => (t.mem.readBytes 0x4000 9, t.outlen, t.err)) = some (text, 9, 0) := by decide +kernel
/-- Vectors X16 and X17: the single-leaf tree. -/
theorem test_unpack_single :
    after (exec .unpack (t3State (windows 0x3000 2 0x4000 16 6 (withBytes [] 0x3000 [0x00, 0x01]))))
      (fun t => (t.outlen, t.mem.read 0x4009, t.mem.read 0x400A)) = some (10, 0x41, 0) ∧
    after (exec .unpack (t3State (windows 0x3000 2 0x4000 16 6 (withBytes [] 0x3000 [0x00, 0x40]))))
      (fun t => (t.err, t.errinfo)) = some (8, 4) := by decide +kernel

/-! ### The host's side -/

/-- Vector C4. -/
theorem test_register_widths :
    after (idleTurn (.regWrite 0x18 0xFFFFFFFF) State.reset) (fun t => readReg t 0x18) = some 3 ∧
      after (idleTurn (.regWrite 0x54 0x1FF) State.reset) (fun t => readReg t 0x54) = some 0xFF ∧
      after (idleTurn (.regWrite 0x00 0) State.reset) (fun t => readReg t 0x00) = some 0x48554631 := by decide
/-- Vectors I1 and I4: the interrupt and its acknowledgement. -/
theorem test_irq :
    State.irq { State.reset with ien := 1, ipend := 1 } = true ∧ State.irq { State.reset with ien := 2, ipend := 1 } = false ∧
      clearPending 3 1 = 2 ∧ clearPending 3 0 = 3 := by decide
/-- Vector I7: a write while busy is dropped and logged. -/
theorem test_busy_write :
    after (step { State.reset with busy := true, left := 2, len := 9, script := [.regWrite 0x44 0] })
      (fun t => (t.len, t.errlog, t.busy)) = some (9, 0x80000000, true) := by decide
/-- A command that two host transactions land inside is accepted, and runs when they are used up (R112, R245). -/
theorem test_accept_delayed :
    after (step { State.reset with delays := [2], script := [.regWrite 0x04 0, .regRead 0x08] })
      (fun t => (t.status, t.left, t.cmdcnt)) = some (1, 2, 0) := by decide
theorem test_completes :
    after (step { State.reset with busy := true, left := 0, script := [.regRead 0x08] })
      (fun t => (t.status, t.cmdcnt, t.script)) = some (0, 1, [.regRead 0x08]) := by decide
/-- A host write into a window of the running command is a race. -/
theorem test_window_race :
    busyTurn (.memWrite 0x100 1) { windows 0x100 1 0 0 0 [] with
      busy := true, latched := { Latched.none with word := 0x13, src := 0x100, len := 1 } } =
      .fault (.windowRace 0x100) := by rfl

/-! ### Witnesses: states and operands that meet the hypotheses of the statements in Certificates/Slice0, each at the
boundary of its range where there is one -/

/-- The state a command answers. -/
def result (r : Result) : State :=
  match r with
  | .next t => t
  | .fault _ => State.reset
  | .refused _ => State.reset

theorem exec_result (i : Instr) (s : State) : exec i s = .next (result (exec i s)) := by
  obtain ⟨t, h⟩ := exec_answers i s
  rw [h]
  rfl

/-- Both windows are ready where CheckWindows finds nothing. -/
theorem ready_of_checked {s : State} (h : checkWindows s true = none) : SourceReady s ∧ DestReady s :=
  checkWindows_both_none.mp h

/-- The block with its host about to write `w` to CMD. -/
def about (w : Nat) (s : State) : State := s.withFetchWord 32 w

theorem issues_about (s : State) (w : Nat) :
    Issues (about w s) (BitVec.ofNat 32 (w % 2 ^ 32)) s.script := ⟨rfl, rfl, rfl⟩

theorem test_witness_decodeInvertsEncode :
    Instr.wellFormed (.tget 511) = true ∧ Instr.wellFormed (.fset 255) = true ∧ Instr.wellFormed .nop = true := by decide
theorem test_witness_decodeAcceptsOnlyEncodings : decode 0x0001FF31 = .ok (.tget 511) := by rfl
theorem test_witness_illegalWord :
    Issues (about 0xFFFFFFFF State.reset) 0xFFFFFFFF [] ∧ ∀ i : Instr, encode i ≠ 0xFFFFFFFF := by
  refine ⟨issues_about _ _, fun i => ?_⟩
  cases i with
  | fset sym | fget sym | cget sym => revert sym; decide +kernel
  | tget idx => revert idx; decide +kernel
  | nop | sreset | fclr | count | entropy | build | gencode | pack | unpack => decide
theorem test_witness_stepRuns :
    Issues (about 0x1FF31 State.reset) 0x1FF31 [] ∧ decode 0x1FF31 = .ok (.tget 511) ∧
      Instr.wellFormed (.tget 511) = true := ⟨issues_about _ _, rfl, rfl⟩
/-- The last clause's two ways to complete: no transaction left, with some in the script, and an empty script. -/
theorem test_witness_delayed :
    (∃ s : State, s.busy = false ∧ s.script = .regWrite 0x04 0x13 :: [] ∧ s.delays.headD 0 ≠ 0) ∧
      (∃ s : State, s.busy = true ∧ s.left = 0 ∧ s.script ≠ [] ∧ decode s.latched.word = .ok .count) ∧
      ∃ s : State, s.busy = true ∧ s.left = 3 ∧ s.script = [] ∧ s.latched.word = 0xFFFFFFFF ∧
        ∀ i : Instr, encode i ≠ s.latched.word :=
  ⟨⟨{ State.reset with script := [.regWrite 0x04 0x13], delays := [1] }, rfl, rfl, by decide⟩,
    ⟨{ State.reset with busy := true, script := [.wait], latched := { Latched.none with word := 0x13 } }, rfl, rfl,
      nofun, rfl⟩,
    { State.reset with busy := true, left := 3, latched := { Latched.none with word := 0xFFFFFFFF } }, rfl, rfl, rfl,
    rfl, test_witness_illegalWord.2⟩
theorem test_witness_idleEmpty : State.reset.busy = false ∧ State.reset.script = [] := ⟨rfl, rfl⟩
theorem test_witness_countsDown :
    ∃ s t : State, s.busy = true ∧ step s = .next t ∧ t.busy = true :=
  ⟨{ State.reset with busy := true, left := 1, script := [.wait] }, _, rfl, rfl, rfl⟩

theorem test_witness_faulting : ∃ t, exec .gencode State.reset = .next t ∧ t.err ≠ 0 := ⟨_, rfl, by decide⟩
theorem test_witness_completions :
    (∃ s t : State, runLatched s = .next t ∧ decode s.latched.word = .ok .sreset) ∧
      (∃ s t : State, s.cmdcnt = 0xFFFFFFFF ∧ runLatched s = .next t ∧ decode s.latched.word = .ok .nop) ∧
      ∃ s t : State, runLatched s = .next t ∧ decode s.latched.word = .error (.unlistedOp 2) :=
  ⟨⟨{ State.reset with latched := { Latched.none with word := 1 } }, _, rfl, rfl⟩,
    ⟨{ State.reset with cmdcnt := 0xFFFFFFFF }, _, rfl, rfl, rfl⟩,
    { State.reset with latched := { Latched.none with word := 2 } }, _, rfl, rfl⟩
theorem test_witness_prerequisite : State.reset.tkind = .none ∧ State.reset.codeV = false := ⟨rfl, rfl⟩

/-- A state in which every command with windows reaches its window checks. -/
def checking (src len dst dcap : Word) : State := t1State (windows src len dst dcap 0 [])

theorem reaches_checking (src len dst dcap : Word) (h : len ≠ 0) {i : Instr} (hi : readsSource i = true) :
    ReachesWindows (checking src len dst dcap) i := by
  cases i with
  | count => trivial
  | entropy => exact h
  | pack => exact rfl
  | unpack => exact ⟨nofun, Nat.zero_le _, Nat.zero_le _⟩
  | nop | sreset | fclr | fset _ | fget _ | build | tget _ | gencode | cget _ => cases hi

theorem test_witness_windowAddr :
    let s := checking 0xFFFFFFFF 2 0 0
    let u := checking 0 1 0xFFFFFFFF 2
    ReachesWindows s .count ∧ 4294967296 < s.latched.src.toNat + s.latched.len.toNat ∧
    ReachesWindows u .pack ∧ u.latched.src.toNat + u.latched.len.toNat ≤ 4294967296 ∧ writesDest .pack = true ∧
      4294967296 < u.latched.dst.toNat + u.latched.dcap.toNat :=
  ⟨reaches_checking _ _ _ _ (by decide) rfl, by decide, reaches_checking _ _ _ _ (by decide) rfl, by decide, rfl,
    by decide⟩
theorem test_witness_windowOverlap :
    let s := checking 0x100 2 0x101 1
    ReachesWindows s .unpack ∧ s.latched.src.toNat + s.latched.len.toNat ≤ 4294967296 ∧ writesDest .unpack = true ∧
      s.latched.dst.toNat + s.latched.dcap.toNat ≤ 4294967296 ∧
      ∃ a, inWindow a s.latched.src.toNat s.latched.len.toNat = true ∧
        inWindow a s.latched.dst.toNat s.latched.dcap.toNat = true :=
  ⟨reaches_checking _ _ _ _ (by decide) rfl, by decide, rfl, by decide, 0x101, by decide, by decide⟩
theorem lowestUnbacked_hole : LowestUnbacked [⟨0x8000, 0x1000⟩] 0x7FFE 3 0x8000 where
  lower := by decide
  upper := by decide
  unbacked := by decide
  lowest b _ h := by simp only [memOk, inWindow, List.any_cons, List.any_nil]; simp; omega
theorem test_witness_windowBusSource :
    let s := { checking 0x7FFE 3 0x100 1 with holes := [⟨0x8000, 0x1000⟩] }
    ReachesWindows s .pack ∧ s.latched.src.toNat + s.latched.len.toNat ≤ 4294967296 ∧
      (writesDest .pack = true → s.latched.dst.toNat + s.latched.dcap.toNat ≤ 4294967296 ∧
        ∀ b, ¬(inWindow b s.latched.src.toNat s.latched.len.toNat = true ∧
          inWindow b s.latched.dst.toNat s.latched.dcap.toNat = true)) ∧
      LowestUnbacked s.holes s.latched.src.toNat s.latched.len.toNat 0x8000 := by
  refine ⟨rfl, by decide, fun _ => ⟨by decide, fun b => ?_⟩, lowestUnbacked_hole⟩
  simp [inWindow, checking, t1State, windows]
  omega
theorem test_witness_windowBusDest :
    let s := { checking 0x100 1 0x7FFE 3 with holes := [⟨0x8000, 0x1000⟩] }
    ReachesWindows s .pack ∧ SourceReady s ∧ writesDest .pack = true ∧
      s.latched.dst.toNat + s.latched.dcap.toNat ≤ 4294967296 ∧
      (∀ b, ¬(inWindow b s.latched.src.toNat s.latched.len.toNat = true ∧
        inWindow b s.latched.dst.toNat s.latched.dcap.toNat = true)) ∧
      LowestUnbacked s.holes s.latched.dst.toNat s.latched.dcap.toNat 0x8000 := by
  refine ⟨rfl, checkWindows_source_none.mp (by decide), rfl, by decide, fun b => ?_, lowestUnbacked_hole⟩
  simp [inWindow, checking, t1State, windows]
  omega

/-- Where ADDR, OVERLAP and BUS are raised: an empty source window with a destination past the end, an empty destination
window with a source past the end, two windows that share one byte, and an unbacked byte. -/
theorem test_witness_windowCodes :
    after (exec .pack (checking 0 0 0xFFFFFFFF 2)) (fun t => (t.err, t.errinfo)) = some (3, 1) ∧
      after (exec .unpack (checking 0xFFFFFFFF 2 0 0)) (fun t => (t.err, t.errinfo)) = some (3, 0) ∧
      after (exec .pack (checking 0x100 2 0x101 1)) (fun t => (t.err, t.errinfo)) = some (4, 0) ∧
      after (exec .pack { checking 0x100 1 0x7FFE 3 with holes := [⟨0x8000, 0x1000⟩] })
        (fun t => (t.err, t.errinfo)) = some (9, 0x8000) ∧
      ∀ a, memOk (checking 0 0 0 0).holes a = true := by
  refine ⟨by decide +kernel, by decide +kernel, by decide +kernel, by decide +kernel, fun _ => rfl⟩

theorem test_witness_fsetOrder :
    ∃ s1 s2 t1 t2 : State, (0x41 : BitVec 8) ≠ 0x42 ∧
      exec (.fset 0x41) { State.reset with latched := { State.reset.latched with arg := 3 } } = .next s1 ∧
      exec (.fset 0x42) { s1 with latched := { State.reset.latched with arg := 5 } } = .next s2 ∧
      exec (.fset 0x42) { State.reset with latched := { State.reset.latched with arg := 5 } } = .next t1 ∧
      exec (.fset 0x41) { t1 with latched := { State.reset.latched with arg := 3 } } = .next t2 :=
  ⟨_, _, _, _, by decide, rfl, rfl, rfl, rfl⟩
theorem test_witness_fset : t1Valid.get 0x61 = true ∧ t1Valid.get 0x65 = false := by decide +kernel
theorem test_witness_count :
    SourceReady (windows 0xFFFFFFFF 1 0 0 0 []) ∧ SourceReady (windows 0 0 0 0 0 []) :=
  ⟨checkWindows_source_none.mp (by decide), checkWindows_source_none.mp (by decide)⟩

theorem test_witness_entropy :
    let s := windows 0xFFFFFFFD 3 0 0 0 (withBytes [] 0xFFFFFFFD [7, 7, 7])
    s.latched.len ≠ 0 ∧ SourceReady s ∧ ∀ j, j < s.latched.len.toNat → sourceByte s j = sourceByte s 0 :=
  ⟨by decide, checkWindows_source_none.mp (by decide), by decide⟩
theorem test_witness_entropyCounts :
    let s := windows 0x100 2 0 0 0 (withBytes [] 0x100 [1, 2])
    let u := { windows 0x200 2 0 0 0 (withBytes [] 0x200 [2, 1]) with ent := 9 }
    ∃ t v, exec .entropy s = .next t ∧ exec .entropy u = .next v ∧ t.err = 0 ∧ v.err = 0 ∧
      ∀ b : Byte, occurrences s b = occurrences u b := by
  refine ⟨_, _, execEntropy_ready (by decide) (checkWindows_source_none.mp (by decide)),
    execEntropy_ready (by decide) (checkWindows_source_none.mp (by decide)), rfl, rfl, by decide +kernel⟩
theorem test_witness_entropyEmpty :
    State.reset.latched.len = 0 ∧ Instr.count ≠ .entropy ∧ exec .count State.reset =
      .next (result (exec .count State.reset)) := ⟨rfl, nofun, exec_result _ _⟩

theorem test_witness_extraction :
    extractMin [⟨3, 0x61⟩, ⟨3, 257⟩, ⟨3, 256⟩] = some (⟨3, 256⟩, [⟨3, 0x61⟩, ⟨3, 257⟩]) := by decide
theorem test_witness_build :
    entries State.reset.valid = [] ∧ entries (t3State State.reset).valid = [0x41] ∧
      entries ((noEntries.set 0 true).set 255 true) = [0, 255] := by decide +kernel
/-- Two entries with equal counts, and with the larger count at the smaller byte value. -/
theorem test_witness_buildOrder :
    zeroCounts.get 0 ≤ zeroCounts.get 255 ∧ (zeroCounts.set 0 1).get 255 < (zeroCounts.set 0 1).get 0 := by
  decide +kernel
theorem test_witness_binaryTree :
    (entries (t3State State.reset).valid).length = 1 ∧ (entries (t1State State.reset).valid).length = 4 ∧
      exec .build (t1State State.reset) = .next (result (exec .build (t1State State.reset))) :=
  ⟨by decide +kernel, by decide +kernel, exec_result _ _⟩
/-- The second merge of vector T1 takes a leaf that was in the structure at the first. -/
theorem test_witness_laterChild :
    (entries (t1State State.reset).valid).length = 4 ∧ IsChild t1Nodes 257 (0x61 : BitVec 9).toNat ∧
      (0x61 : BitVec 9).toNat < 256 ∧ 257 ≤ 254 + 4 := by
  unfold IsChild
  decide +kernel
/-- The two entries 0 and 255, and any two code lengths of 1. -/
theorem test_witness_optimal :
    let s := { State.reset with valid := (noEntries.set 0 true).set 255 true }
    let t := result (exec .build s)
    2 ≤ (entries s.valid).length ∧ exec .build s = .next t ∧ exec .gencode t = .next (result (exec .gencode t)) ∧
      ((entries s.valid).map fun _ => (1 / 2 : ℚ) ^ 1).sum ≤ 1 := by
  have h : entries ((noEntries.set 0 true).set 255 true) = [0, 255] := test_witness_build.2.2
  refine ⟨by rw [h]; decide, exec_result _ _, exec_result _ _, ?_⟩
  rw [h]
  norm_num
/-- A leaf of the tree, the root, an index past the tree, and a byte value that is no entry. -/
theorem test_witness_tget :
    let s := t1State State.reset
    s.tkind ≠ .none ∧ 0 < s.nnode.toNat ∧ s.valid.get 0x61 = true ∧ 258 ≤ 254 + s.nent.toNat ∧ 2 ≤ s.nent.toNat ∧
      ¬259 ≤ 254 + s.nent.toNat ∧ s.valid.get 0x65 = false := by decide +kernel

theorem test_witness_gencode :
    (t1State State.reset).tkind ≠ .none ∧ 256 ≤ (t1State State.reset).root.toNat ∧
      (genCodes .multi 258 t1Nodes).get 0x64 ≠ [] ∧ (t3State State.reset).root.toNat ≤ 255 ∧
      (t3State State.reset).tkind ≠ .empty ∧ ({ State.reset with tkind := .empty } : State).tkind = .empty := by
  decide +kernel
theorem treeInv_t1 (s : State) : TreeInv (t1State s) := ⟨fun _ => test_build.symm, nofun⟩
theorem codeInv_t1 (s : State) : CodeInv (t1State s) := ⟨fun _ => ⟨nofun, test_gencode.symm⟩⟩
theorem codeLength_t1 (s : State) : CodeLengthInv (t1State s) := by
  have h : ∀ i, i < 256 → (t1Codes.get i).length ≤ 255 := by decide +kernel
  exact h
theorem test_witness_covers :
    TreeInv (t1State State.reset) ∧ (t1State State.reset).tkind ≠ .none ∧
      exec .gencode (t1State State.reset) = .next (result (exec .gencode (t1State State.reset))) :=
  ⟨treeInv_t1 _, nofun, exec_result _ _⟩
theorem test_witness_prefixFree :
    HasCode t1Codes 0x61 ∧ HasCode t1Codes 0x62 := by
  constructor <;> (unfold HasCode; decide +kernel)
theorem test_witness_complete : TreeInv (t1State State.reset) ∧ (t1State State.reset).tkind = .multi :=
  ⟨treeInv_t1 _, rfl⟩
theorem test_witness_cget :
    let code := (blankCodes.set 1 (List.replicate 255 true)).set 2 []
    (code.get 1).length ≤ 255 ∧ (code.get 2).length ≤ 255 ∧ (t1State State.reset).codeV = true := by decide +kernel

/-- PACK's example into a window of exactly the payload's three bytes, and into one byte less. -/
def packing (dcap : Word) : State := t1State (windows 0x2000 9 0x3000 dcap 0 (withBytes [] 0x2000 text))

theorem test_witness_pack :
    let s := packing 3
    CodeLengthInv s ∧ s.mem.wf = true ∧ s.codeV = true ∧ SourceReady s ∧ DestReady s ∧
      (∀ j, j < s.latched.len.toNat → HasCode s.code (sourceByte s j).toNat) ∧
      ((codeStream s).length + 7) / 8 ≤ s.latched.dcap.toNat := by
  obtain ⟨h1, h2⟩ := ready_of_checked (s := packing 3) (by decide)
  refine ⟨codeLength_t1 _, by decide +kernel, rfl, h1, h2, ?_, by decide +kernel⟩
  unfold HasCode
  decide +kernel
theorem test_witness_packErrors :
    let s := t1State (windows 0x200 2 0x300 0 0 (withBytes [] 0x200 [0x61, 0x78]))
    let u := packing 2
    (s.codeV = true ∧ SourceReady s ∧ DestReady s ∧ 1 < s.latched.len.toNat ∧
      ¬HasCode s.code (sourceByte s 1).toNat ∧ ∀ k, k < 1 → HasCode s.code (sourceByte s k).toNat) ∧
    u.codeV = true ∧ SourceReady u ∧ DestReady u ∧
      (∀ j, j < u.latched.len.toNat → HasCode u.code (sourceByte u j).toNat) ∧
      u.latched.dcap.toNat < ((codeStream u).length + 7) / 8 := by
  obtain ⟨h1, h2⟩ := ready_of_checked
    (s := t1State (windows 0x200 2 0x300 0 0 (withBytes [] 0x200 [0x61, 0x78]))) (by decide)
  obtain ⟨h3, h4⟩ := ready_of_checked (s := packing 2) (by decide)
  unfold HasCode
  exact ⟨⟨rfl, h1, h2, by decide, by decide +kernel, by decide +kernel⟩, rfl, h3, h4, by decide +kernel, by decide +kernel⟩

/-- The two bits of 0x61's code as the stream, followed by one bit more where `byte` has it. -/
def unpacking (byte : Byte) (padin : Byte) (dcap : Word) : State :=
  t1State (windows 0x3000 1 0x4000 dcap padin [(0x3000, byte)])

theorem path_t1 : IsPath t1Nodes 258 [true, true] 0x61 where
  moves := nofun
  arrives := by decide +kernel
  atLeaf := rfl
  through k h0 h := by
    have : k = 1 := by simp only [List.length_cons, List.length_nil] at h; omega
    subst this
    decide +kernel
theorem paths_t1 (byte padin : Byte) (dcap : Word) :
    List.Forall₂ (fun p (b : Byte) => IsPath (unpacking byte padin dcap).node (unpacking byte padin dcap).root p
      (b.setWidth 9)) [[true, true]] [0x61] := .cons path_t1 .nil
/-- The stream 11 with a window of one byte, and of none. -/
theorem test_witness_unpack :
    let s := unpacking 0xC0 6 1
    let u := unpacking 0xC0 6 0
    (s.mem.wf = true ∧ s.tkind = .multi ∧ s.latched.padin.toNat ≤ 7 ∧
      s.latched.padin.toNat ≤ 8 * s.latched.len.toNat ∧ SourceReady s ∧ DestReady s ∧
      remainingStream s = ([[true, true]] : List (List Bool)).flatten ∧ [(0x61 : Byte)].length ≤ s.latched.dcap.toNat) ∧
    u.mem.wf = true ∧ SourceReady u ∧ DestReady u ∧
      remainingStream u = ([[true, true]] : List (List Bool)).flatten ∧ u.latched.dcap.toNat < [(0x61 : Byte)].length := by
  obtain ⟨h1, h2⟩ := ready_of_checked (s := unpacking 0xC0 6 1) (by decide)
  obtain ⟨h3, h4⟩ := ready_of_checked (s := unpacking 0xC0 6 0) (by decide)
  exact ⟨⟨by decide, rfl, by decide, by decide, h1, h2, by decide +kernel, by decide⟩, by decide, h3, h4,
    by decide +kernel, by decide⟩
/-- The stream 11 followed by 1, which ends inside a path. -/
theorem test_witness_unpackTruncated :
    let s := unpacking 0xE0 5 1
    s.mem.wf = true ∧ SourceReady s ∧ DestReady s ∧
      remainingStream s = ([[true, true]] : List (List Bool)).flatten ++ [true] ∧
      (∀ k, 0 < k → k ≤ [true].length → isLeafIndex (follow s.node s.root ([true].take k)) = false) ∧
      follow s.node s.root [true] ≠ s.root := by
  obtain ⟨h1, h2⟩ := ready_of_checked (s := unpacking 0xE0 5 1) (by decide)
  refine ⟨by decide, h1, h2, by decide +kernel, fun k h0 h => ?_, by decide +kernel⟩
  have : k = 1 := by simp only [List.length_cons, List.length_nil] at h; omega
  subst this
  decide +kernel

/-- A leaf that a short path leads to, an entry and no entry, under the tree of vector T1. -/
theorem test_witness_gencodePaths :
    let s := t1State State.reset
    s.tkind ≠ .empty ∧ 256 ≤ s.root.toNat ∧ [true, true].length ≤ 255 ∧
      IsPath s.node s.root [true, true] ((0x61 : BitVec 8).setWidth 9) ∧ TreeInv s ∧ s.tkind = .multi ∧
      s.valid.get 0x61 = true ∧ s.valid.get 0x65 = false :=
  ⟨nofun, by decide, by decide, path_t1, treeInv_t1 _, rfl, by decide +kernel, by decide +kernel⟩

/-- Ten bits of a single-leaf stream (vector X16), and the same with its second bit 1 (X17). -/
def unpackingSingle (bytes : List Byte) : State := t3State (windows 0x3000 2 0x4000 10 6 (withBytes [] 0x3000 bytes))

theorem test_witness_unpackSingle :
    let s := unpackingSingle [0, 0x01]
    let u := unpackingSingle [0x40, 0]
    (s.mem.wf = true ∧ s.tkind = .single ∧ s.root.toNat ≤ 255 ∧ s.latched.padin.toNat ≤ 7 ∧
      s.latched.padin.toNat ≤ 8 * s.latched.len.toNat ∧ SourceReady s ∧ DestReady s ∧
      (∀ p, p < remainingCount s → streamBit s.mem s.latched.src.toNat p = false) ∧
      remainingCount s ≤ s.latched.dcap.toNat) ∧
    u.mem.wf = true ∧ SourceReady u ∧ DestReady u ∧
      ∃ p, p < remainingCount u ∧ streamBit u.mem u.latched.src.toNat p = true := by
  obtain ⟨h1, h2⟩ := ready_of_checked (s := unpackingSingle [0, 0x01]) (by decide)
  obtain ⟨h3, h4⟩ := ready_of_checked (s := unpackingSingle [0x40, 0]) (by decide)
  exact ⟨⟨by decide, rfl, by decide, by decide, by decide, h1, h2, by decide +kernel, by decide⟩, by decide, h3, h4, 1,
    by decide, by decide +kernel⟩
/-- Ten zero bits and a window of nine bytes. -/
theorem test_witness_unpackSingleOverflow :
    let s := t3State (windows 0x3000 2 0x4000 9 6 [])
    s.mem.wf = true ∧ s.tkind = .single ∧ SourceReady s ∧ DestReady s ∧
      (∀ p, p < remainingCount s → streamBit s.mem s.latched.src.toNat p = false) ∧
      s.latched.dcap.toNat < remainingCount s := by
  obtain ⟨h1, h2⟩ := ready_of_checked (s := t3State (windows 0x3000 2 0x4000 9 6 [])) (by decide)
  exact ⟨rfl, rfl, h1, h2, by decide +kernel, by decide⟩
theorem test_witness_unpackPadding :
    let s := t1State (windows 0 1 0 0 8 [])
    let u := t1State (windows 0 0 0 0 1 [])
    let e := { windows 0x3000 1 0 0 7 [] with tkind := .empty }
    let z := { windows 0 0 0 0 0 [] with tkind := .empty }
    (s.tkind ≠ .none ∧ 7 < s.latched.padin.toNat) ∧
    (u.tkind ≠ .none ∧ u.latched.padin.toNat ≤ 7 ∧ 8 * u.latched.len.toNat < u.latched.padin.toNat) ∧
    (e.tkind = .empty ∧ e.latched.padin.toNat ≤ 7 ∧ e.latched.padin.toNat < 8 * e.latched.len.toNat ∧ SourceReady e ∧
      DestReady e) ∧
    z.tkind = .empty ∧ z.latched.padin = 0 ∧ z.latched.len = 0 ∧ SourceReady z ∧ DestReady z := by
  obtain ⟨h1, h2⟩ := ready_of_checked (s := { windows 0x3000 1 0 0 7 [] with tkind := .empty }) (by decide)
  obtain ⟨h3, h4⟩ := ready_of_checked (s := { windows 0 0 0 0 0 [] with tkind := .empty }) (by decide)
  exact ⟨⟨nofun, by decide⟩, ⟨nofun, by decide, by decide⟩, ⟨rfl, by decide, by decide, h1, h2⟩, rfl, rfl, rfl, h3, h4⟩

/-- Another block that holds PACK's example payload (vectors P1 and X1), its window exactly the nine bytes. -/
def unpackingExample : State :=
  t1State (windows 0x5000 3 0x6000 9 6 (withBytes [] 0x5000 [0xFC, 0x5B, 0x00]))

theorem test_witness_roundTrip :
    let s := packing 3
    let u := unpackingExample
    ∃ t, TreeInv s ∧ CodeInv s ∧ s.mem.wf = true ∧ exec .pack s = .next t ∧ t.err = 0 ∧ SameTree s u ∧
      u.mem.wf = true ∧ u.latched.len = t.outlen ∧ u.latched.padin.toNat = t.pad.toNat ∧
      (∀ k, k < t.outlen.toNat → sourceByte u k = t.mem.read (s.latched.dst.toNat + k)) ∧
      SourceReady u ∧ DestReady u ∧ s.latched.len.toNat ≤ u.latched.dcap.toNat := by
  obtain ⟨h1, h2⟩ := ready_of_checked (s := unpackingExample) (by decide)
  exact ⟨result (exec .pack (packing 3)), treeInv_t1 _, codeInv_t1 _, by decide +kernel, exec_result _ _,
    by decide +kernel, ⟨rfl, rfl, rfl, rfl⟩, by decide +kernel, by decide +kernel, by decide +kernel,
    by decide +kernel, h1, h2, by decide⟩
/-- The other way: UNPACK's example, then PACK of its nine bytes into exactly three. -/
theorem test_witness_roundTripBack :
    let s := unpackingExample
    let u := packing 3
    ∃ t, TreeInv s ∧ CodeInv s ∧ s.codeV = true ∧ s.mem.wf = true ∧ exec .unpack s = .next t ∧ t.err = 0 ∧
      (∀ p, remainingCount s ≤ p → p < 8 * s.latched.len.toNat → streamBit s.mem s.latched.src.toNat p = false) ∧
      SameCodes s u ∧ u.mem.wf = true ∧ u.latched.len = t.outlen ∧
      (∀ k, k < t.outlen.toNat → sourceByte u k = t.mem.read (s.latched.dst.toNat + k)) ∧
      SourceReady u ∧ DestReady u ∧ s.latched.len.toNat ≤ u.latched.dcap.toNat := by
  obtain ⟨h1, h2⟩ := ready_of_checked (s := packing 3) (by decide)
  have hp : ∀ p, p < 24 → 18 ≤ p →
      streamBit unpackingExample.mem unpackingExample.latched.src.toNat p = false := by decide +kernel
  exact ⟨result (exec .unpack unpackingExample), treeInv_t1 _, codeInv_t1 _, rfl, by decide +kernel, exec_result _ _,
    by decide +kernel, fun p h h' => hp p h' h, ⟨rfl, rfl⟩, by decide +kernel, by decide +kernel,
    by decide +kernel, h1, h2, by decide⟩

theorem test_witness_keepsTreeAndCodes :
    exec .nop (t1State State.reset) = .next (result (exec .nop (t1State State.reset))) ∧
      exec .gencode (t1State State.reset) = .next (result (exec .gencode (t1State State.reset))) :=
  ⟨exec_result _ _, exec_result _ _⟩
/-- The rules over all commands: a PACK that completes and its source window, and a command that changes the table. -/
theorem test_witness_overAllCommands :
    exec .pack (packing 3) = .next (result (exec .pack (packing 3))) ∧ (result (exec .pack (packing 3))).err = 0 ∧
      inWindow 0x2008 (packing 3).latched.src.toNat (packing 3).latched.len.toNat = true ∧
      exec .fclr (t1State State.reset) = .next (result (exec .fclr (t1State State.reset))) ∧
      (result (exec .fclr (t1State State.reset))).err = 0 ∧
      ¬SameTable (t1State State.reset) (result (exec .fclr (t1State State.reset))) := by
  refine ⟨exec_result _ _, by decide +kernel, by decide, exec_result _ _, rfl, fun h => ?_⟩
  have : (result (exec .fclr (t1State State.reset))).nent = (t1State State.reset).nent := h.nent
  revert this
  decide
/-- A step that does not reset, and each of the three that do. -/
theorem test_witness_sticky :
    (∃ s : State, ¬Resets s ∧ s.errlog.getLsbD 31 = true ∧ step s = .next (result (step s))) ∧
    (∃ s : State, s.busy = true ∧ s.left = 1 ∧ Resets s ∧ step s = .next (result (step s))) ∧
    (Resets (about 1 State.reset) ∧ step (about 1 State.reset) = .next (result (step (about 1 State.reset)))) ∧
    ∃ s : State, s.script = [.hardReset] ∧ s.busy = true ∧ Resets s ∧ step s = .next (result (step s)) := by
  refine ⟨⟨{ State.reset with errlog := 0x80000000, script := [.regRead 0] }, ?_, by decide, rfl⟩,
    ⟨{ State.reset with busy := true, left := 1, latched := { Latched.none with word := 1 } }, rfl, rfl,
      .inl ⟨rfl, .inr rfl, rfl⟩, rfl⟩,
    ⟨.inr (.inl ⟨_, issues_about _ 1⟩), rfl⟩,
    ⟨{ State.reset with busy := true, left := 1, script := [.hardReset] }, rfl, rfl,
      .inr (.inr ⟨[], fun _ => by decide, rfl⟩), rfl⟩⟩
  rintro (⟨h, _⟩ | ⟨_, _, h, _⟩ | ⟨_, _, h⟩)
  · cases h
  · cases h
  · cases h
/-- One state that meets every invariant, with a table, a tree and a code table, before a step. -/
theorem test_witness_invariants :
    let s := about 0x30 (t1State State.reset)
    TableInv s ∧ TreeInv s ∧ CodeInv s ∧ RecordInv s ∧ s.mem.wf = true ∧ CodeLengthInv s ∧ EntInv s ∧ LatchInv s ∧
      step s = .next (result (step s)) := by
  have h1 : (4 : BitVec 9).toNat = t1Valid.cells.count true := by decide +kernel
  have h2 : ∀ i, i < 256 → t1Valid.get i = false → t1Freq.get i = 0 := by decide +kernel
  exact ⟨⟨h1, h2⟩, ⟨fun _ => test_build.symm, nofun⟩, ⟨fun _ => ⟨nofun, test_gencode.symm⟩⟩,
    ⟨by decide, fun h => absurd rfl h, fun j h => absurd h (by simp [about, State.withFetchWord, t1State, State.reset])⟩,
    rfl, codeLength_t1 State.reset, by unfold EntInv; decide, nofun, exec_result .build _⟩
/-- A running command whose latched operands equal the registers. -/
theorem test_witness_latch :
    let s := { State.reset with busy := true, left := 1, script := [.regWrite 0x44 7] }
    LatchInv s ∧ s.busy = true ∧ step s = .next (result (step s)) := ⟨fun _ => rfl, rfl, rfl⟩

theorem test_witness_registers :
    let r := { State.reset with script := [.regRead 0xFC] }
    let w := { State.reset with ipend := 3, script := [.regWrite 0x1C 1] }
    (r.busy = false ∧ 0xFC % 4 = 0 ∧ 0xFC < 256 ∧ r.script = .regRead 0xFC :: []) ∧
    (w.busy = false ∧ 0x1C % 4 = 0 ∧ 0x1C < 256 ∧ (0x1C : Nat) ≠ 0x04 ∧ w.script = .regWrite 0x1C 1 :: []) ∧
    writableMask 0x54 = some 0xFF ∧ writableMask 0x58 = none :=
  ⟨⟨rfl, rfl, by decide, rfl⟩, ⟨rfl, rfl, by decide, by decide, rfl⟩, rfl, rfl⟩
/-- The host's accesses to MEM and its misplaced register accesses, at the top of each range. -/
theorem test_witness_idleHost :
    (State.reset.busy = false ∧ State.reset.mem.wf = true) ∧
    after (step { State.reset with mem := [(0xFFFFFFFF, 7)], script := [.memRead 0xFFFFFFFF] })
      (fun t => (t.hostData, t.script)) = some (7, []) ∧
    after (step { State.reset with script := [.memWrite 0xFFFFFFFF 7] }) (fun t => t.mem) = some [(0xFFFFFFFF, 7)] ∧
    ((0x0A : Nat) % 4 ≠ 0 ∧ (256 : Nat) ≤ 0x100) ∧
    step { State.reset with script := [.regWrite 0x100 0] } = .refused (.registerAccess 0x100) :=
  ⟨⟨rfl, rfl⟩, by decide, by decide, by decide, rfl⟩
/-- WAIT and CHECK by an idle block: CHECK ends the script on an error. -/
theorem test_witness_waitCheck :
    after (step { t1State State.reset with script := [.wait, .check] }) (fun t => (t.hostData, t.script)) =
      some (0xE, [.check]) ∧
    after (step { State.reset with err := 5, script := [.check, .wait] }) (fun t => (t.hostData, t.script)) =
      some (5, []) := by decide
theorem test_witness_irq :
    let s := { State.reset with ipend := 3 }
    ((1 : Word).getLsbD 0 = true ∧ s.ipend.getLsbD 0 = true) ∧ (2 : Word).getLsbD 1 = true ∧ s.ipend.getLsbD 1 = true := by
  decide
theorem test_witness_busyRegisters :
    let w := { State.reset with busy := true, left := 1, script := [.regWrite 0x04 1] }
    let r := { State.reset with busy := true, left := 1, script := [.regRead 0x08] }
    (w.busy = true ∧ 0 < w.left ∧ w.script = .regWrite 0x04 1 :: []) ∧
      r.busy = true ∧ 0 < r.left ∧ r.script = .regRead 0x08 :: [] := by decide
/-- A running PACK with windows [0x100, 0x102) and [0x200, 0x203): the last byte of each, and the byte past it. -/
def runningPack (txn : HostTxn) : State :=
  { State.reset with
    busy := true, left := 1, script := [txn]
    latched := { Latched.none with word := 0x40, src := 0x100, len := 2, dst := 0x200, dcap := 3 } }

theorem owned_runningPack (txn : HostTxn) (a : Nat) :
    (OwnedSource (runningPack txn) a ↔ inRunningSource (runningPack txn) a = true) ∧
      (OwnedDest (runningPack txn) a ↔ inRunningDest (runningPack txn) a = true) :=
  ⟨inRunningSource_iff.symm, inRunningDest_iff.symm⟩

theorem test_witness_busyMemory :
    let s := runningPack (.memWrite 0x101 1)
    let d := runningPack (.memWrite 0x202 1)
    let f := runningPack (.memWrite 0x102 1)
    let g := runningPack (.memRead 0x203)
    (s.busy = true ∧ 0 < s.left ∧ s.mem.wf = true ∧ OwnedSource s 0x101 ∧ OwnedDest d 0x202) ∧
      ¬OwnedSource f 0x102 ∧ ¬OwnedDest f 0x102 ∧ ¬OwnedDest g 0x203 ∧ OwnedDest g 0x200 := by
  refine ⟨⟨rfl, by decide, rfl, (owned_runningPack _ _).1.mpr (by decide), (owned_runningPack _ _).2.mpr (by decide)⟩,
    fun h => ?_, fun h => ?_, fun h => ?_, (owned_runningPack _ _).2.mpr (by decide)⟩
  · exact absurd ((owned_runningPack _ _).1.mp h) (by decide)
  · exact absurd ((owned_runningPack _ _).2.mp h) (by decide)
  · exact absurd ((owned_runningPack _ _).2.mp h) (by decide)
theorem test_witness_busyStops :
    step (runningPack (.memWrite 0x202 1)) = .fault (.windowRace 0x202) ∧
      step (runningPack (.regWrite 0x0A 1)) = .refused (.registerAccess 0x0A) ∧
      step (runningPack (.regRead 0x100)) = .refused (.registerAccess 0x100) ∧
      after (step (runningPack .wait)) (fun t => (t.hostData, t.script, t.left)) = some (1, [.wait], 0) :=
  ⟨rfl, rfl, rfl, by decide⟩
/-- The first offset past CMDCNT and the last of the window, read while BUSY = 1. -/
theorem test_witness_busyUnmapped :
    after (step (runningPack (.regRead 0x24))) (fun t => (t.hostData, t.draws)) = some (0, 0) ∧
      after (step (runningPack (.regRead 0xFC))) (fun t => (t.hostData, t.draws)) = some (0, 0) := by decide
theorem test_witness_busyCheck :
    (runningPack .check).busy = true ∧ 0 < (runningPack .check).left ∧ (runningPack .check).script = .check :: [] := by
  decide
theorem test_witness_hardReset :
    let i := { State.reset with script := [.hardReset] }
    let b := { t1State (windows 0 0 0x3000 2 0 []) with
      busy := true, left := 1, script := [.hardReset]
      latched := { Latched.none with word := 0x41, dst := 0x3000, dcap := 2 } }
    ((i.busy = true → 0 < i.left) ∧ i.busy = false ∧ i.script = .hardReset :: []) ∧
      (b.busy = true → 0 < b.left) ∧ b.script = .hardReset :: [] ∧
      inRunningDest b 0x3001 = true ∧ inRunningDest b 0x3002 = false := by decide

end Sys2Proof.Tests
end

section
/-! The command counter (10_state.md R46): what a completion and SRESET leave in CMDCNT. -/

namespace Sys2Proof.Machine

/-- Every command but SRESET completes through `complete` or `raise`, which add the one. -/
theorem exec_cmdcnt {i : Instr} {s t : State} (hi : i ≠ .sreset) (h : exec i s = .next t) :
    t.cmdcnt = s.cmdcnt + 1 := by
  obtain ⟨e, info, rfl⟩ | ⟨hsreset, _⟩ | ⟨_, u, rfl, _, _, hcnt, _, _⟩ := exec_inv h
  · exact raise_cmdcnt e info s
  · exact absurd hsreset hi
  · rw [complete_cmdcnt, hcnt]

theorem runLatched_sreset {s : State} (hd : decode s.latched.word = .ok .sreset) :
    runLatched s = .next (blockReset s) := by
  simp only [runLatched, hd]
  rfl

theorem runLatched_cmdcnt {s t : State} (hd : decode s.latched.word ≠ .ok .sreset) (h : runLatched s = .next t) :
    t.cmdcnt = s.cmdcnt + 1 := by
  obtain ⟨i, hi, hexec⟩ | ⟨_, _, rfl⟩ := runLatched_inv h
  · exact exec_cmdcnt (fun hs => hd (hs ▸ hi)) hexec
  · exact raise_cmdcnt .illcmd _ s

/-- Settles O9: a completion counts whichever way it ends, and SRESET takes CMDCNT from the reset state. -/
theorem completionsAreCounted : Obligations.CompletionsAreCounted := by
  unfold Obligations.CompletionsAreCounted
  refine ⟨fun s t h => ⟨fun hd => ?sreset, fun hd => ?counted⟩, fun s v => ⟨rfl, rfl⟩, rfl⟩
  case sreset =>
    obtain rfl : blockReset s = t := by simpa [runLatched_sreset hd] using h
    exact blockReset_cmdcnt s
  case counted =>
    rw [runLatched_cmdcnt hd h, BitVec.toNat_add]
    rfl

end Sys2Proof.Machine
end

section
/-! Control: the commands of 40_control.md, NOP's word and its frame (R110). -/

namespace Sys2Proof

/-- What an accepted word says: it selects a row of the opcode map, and the row builds the command
(30_encoding.md R93). -/
theorem decode_ok_inv {w : Word} {i : Instr} (h : decode w = .ok i) :
    ∃ r ∈ opcodeRows, r.selects w = true ∧ r.build w = i := by
  unfold decode at h
  split at h
  next r hfind =>
    have hsel : r.selects w = true := by simpa using List.find?_some hfind
    exact ⟨r, List.mem_of_find?_eq_some hfind, hsel, Except.ok.inj h⟩
  next => cases h

/-- The other 12 rows build a command of another constructor, whatever the word. -/
theorem row_builds_nop {r : OpcodeRow} {w : Word} (hr : r ∈ opcodeRows) (h : r.build w = .nop) :
    r.mask = 0xFFFFFFFF ∧ r.value = 0 := by
  simp only [opcodeRows, List.mem_cons, List.not_mem_nil, or_false] at hr
  obtain rfl | hr := hr
  · exact ⟨rfl, rfl⟩
  · rcases hr with rfl | rfl | rfl | rfl | rfl | rfl | rfl | rfl | rfl | rfl | rfl | rfl <;> cases h

/-- NOP's mask has every bit set, so a word that selects its row is the row's value. -/
theorem decode_eq_nop_iff {w : Word} : decode w = .ok .nop ↔ w = 0x00000000 := by
  constructor
  case mp =>
    intro h
    obtain ⟨r, hmem, hsel, hbuild⟩ := decode_ok_inv h
    obtain ⟨hmask, hvalue⟩ := row_builds_nop hmem hbuild
    have hand : w &&& BitVec.allOnes 32 = 0 := by
      simpa [OpcodeRow.selects, hmask, hvalue] using hsel
    rwa [BitVec.and_allOnes] at hand
  case mpr => rintro rfl; rfl

end Sys2Proof

namespace Sys2Proof.Machine

theorem exec_nop (s : State) : exec .nop s = .next (complete s) := rfl

/-- Settles O14: the map gives NOP one word, and NOP is `complete` alone. -/
theorem nopOnlyCompletes : Obligations.NopOnlyCompletes := by
  unfold Obligations.NopOnlyCompletes
  refine ⟨fun w => decode_eq_nop_iff, fun s => ⟨complete s, exec_nop s, complete_completedOk rfl rfl rfl,
    ?operands, ?table, ?tree, ?codes, ?res, complete_outlen s, ?packLength, complete_ent s, complete_codew s,
    fun a => by rw [complete_mem], ?rest⟩⟩
  all_goals constructor <;> rfl

end Sys2Proof.Machine
end

section
/-! The frequency table: FCLR and FGET, their words, their effect and their frame (42_freqtable.md R130, R132). -/

namespace Sys2Proof.Machine

@[simp] theorem zeroCounts_get {i : Nat} (h : i < 256) : zeroCounts.get i = 0 := Table.get_fill 0 h

@[simp] theorem noEntries_get {i : Nat} (h : i < 256) : noEntries.get i = false := Table.get_fill false h

theorem exec_fclr (s : State) :
    exec .fclr s = .next (complete (invalidate { s with freq := zeroCounts, valid := noEntries, nent := 0 })) := rfl

/-- Settles O16: the new table is blank entry by entry, `invalidate` drops tree and codes, and neither it nor `complete`
writes anything else. -/
theorem fclrEmptiesTheTable : Obligations.FclrEmptiesTheTable := by
  unfold Obligations.FclrEmptiesTheTable
  refine ⟨rfl, rfl, fun s => ⟨_, exec_fclr s, complete_completedOk rfl rfl rfl,
    fun i hi => ⟨zeroCounts_get hi, noEntries_get hi⟩, rfl, rfl, rfl, rfl, rfl, rfl, rfl,
    ?operands, ?res, rfl, ?packLength, rfl, rfl, fun _ => rfl, ?rest⟩⟩
  all_goals constructor <;> rfl

theorem exec_fget (sym : BitVec 8) (s : State) :
    exec (.fget sym) s = .next (complete { s with
      res0 := s.freq.get sym.toNat
      res1 := (BitVec.ofBool (s.valid.get sym.toNat)).setWidth 32
      res2 := 0 }) := rfl

/-- A flag widened to a register reads as 0 or 1. -/
theorem toNat_setWidth_ofBool (b : Bool) : ((BitVec.ofBool b).setWidth 32).toNat = b.toNat := by
  cases b <;> rfl

/-- Settles O19: the entry read goes to RES0 and RES1, and every table is the one FGET found. -/
theorem fgetReadsOneEntry : Obligations.FgetReadsOneEntry := by
  unfold Obligations.FgetReadsOneEntry
  refine fun s sym => ⟨rfl, _, exec_fget sym s, complete_completedOk rfl rfl rfl,
    rfl, toNat_setWidth_ofBool _, rfl,
    ?operands, ?table, ?tree, ?codes, rfl, ?packLength, rfl, rfl, fun _ => rfl, ?rest⟩
  all_goals constructor <;> rfl

end Sys2Proof.Machine
end

section
/-! CGET: its word, the bits of a left-aligned code, and its two ways to complete (44_codetable.md R161). -/

namespace Sys2Proof.Machine

theorem bitsToNat_concat (bits : List Bool) (b : Bool) : bitsToNat (bits ++ [b]) = Nat.bit b (bitsToNat bits) := by
  rw [bitsToNat, List.foldl_append, Nat.bit_val]
  rfl

/-- Bit j of the number a bit-string spells is the string's position j from its end (00_scope.md R7). -/
theorem testBit_bitsToNat (bits : List Bool) (j : Nat) : (bitsToNat bits).testBit j = bits.reverse.getD j false := by
  induction bits using List.reverseRecOn generalizing j with
  | nil => simp [bitsToNat]
  | append_singleton bits b ih =>
    rw [bitsToNat_concat, List.reverse_concat]
    cases j with
    | zero => exact Nat.testBit_bit_zero b _
    | succ j => rw [Nat.testBit_bit_succ, ih, List.getD_cons_succ]

/-- A string of exactly 32 bits in a word: position j is bit 31 - j. -/
theorem getLsbD_ofNat_bitsToNat {bits : List Bool} (hlen : bits.length = 32) {j : Nat} (hj : j < 32) :
    (BitVec.ofNat 32 (bitsToNat bits)).getLsbD (31 - j) = bits.getD j false := by
  have hbit : 31 - j < 32 := by omega
  have hpos : bits.length - 1 - (31 - j) = j := by omega
  rw [BitVec.getLsbD_ofNat, decide_eq_true hbit, Bool.true_and, testBit_bitsToNat, List.getD_eq_getElem?_getD,
    List.getElem?_reverse (by omega), hpos, List.getD_eq_getElem?_getD]

/-- Zeros put after a bit-string change no position's reading, its reading past the end being 0. -/
theorem getD_append_zeros (bits : List Bool) (n i : Nat) :
    (bits ++ List.replicate n false).getD i false = bits.getD i false := by
  obtain h | h := Nat.lt_or_ge i bits.length
  · rw [List.getD_append _ _ _ _ h]
  · rw [List.getD_append_right _ _ _ _ h, List.getD_eq_getElem?_getD, List.getElem?_getD_replicate_default_eq,
      List.getD_eq_default _ _ h]

/-- Position i of a bit-string, zeros past its end, is bit 31 - (i mod 32) of word i div 32 (10_state.md R37). -/
theorem getLsbD_alignedWord (bits : List Bool) {i : Nat} (hi : i < 256) :
    (alignedWord bits (i / 32)).getLsbD (31 - i % 32) = bits.getD i false := by
  have hmod : i % 32 < 32 := Nat.mod_lt i (by decide)
  rw [alignedWord, getLsbD_ofNat_bitsToNat ?width hmod]
  case width =>
    simp only [List.length_take, List.length_drop, List.length_append, List.length_replicate]
    omega
  rw [← getD_append_zeros bits (256 - bits.length) i]
  simp only [List.getD_eq_getElem?_getD, List.getElem?_take_of_lt hmod, List.getElem?_drop, Nat.div_add_mod]

theorem exec_cget_noCodes {s : State} (hv : s.codeV = false) (sym : BitVec 8) :
    exec (.cget sym) s = .next (raise .state 0 s) := by
  simp only [exec, execCget, hv, if_true, faulting]

theorem exec_cget_codes {s : State} (hv : s.codeV = true) (sym : BitVec 8) :
    exec (.cget sym) s = .next (complete { s with
      res0 := BitVec.ofNat 32 (s.code.get sym.toNat).length
      res1 := 0
      res2 := 0
      codew := .tabulate 8 (alignedWord (s.code.get sym.toNat)) }) := by
  simp only [exec, execCget, hv, Bool.true_eq_false, if_false]

/-- Settles O33: each of the eight words is `alignedWord` of the code, read bit by bit; the length fits RES0. -/
theorem cgetLeftAlignsTheCode : Obligations.CgetLeftAlignsTheCode := by
  unfold Obligations.CgetLeftAlignsTheCode
  refine fun s sym => ⟨rfl, fun hv => ⟨_, exec_cget_noCodes hv sym, raise_faultedWith .state 0 s⟩, fun hv hlen =>
    ⟨_, exec_cget_codes hv sym, complete_completedOk rfl rfl rfl, ?length, rfl, rfl, fun i hi => ?bits,
      ?operands, ?table, ?tree, ?codes, rfl, ?packLength, rfl, fun _ => rfl, ?rest⟩⟩
  case length =>
    rw [complete_res0]
    exact Nat.mod_eq_of_lt (by omega : (s.code.get sym.toNat).length < 2 ^ 32)
  case bits =>
    have hword : i / 32 < 8 := by omega
    rw [complete_codew, Table.get_tabulate _ hword, getLsbD_alignedWord _ hi]
  all_goals constructor <;> rfl

end Sys2Proof.Machine
end

section
/-! UNPACK: the stream it decodes, its ways to complete once its windows are ready, and the SINGLE tree
(45_bitpack.md R171, R172; 60_exceptions.md R208). -/

namespace Sys2Proof.Machine

theorem length_remainingStream (s : State) : (remainingStream s).length = remainingCount s := by
  rw [remainingStream, List.length_map, List.length_range]

theorem mem_remainingStream {s : State} {b : Bool} :
    b ∈ remainingStream s ↔ ∃ p, p < remainingCount s ∧ streamBit s.mem s.latched.src.toNat p = b := by
  simp only [remainingStream, List.mem_map, List.mem_range]

/-- What the model cuts off the expanded source bytes is the stream read bit by bit from MEM. -/
theorem remainingBits_eq_remainingStream (s : State) : remainingBits s = remainingStream s := by
  have hbytes : (sourceBytes s).length = s.latched.len.toNat := Memory.length_readBytes _ _ _
  have hlen : (remainingBits s).length = remainingCount s := by
    rw [remainingBits, List.length_take, length_unpackBits, hbytes, remainingCount]
    exact Nat.min_eq_left (Nat.sub_le _ _)
  refine List.ext_getElem (hlen.trans (length_remainingStream s).symm) fun p hp _ => ?_
  have hbyte : p / 8 < (sourceBytes s).length := by
    rw [hlen, remainingCount] at hp
    omega
  simp only [remainingBits, List.getElem_take]
  rw [getElem_unpackBits _ p (by rw [length_unpackBits]; omega) hbyte]
  simp only [sourceBytes, Memory.getElem_readBytes, remainingStream, List.getElem_map, List.getElem_range, streamBit]

section
variable {s : State} (hr : ReachesWindows s .unpack) (hs : SourceReady s) (hd : DestReady s)
include hr hs hd

theorem exec_unpack_malformed {cause : Nat}
    (h : decodeStream s.tkind s.root s.node (remainingStream s) = .error cause) :
    exec .unpack s = .next (raise .malformed cause s) := by
  obtain ⟨htree, hpad, hbits⟩ := hr
  simp only [exec, execUnpack, htree, Nat.not_lt.mpr hpad, Nat.not_lt.mpr hbits, if_false,
    checkWindows_both_none.mpr ⟨hs, hd⟩, remainingBits_eq_remainingStream, h, faulting]

theorem exec_unpack_overflow {out : List Byte}
    (h : decodeStream s.tkind s.root s.node (remainingStream s) = .ok out) (hcap : s.latched.dcap.toNat < out.length) :
    exec .unpack s = .next (raise .dstovf out.length s) := by
  obtain ⟨htree, hpad, hbits⟩ := hr
  simp only [exec, execUnpack, htree, Nat.not_lt.mpr hpad, Nat.not_lt.mpr hbits, if_false,
    checkWindows_both_none.mpr ⟨hs, hd⟩, remainingBits_eq_remainingStream, h, hcap, if_true, faulting]

theorem exec_unpack_decoded {out : List Byte}
    (h : decodeStream s.tkind s.root s.node (remainingStream s) = .ok out) (hcap : out.length ≤ s.latched.dcap.toNat) :
    exec .unpack s = .next (complete { s with
      mem := s.mem.writeBytes s.latched.dst.toNat out
      outlen := BitVec.ofNat 32 out.length }) := by
  obtain ⟨htree, hpad, hbits⟩ := hr
  simp only [exec, execUnpack, htree, Nat.not_lt.mpr hpad, Nat.not_lt.mpr hbits, if_false,
    checkWindows_both_none.mpr ⟨hs, hd⟩, remainingBits_eq_remainingStream, h, Nat.not_lt.mpr hcap]

end

theorem decodeStream_single_zeros (root : BitVec 9) (node : Table Node 511) {bits : List Bool}
    (h : true ∉ bits) : decodeStream .single root node bits = .ok (List.replicate bits.length (root.setWidth 8)) := by
  have hany : ¬ bits.any id = true := by simpa using h
  rw [decodeStream, if_neg hany]

theorem decodeStream_single_one (root : BitVec 9) (node : Table Node 511) {bits : List Bool}
    (h : true ∈ bits) : decodeStream .single root node bits = .error 4 := by
  have hany : bits.any id = true := by simpa using h
  rw [decodeStream, if_pos hany]

/-- The root of a SINGLE tree is a leaf, so its index is a byte value (10_state.md R51). -/
theorem toNat_setWidth_leaf {i : BitVec 9} (h : i.toNat ≤ 255) : (i.setWidth 8).toNat = i.toNat := by
  rw [BitVec.toNat_setWidth]
  exact Nat.mod_eq_of_lt (by omega)

/-- Settles O37: a SINGLE tree decodes zeros to as many copies of ROOT, and a 1 anywhere in the stream to sub-cause 4
before the size is looked at. -/
theorem unpackOfASingleLeaf : Obligations.UnpackOfASingleLeaf := by
  unfold Obligations.UnpackOfASingleLeaf
  intro s hwf hsingle hroot hpad hbits hs hd
  have hr : ReachesWindows s .unpack := ⟨by rw [hsingle]; nofun, hpad, hbits⟩
  have hzeros (hz : ∀ p, p < remainingCount s → streamBit s.mem s.latched.src.toNat p = false) :
      decodeStream s.tkind s.root s.node (remainingStream s) =
        .ok (List.replicate (remainingCount s) (s.root.setWidth 8)) := by
    have hno : true ∉ remainingStream s := fun hmem => by
      obtain ⟨p, hp, hone⟩ := mem_remainingStream.mp hmem
      exact Bool.false_ne_true ((hz p hp).symm.trans hone)
    rw [hsingle, decodeStream_single_zeros _ _ hno, length_remainingStream]
  have hlen : (List.replicate (remainingCount s) (s.root.setWidth 8)).length = remainingCount s :=
    List.length_replicate
  refine ⟨fun hz hcap => ?decoded, fun hz hcap => ?overflow, fun hone => ?malformed⟩
  case malformed =>
    have herr : decodeStream s.tkind s.root s.node (remainingStream s) = .error 4 := by
      rw [hsingle, decodeStream_single_one _ _ (mem_remainingStream.mpr hone)]
    exact ⟨_, exec_unpack_malformed hr hs hd herr, raise_faultedWith .malformed 4 s⟩
  case overflow =>
    have hfault := exec_unpack_overflow hr hs hd (hzeros hz) (hlen.symm ▸ hcap)
    rw [hlen] at hfault
    exact ⟨_, hfault, raise_faultedWith .dstovf (remainingCount s) s⟩
  case decoded =>
    have hinMem := hd.inMem
    refine ⟨_, exec_unpack_decoded hr hs hd (hzeros hz) (hlen.symm ▸ hcap), complete_completedOk rfl rfl rfl,
      ?outlen, fun k hk => ?bytes, fun a ha => ?outside,
      ?operands, ?table, ?tree, ?codes, ?res, ?packLength, rfl, rfl, ?rest⟩
    case outlen =>
      rw [complete_outlen, hlen]
      exact Nat.mod_eq_of_lt (by omega)
    case bytes =>
      rw [complete_mem, Memory.read_writeBytes_inside hwf _ _ k (hlen.symm ▸ hk) ?inMem, List.getElem_replicate,
        toNat_setWidth_leaf hroot]
      case inMem =>
        rw [hlen, Config.memBytes]
        omega
    case outside =>
      rw [complete_mem, Memory.read_writeBytes_outside _ _ _ (by rw [hlen]; omega)]
    all_goals constructor <;> rfl

end Sys2Proof.Machine
end

section
/-! Which error a command completes with: the one way each error number comes about (60_exceptions.md R201). -/

namespace Sys2Proof.Machine

/-- The codes are numbered in the order of their names, from 1. -/
theorem ErrCode.code_injective {e e' : ErrCode} (h : e.code = e'.code) : e = e' := by
  have hcode (e : ErrCode) : e.code = e.ctorIdx + 1 := by cases e <;> rfl
  have hidx : e.ctorIdx = e'.ctorIdx := by rw [hcode, hcode] at h; omega
  rw [← ErrCode.ofNat_ctorIdx e, hidx, ErrCode.ofNat_ctorIdx]

/-- ERR after a fault tells which error was raised. -/
theorem raise_err_eq_iff {e e' : ErrCode} {info : Nat} {s : State} :
    (raise e info s).err = BitVec.ofNat 32 e'.code ↔ e = e' := by
  constructor
  case mp =>
    intro h
    apply ErrCode.code_injective
    rw [← (raise_faultedWith e info s).err, h, ← raise_err e' 0 s, (raise_faultedWith e' 0 s).err]
  case mpr => rintro rfl; exact raise_err e info s

/-- CheckWindows answers no other error than ADDR, OVERLAP and BUS. -/
theorem checkWindows_code {s : State} {hasDst : Bool} {e : ErrCode} {info : Nat}
    (h : checkWindows s hasDst = some (e, info)) : e = .addr ∨ e = .overlap ∨ e = .bus := by
  obtain ⟨he, _⟩ | ⟨he, _⟩ | ⟨he, _⟩ | ⟨he, _⟩ | ⟨he, _⟩ := checkWindows_some h
  · exact .inl he
  · exact .inl he
  · exact .inr (.inl he)
  · exact .inr (.inr he)
  · exact .inr (.inr he)

/-- Where a command's error comes from: EMPTY from ENTROPY alone, the window errors from CheckWindows, and the others
from a missing prerequisite, an uncoded byte, the size of the result or the stream. -/
theorem exec_fault_inv {i : Instr} {s t : State} (h : exec i s = .next t) :
    t.err = 0 ∨ (i = .entropy ∧ t = raise .empty 0 s) ∨
    (∃ e info, checkWindows s (writesDest i) = some (e, info) ∧ t = raise e info s) ∨
    (∃ e info, e ∈ [ErrCode.state, .nocode, .dstovf, .malformed] ∧ t = raise e info s) := by
  cases i with
  | nop | sreset | fclr | fset _ | fget _ | build => cases h; exact .inl rfl
  | count =>
    obtain ⟨_, _, hw, rfl⟩ | ⟨_, rfl⟩ := execCount_inv h
    · exact .inr (.inr (.inl ⟨_, _, hw, rfl⟩))
    · exact .inl rfl
  | entropy =>
    obtain ⟨_, rfl⟩ | ⟨_, _, _, hw, rfl⟩ | ⟨_, _, rfl⟩ := execEntropy_inv h
    · exact .inr (.inl ⟨rfl, rfl⟩)
    · exact .inr (.inr (.inl ⟨_, _, hw, rfl⟩))
    · exact .inl rfl
  | tget idx =>
    obtain ⟨_, rfl⟩ | ⟨_, _, _, _, rfl⟩ := execTget_inv h
    · exact .inr (.inr (.inr ⟨_, _, by decide, rfl⟩))
    · exact .inl rfl
  | gencode =>
    obtain ⟨_, rfl⟩ | ⟨_, rfl⟩ := execGencode_inv h
    · exact .inr (.inr (.inr ⟨_, _, by decide, rfl⟩))
    · exact .inl rfl
  | cget sym =>
    obtain ⟨_, rfl⟩ | ⟨_, rfl⟩ := execCget_inv h
    · exact .inr (.inr (.inr ⟨_, _, by decide, rfl⟩))
    · exact .inl rfl
  | pack =>
    obtain ⟨_, rfl⟩ | ⟨_, _, _, hw, rfl⟩ | ⟨_, _, _, _, _, rfl⟩ | ⟨_, _, _, _, _, rfl⟩ | ⟨_, _, _, _, _, rfl⟩ :=
      execPack_inv h
    · exact .inr (.inr (.inr ⟨_, _, by decide, rfl⟩))
    · exact .inr (.inr (.inl ⟨_, _, hw, rfl⟩))
    · exact .inr (.inr (.inr ⟨_, _, by decide, rfl⟩))
    · exact .inr (.inr (.inr ⟨_, _, by decide, rfl⟩))
    · exact .inl rfl
  | unpack =>
    obtain ⟨_, rfl⟩ | ⟨_, _, rfl⟩ | ⟨_, _, _, rfl⟩ | ⟨_, _, _, hw, rfl⟩ | ⟨_, _, _, _, _, rfl⟩ |
      ⟨_, _, _, _, _, _, rfl⟩ | ⟨_, _, _, _, _, _, rfl⟩ := execUnpack_inv h
    · exact .inr (.inr (.inr ⟨_, _, by decide, rfl⟩))
    · exact .inr (.inr (.inr ⟨_, _, by decide, rfl⟩))
    · exact .inr (.inr (.inr ⟨_, _, by decide, rfl⟩))
    · exact .inr (.inr (.inl ⟨_, _, hw, rfl⟩))
    · exact .inr (.inr (.inr ⟨_, _, by decide, rfl⟩))
    · exact .inr (.inr (.inr ⟨_, _, by decide, rfl⟩))
    · exact .inl rfl

/-- A command whose ERR reads as the number of `e` has met `e`, and in the one place that raises it. -/
theorem exec_err_inv {i : Instr} {s t : State} {e : ErrCode} (h : exec i s = .next t)
    (he : t.err = BitVec.ofNat 32 e.code) :
    (e = .empty ∧ i = .entropy) ∨ (∃ info, checkWindows s (writesDest i) = some (e, info) ∧ t = raise e info s) ∨
    e ∈ [ErrCode.state, .nocode, .dstovf, .malformed] := by
  obtain h0 | ⟨hi, rfl⟩ | ⟨e', info, hw, rfl⟩ | ⟨e', info, hmem, rfl⟩ := exec_fault_inv h
  · have hcode : BitVec.ofNat 32 e.code ≠ 0 := by cases e <;> decide
    exact absurd (he.symm.trans h0) hcode
  · exact .inl ⟨(raise_err_eq_iff.mp he).symm, hi⟩
  · obtain rfl := raise_err_eq_iff.mp he
    exact .inr (.inl ⟨info, hw, rfl⟩)
  · obtain rfl := raise_err_eq_iff.mp he
    exact .inr (.inr hmem)

end Sys2Proof.Machine
end

section
/-! ILLCMD: the words of no command, and what issuing one does (30_encoding.md R93, R94, 60_exceptions.md R202). -/

namespace Sys2Proof

/-- Shifting the argument field back over the opcode gives the word's bits from 8 on, `n` of them. -/
theorem shiftLeft_setWidth_extractLsb' (w : Word) (n : Nat) :
    (w.extractLsb' 8 n).setWidth 32 <<< 8 = w &&& ((BitVec.allOnes n).setWidth 32 <<< 8) := by
  refine BitVec.eq_of_getLsbD_eq fun j hj => ?_
  by_cases h8 : j < 8
  · simp [h8]
  · have hsum : 8 + (j - 8) = j := by omega
    simp [h8, hj, hsum, Bool.and_comm]

/-- A word whose bits outside the argument field are the opcode is the argument over the opcode. -/
theorem argWord_extractLsb' {w op : Word} {n : Nat} (h : w &&& ~~~((BitVec.allOnes n).setWidth 32 <<< 8) = op) :
    argWord (w.extractLsb' 8 n) op = w := by
  rw [argWord, shiftLeft_setWidth_extractLsb', ← h, ← BitVec.and_or_distrib_left, BitVec.or_not_self,
    BitVec.and_allOnes]

/-- A row that a word selects builds the command whose word it is: the row's mask leaves only the argument free. -/
theorem encode_build_of_selects {r : OpcodeRow} {w : Word} (hr : r ∈ opcodeRows) (hsel : r.selects w = true) :
    encode (r.build w) = w := by
  have hand : w &&& r.mask = r.value := by simpa [OpcodeRow.selects] using hsel
  have hfixed (hmask : r.mask = BitVec.allOnes 32) : r.value = w := by rw [← hand, hmask, BitVec.and_allOnes]
  simp only [opcodeRows, List.mem_cons, List.not_mem_nil, or_false] at hr
  rcases hr with rfl | rfl | rfl | rfl | rfl | rfl | rfl | rfl | rfl | rfl | rfl | rfl | rfl
  -- in the table's order; FSET and FGET, TGET, CGET carry an argument
  iterate 3 exact hfixed rfl
  iterate 2 exact argWord_extractLsb' hand
  iterate 3 exact hfixed rfl
  · exact argWord_extractLsb' hand
  · exact hfixed rfl
  · exact argWord_extractLsb' hand
  iterate 2 exact hfixed rfl

/-- A word of no command is refused by the decoder (30_encoding.md R94). -/
theorem decode_error_of_no_encoding {w : Word} (h : ∀ i : Instr, encode i ≠ w) : ∃ r, decode w = .error r := by
  cases hd : decode w with
  | error r => exact ⟨r, rfl⟩
  | ok i =>
    obtain ⟨row, hmem, hsel, rfl⟩ := decode_ok_inv hd
    exact absurd (encode_build_of_selects hmem hsel) (h _)

end Sys2Proof

namespace Sys2Proof.Machine

theorem runLatched_illegal {s : State} {r : Illegal} (h : decode s.latched.word = .error r) :
    runLatched s = .next (raise .illcmd s.latched.word.toNat s) := by
  simp only [runLatched, h, faulting]

/-- A command issued with nothing landing inside it runs whole, in the step that accepts it (40_control.md R112). -/
theorem step_of_issues {s : State} {w : Word} {rest : List HostTxn} (h : Issues s w rest) :
    step s = runLatched (acceptedBy w rest s) := by
  rw [step_idle h.idle h.next]
  exact if_pos h.atomic

theorem exec_err_ne_illcmd {i : Instr} {s t : State} (h : exec i s = .next t) : t.err ≠ 1 := by
  intro herr
  obtain ⟨he, _⟩ | ⟨_, hw, _⟩ | hmem := exec_err_inv (e := .illcmd) h herr
  · cases he
  · exact absurd (checkWindows_code hw) (by decide)
  · exact absurd hmem (by decide)

/-- Settles O4: the accepted word decodes to nothing, so the step raises ILLCMD with it; a command's own errors are all
raised elsewhere. -/
theorem illegalWordCompletesWithIllcmd : Obligations.IllegalWordCompletesWithIllcmd := by
  unfold Obligations.IllegalWordCompletesWithIllcmd
  refine ⟨fun s w rest hissue hno => ?illegal, fun i s t h => exec_err_ne_illcmd h⟩
  case illegal =>
    obtain ⟨r, hr⟩ := decode_error_of_no_encoding hno
    exact ⟨_, (step_of_issues hissue).trans (runLatched_illegal hr), raise_faultedWith .illcmd w.toNat _⟩

end Sys2Proof.Machine
end

section
/-! The window errors ADDR, OVERLAP and BUS, in the order of the checks (20_memory.md R68 to R71, 60_exceptions.md R204,
R205, R210). -/

namespace Sys2Proof.Machine

/-- Two windows share an address exactly when neither is empty and each begins before the other ends. -/
theorem windows_share_iff {base size base' size' : Nat} :
    (∃ a, inWindow a base size = true ∧ inWindow a base' size' = true) ↔
      0 < size ∧ 0 < size' ∧ base < base' + size' ∧ base' < base + size := by
  simp only [inWindow, Bool.and_eq_true, decide_eq_true_eq]
  constructor
  case mp => rintro ⟨a, _, _⟩; omega
  case mpr => exact fun h => ⟨max base base', by omega⟩

/-- An empty window ends where it begins, which is inside MEM. -/
theorem ne_zero_of_window_outside {base size : Word} (h : 4294967296 < base.toNat + size.toNat) : size ≠ 0 := by
  rintro rfl
  exact Nat.not_lt.mpr base.isLt.le h

theorem firstUnbacked_of_lowest {holes : List Hole} {base size a : Nat} (h : LowestUnbacked holes base size a) :
    firstUnbacked holes base size = some a := by
  cases hfirst : firstUnbacked holes base size with
  | none =>
    have hok := firstUnbacked_eq_none.mp hfirst a h.lower h.upper
    exact absurd (h.unbacked.symm.trans hok) Bool.false_ne_true
  | some b => rw [(firstUnbacked_eq_some hfirst).unique h]

section
variable {s : State} {hasDst : Bool}

theorem checkWindows_source_outside (h : 4294967296 < s.latched.src.toNat + s.latched.len.toNat) :
    checkWindows s hasDst = some (.addr, 0) := by
  rw [checkWindows]
  exact if_pos h

variable (hsrc : s.latched.src.toNat + s.latched.len.toNat ≤ 4294967296)
include hsrc

theorem checkWindows_dest_outside (h : 4294967296 < s.latched.dst.toNat + s.latched.dcap.toNat) :
    checkWindows s true = some (.addr, 1) := by
  simp only [checkWindows, Config.memBytes, Nat.not_lt.mpr hsrc, gt_iff_lt, if_false, h, and_self, if_true]

theorem checkWindows_overlap (hdst : s.latched.dst.toNat + s.latched.dcap.toNat ≤ 4294967296)
    (h : ∃ a, inWindow a s.latched.src.toNat s.latched.len.toNat = true ∧
      inWindow a s.latched.dst.toNat s.latched.dcap.toNat = true) :
    checkWindows s true = some (.overlap, 0) := by
  have hshare := windows_share_iff.mp h
  simp only [checkWindows, Config.memBytes, Nat.not_lt.mpr hsrc, Nat.not_lt.mpr hdst, gt_iff_lt, if_false, hshare,
    and_self, and_false, if_true]

/-- Past the range and overlap checks CheckWindows asks the platform's map, the source window first. -/
theorem checkWindows_apart (hdst : hasDst = true → s.latched.dst.toNat + s.latched.dcap.toNat ≤ 4294967296 ∧
      ∀ b, ¬(inWindow b s.latched.src.toNat s.latched.len.toNat = true ∧
        inWindow b s.latched.dst.toNat s.latched.dcap.toNat = true)) :
    checkWindows s hasDst =
      ((firstUnbacked s.holes s.latched.src.toNat s.latched.len.toNat).or
        (if hasDst then firstUnbacked s.holes s.latched.dst.toNat s.latched.dcap.toNat else none)).map (.bus, ·) := by
  have hinside : ¬ s.latched.src.toNat + s.latched.len.toNat > Config.memBytes := Nat.not_lt.mpr hsrc
  have hrange : ¬(hasDst = true ∧ s.latched.dst.toNat + s.latched.dcap.toNat > Config.memBytes) :=
    fun ⟨hd, hgt⟩ => Nat.not_lt.mpr (hdst hd).1 hgt
  have hshare : ¬(hasDst = true ∧ s.latched.len.toNat > 0 ∧ s.latched.dcap.toNat > 0 ∧
      s.latched.src.toNat < s.latched.dst.toNat + s.latched.dcap.toNat ∧
      s.latched.dst.toNat < s.latched.src.toNat + s.latched.len.toNat) := fun ⟨hd, hboth⟩ =>
    (windows_share_iff.mpr hboth).elim (hdst hd).2
  simp only [checkWindows, if_neg hinside, if_neg hrange, if_neg hshare]
  cases firstUnbacked s.holes s.latched.src.toNat s.latched.len.toNat with
  | some a => rfl
  | none => cases hasDst <;> rfl

end

/-- The unbacked address BUS reports is an address of MEM: the windows passed the range checks before. -/
theorem checkWindows_bus_lt {s : State} {hasDst : Bool} {a : Nat} (h : checkWindows s hasDst = some (.bus, a)) :
    a < 4294967296 := by
  have hsrc : s.latched.src.toNat + s.latched.len.toNat ≤ 4294967296 := by
    refine Nat.le_of_not_lt fun hgt => ?_
    rw [checkWindows_source_outside hgt] at h
    cases h
  obtain ⟨he, _⟩ | ⟨he, _⟩ | ⟨he, _⟩ | ⟨_, hlow⟩ | ⟨_, rfl, _, hlow⟩ := checkWindows_some h
  · cases he
  · cases he
  · cases he
  · exact hlow.upper.trans_le hsrc
  · refine hlow.upper.trans_le (Nat.le_of_not_lt fun hgt => ?_)
    rw [checkWindows_dest_outside hsrc hgt] at h
    cases h

/-- A command that reaches its window checks completes with what they raise (60_exceptions.md R212). -/
theorem exec_of_checkWindows {i : Instr} {s : State} {e : ErrCode} {info : Nat} (hr : ReachesWindows s i)
    (h : checkWindows s (writesDest i) = some (e, info)) :
    ∃ t, exec i s = .next t ∧ FaultedWith e.code info s t := by
  refine ⟨raise e info s, ?_, raise_faultedWith e info s⟩
  cases i with
  | nop | sreset | fclr | fset _ | fget _ | build | tget _ | gencode | cget _ => exact hr.elim
  | count =>
    have hw : checkWindows s false = some (e, info) := h
    simp only [exec, execCount, hw, faulting]
  | entropy =>
    have hw : checkWindows s false = some (e, info) := h
    have hlen : s.latched.len ≠ 0 := hr
    simp only [exec, execEntropy, hlen, if_false, hw, faulting]
  | pack =>
    have hw : checkWindows s true = some (e, info) := h
    have hcodes : s.codeV = true := hr
    simp only [exec, execPack, hcodes, Bool.true_eq_false, if_false, hw, faulting]
  | unpack =>
    have hw : checkWindows s true = some (e, info) := h
    obtain ⟨htree, hpad, hbits⟩ := hr
    simp only [exec, execUnpack, htree, Nat.not_lt.mpr hpad, Nat.not_lt.mpr hbits, if_false, hw, faulting]

/-- A command whose ERR reads as the number of a window error has met that error in its window checks. -/
theorem exec_window_err {i : Instr} {s t : State} {e : ErrCode} (hwin : e = .addr ∨ e = .overlap ∨ e = .bus)
    (h : exec i s = .next t) (herr : t.err = BitVec.ofNat 32 e.code) :
    ∃ info, checkWindows s (writesDest i) = some (e, info) ∧ t.errinfo.toNat = min info 4294967295 := by
  obtain ⟨rfl, _⟩ | ⟨info, hw, rfl⟩ | hmem := exec_err_inv h herr
  · exact absurd hwin (by decide)
  · exact ⟨info, hw, (raise_faultedWith e info s).errinfo⟩
  · rcases hwin with rfl | rfl | rfl <;> exact absurd hmem (by decide)

section
variable {i : Instr} {s t : State} (h : exec i s = .next t)
include h

theorem exec_addr_windows (herr : t.err = 3) :
    (t.errinfo = 0 ∧ 4294967296 < s.latched.src.toNat + s.latched.len.toNat) ∨
    (t.errinfo = 1 ∧ writesDest i = true ∧ s.latched.src.toNat + s.latched.len.toNat ≤ 4294967296 ∧
      4294967296 < s.latched.dst.toNat + s.latched.dcap.toNat) := by
  obtain ⟨info, hw, hinfo⟩ := exec_window_err (e := .addr) (.inl rfl) h herr
  obtain ⟨_, rfl, hgt⟩ | ⟨_, rfl, hrest⟩ | ⟨he, _⟩ | ⟨he, _⟩ | ⟨he, _⟩ := checkWindows_some hw
  · exact .inl ⟨BitVec.eq_of_toNat_eq hinfo, hgt⟩
  · exact .inr ⟨BitVec.eq_of_toNat_eq hinfo, hrest⟩
  · cases he
  · cases he
  · cases he

theorem exec_overlap_windows (herr : t.err = 4) : t.errinfo = 0 ∧ writesDest i = true ∧
    ∃ a, inWindow a s.latched.src.toNat s.latched.len.toNat = true ∧
      inWindow a s.latched.dst.toNat s.latched.dcap.toNat = true := by
  obtain ⟨info, hw, hinfo⟩ := exec_window_err (e := .overlap) (.inr (.inl rfl)) h herr
  obtain ⟨he, _⟩ | ⟨he, _⟩ | ⟨_, rfl, hdest, hshare⟩ | ⟨he, _⟩ | ⟨he, _⟩ := checkWindows_some hw
  · cases he
  · cases he
  · exact ⟨BitVec.eq_of_toNat_eq hinfo, hdest, windows_share_iff.mpr hshare⟩
  · cases he
  · cases he

theorem exec_bus_windows (herr : t.err = 9) :
    LowestUnbacked s.holes s.latched.src.toNat s.latched.len.toNat t.errinfo.toNat ∨
    (writesDest i = true ∧ SourceReady s ∧
      LowestUnbacked s.holes s.latched.dst.toNat s.latched.dcap.toNat t.errinfo.toNat) := by
  obtain ⟨info, hw, hinfo⟩ := exec_window_err (e := .bus) (.inr (.inr rfl)) h herr
  have hlt := checkWindows_bus_lt hw
  rw [Nat.min_eq_left (Nat.le_of_lt_succ hlt)] at hinfo
  obtain ⟨he, _⟩ | ⟨he, _⟩ | ⟨he, _⟩ | ⟨_, hlow⟩ | ⟨_, hdest⟩ := checkWindows_some hw
  · cases he
  · cases he
  · cases he
  · exact .inl (hinfo ▸ hlow)
  · exact .inr (hinfo ▸ hdest)

/-- BUS names an address that the platform does not back. -/
theorem exec_err_ne_bus_of_backed (hall : ∀ a, memOk s.holes a = true) : t.err ≠ 9 := fun herr => by
  obtain hlow | ⟨_, _, hlow⟩ := exec_bus_windows h herr <;>
    exact Bool.false_ne_true (hlow.unbacked.symm.trans (hall _))

end

/-- Settles O13: one equation of CheckWindows for each answer gives what is raised, and the answers' conditions read
back give what the windows were; an empty window ends inside MEM, as its base does. -/
theorem windowChecksRaiseInOrder : Obligations.WindowChecksRaiseInOrder := by
  unfold Obligations.WindowChecksRaiseInOrder
  refine ⟨fun i s hr => ⟨fun hsrc => ?sourceOutside, fun hsrc hd hdst => ?destOutside,
    fun hsrc hd hdst hshare => ?overlap, fun a hsrc hdst hlow => ?busSource, fun a hs hd hdst hapart hlow => ?busDest⟩,
    fun i s t h => ⟨exec_addr_windows h, fun herr hlen => ?emptySource, fun herr hdcap => ?emptyDest,
      exec_overlap_windows h, exec_bus_windows h, exec_err_ne_bus_of_backed h⟩⟩
  case sourceOutside => exact exec_of_checkWindows hr (checkWindows_source_outside hsrc)
  case destOutside => exact exec_of_checkWindows hr (hd ▸ checkWindows_dest_outside hsrc hdst)
  case overlap => exact exec_of_checkWindows hr (hd ▸ checkWindows_overlap hsrc hdst hshare)
  case busSource =>
    refine exec_of_checkWindows (e := .bus) hr ?_
    rw [checkWindows_apart hsrc hdst, firstUnbacked_of_lowest hlow]
    rfl
  case busDest =>
    refine exec_of_checkWindows (e := .bus) hr ?_
    rw [checkWindows_apart hs.inMem fun _ => ⟨hdst, hapart⟩, firstUnbacked_eq_none.mpr hs.backed, if_pos hd,
      firstUnbacked_of_lowest hlow]
    rfl
  case emptySource =>
    obtain ⟨_, hgt⟩ | ⟨hinfo, _, _, hgt⟩ := exec_addr_windows h herr
    · exact absurd hlen (ne_zero_of_window_outside hgt)
    · exact ⟨hinfo, ne_zero_of_window_outside hgt⟩
  case emptyDest =>
    obtain ⟨hinfo, hgt⟩ | ⟨_, _, _, hgt⟩ := exec_addr_windows h herr
    · exact ⟨hinfo, ne_zero_of_window_outside hgt⟩
    · exact absurd hdcap (ne_zero_of_window_outside hgt)

end Sys2Proof.Machine
end

section
/-! PACK past its windows: the source bytes, the length of the payload, and the errors NOCODE and DSTOVF
(45_bitpack.md R170, 60_exceptions.md R207, R208). -/

namespace Sys2Proof.Machine

theorem sourceBytes_eq_map (s : State) : sourceBytes s = (List.range s.latched.len.toNat).map (sourceByte s) := rfl

theorem totalBits_sourceBytes (s : State) : totalBits s.code (sourceBytes s) = (codeStream s).length := by
  rw [totalBits, sourceBytes_eq_map, codeStream, List.length_flatten, List.map_map, List.map_map]
  rfl

/-- The padding fills the last byte begun. -/
theorem byteCount_eq (t : Nat) : byteCount t = (t + 7) / 8 := by
  rw [byteCount, padCount]
  omega

/-- A byte has a code exactly where `firstUncoded` does not stop. -/
theorem isEmpty_codeOf {code : Table Code 256} {b : Byte} : (codeOf code b).isEmpty = true ↔ ¬HasCode code b.toNat := by
  rw [List.isEmpty_iff, HasCode, not_not, codeOf]

theorem firstUncoded_eq_some {s : State} {j : Nat} (hj : j < s.latched.len.toNat)
    (hno : ¬HasCode s.code (sourceByte s j).toNat) (hbelow : ∀ k, k < j → HasCode s.code (sourceByte s k).toNat) :
    firstUncoded s.code (sourceBytes s) = some j := by
  rw [firstUncoded, sourceBytes_eq_map, List.findIdx?_eq_some_iff_getElem]
  refine ⟨by simpa using hj, ?_, fun k hk => ?_⟩
  · simpa only [List.getElem_map, List.getElem_range] using isEmpty_codeOf.mpr hno
  · simpa only [List.getElem_map, List.getElem_range] using fun hempty => isEmpty_codeOf.mp hempty (hbelow k hk)

theorem firstUncoded_eq_none {s : State} (h : ∀ j, j < s.latched.len.toNat → HasCode s.code (sourceByte s j).toNat) :
    firstUncoded s.code (sourceBytes s) = none := by
  rw [firstUncoded, sourceBytes_eq_map, List.findIdx?_eq_none_iff]
  intro b hb
  obtain ⟨j, hj, rfl⟩ := List.mem_map.mp hb
  exact Bool.eq_false_iff.mpr fun hempty => isEmpty_codeOf.mp hempty (h j (List.mem_range.mp hj))

section
variable {s : State} (hv : s.codeV = true) (hs : SourceReady s) (hd : DestReady s)
include hv hs hd

theorem exec_pack_uncoded {j : Nat} (h : firstUncoded s.code (sourceBytes s) = some j) :
    exec .pack s = .next (raise .nocode j s) := by
  simp only [exec, execPack, hv, Bool.true_eq_false, if_false, checkWindows_both_none.mpr ⟨hs, hd⟩, h, faulting]

theorem exec_pack_overflow (h : firstUncoded s.code (sourceBytes s) = none)
    (hcap : s.latched.dcap.toNat < ((codeStream s).length + 7) / 8) :
    exec .pack s = .next (raise .dstovf (((codeStream s).length + 7) / 8) s) := by
  simp only [exec, execPack, hv, Bool.true_eq_false, if_false, checkWindows_both_none.mpr ⟨hs, hd⟩, h,
    totalBits_sourceBytes, byteCount_eq, gt_iff_lt, hcap, if_true, faulting]

end

/-- Settles O35: the search for an uncoded byte stops at the offset given or runs through, and the size the packer
computes from the code lengths is that of the code stream in bytes. -/
theorem packReportsItsErrors : Obligations.PackReportsItsErrors := by
  unfold Obligations.PackReportsItsErrors
  refine ⟨fun s j hv hs hd hj hno hbelow => ?nocode, fun s hv hs hd hcovered hcap => ?dstovf⟩
  case nocode =>
    exact ⟨_, exec_pack_uncoded hv hs hd (firstUncoded_eq_some hj hno hbelow), raise_faultedWith .nocode j s⟩
  case dstovf =>
    exact ⟨_, exec_pack_overflow hv hs hd (firstUncoded_eq_none hcovered) hcap, raise_faultedWith .dstovf _ s⟩

end Sys2Proof.Machine
end

section
/-! STATE and EMPTY: the commands whose prerequisite is not met (60_exceptions.md R203, R206). -/

namespace Sys2Proof.Machine

theorem exec_gencode_noTree {s : State} (h : s.tkind = .none) : exec .gencode s = .next (raise .state 0 s) := by
  simp only [exec, execGencode, h, if_true, faulting]

theorem exec_unpack_noTree {s : State} (h : s.tkind = .none) : exec .unpack s = .next (raise .state 0 s) := by
  simp only [exec, execUnpack, h, if_true, faulting]

theorem exec_tget_noTree {s : State} (h : s.tkind = .none) (idx : BitVec 9) :
    exec (.tget idx) s = .next (raise .state 0 s) := by
  simp only [exec, execTget, h, if_true, faulting]

theorem exec_pack_noCodes {s : State} (h : s.codeV = false) : exec .pack s = .next (raise .state 0 s) := by
  simp only [exec, execPack, h, if_true, faulting]

/-- Settles O12: each of the five commands looks at its flag first. -/
theorem missingPrerequisiteRaisesState : Obligations.MissingPrerequisiteRaisesState := by
  unfold Obligations.MissingPrerequisiteRaisesState
  refine ⟨fun i s hi htree => ⟨raise .state 0 s, ?noTree, raise_faultedWith .state 0 s⟩,
    fun i s hi hcodes => ⟨raise .state 0 s, ?noCodes, raise_faultedWith .state 0 s⟩⟩
  case noTree =>
    obtain rfl | rfl | ⟨idx, rfl⟩ := hi
    · exact exec_gencode_noTree htree
    · exact exec_unpack_noTree htree
    · exact exec_tget_noTree htree idx
  case noCodes =>
    obtain rfl | ⟨sym, rfl⟩ := hi
    · exact exec_pack_noCodes hcodes
    · exact exec_cget_noCodes hcodes sym

theorem exec_entropy_empty {s : State} (h : s.latched.len = 0) : exec .entropy s = .next (raise .empty 0 s) := by
  simp only [exec, execEntropy, h, if_true, faulting]

/-- Settles O23: ENTROPY looks at LEN first, and it is the one command that raises EMPTY. -/
theorem emptyEntropyFaults : Obligations.EmptyEntropyFaults := by
  unfold Obligations.EmptyEntropyFaults
  refine ⟨fun s hlen => ⟨_, exec_entropy_empty hlen, raise_faultedWith .empty 0 s⟩, fun i s t hi h herr => ?other⟩
  case other =>
    obtain ⟨_, hentropy⟩ | ⟨_, hw, _⟩ | hmem := exec_err_inv (e := .empty) h herr
    · exact hi hentropy
    · exact absurd (checkWindows_code hw) (by decide)
    · exact absurd hmem (by decide)

end Sys2Proof.Machine
end

section
/-! The interrupt: the level of IRQ and the pending bits a completion sets (60_exceptions.md R216). -/

namespace Sys2Proof.Machine

theorem irq_iff (s : State) : s.irq = true ↔
    (s.ien.getLsbD 0 = true ∧ s.ipend.getLsbD 0 = true) ∨ (s.ien.getLsbD 1 = true ∧ s.ipend.getLsbD 1 = true) := by
  rw [State.irq, Bool.or_eq_true, Bool.and_eq_true, Bool.and_eq_true]

theorem writeReg_ien (v : Word) (s : State) : writeReg 0x18 v s = { s with ien := v.setWidth 2 } := rfl

theorem getLsbD_setDone_zero (p : BitVec 2) : (setDone p).getLsbD 0 = true := by revert p; decide

/-- Every command but SRESET completes through `complete`, which sets DONE, or `raise`, which sets DONE and ERRP. -/
theorem exec_pending {i : Instr} {s t : State} (hi : i ≠ .sreset) (h : exec i s = .next t) :
    t.ipend.getLsbD 0 = true ∧ (t.err ≠ 0 → t.ipend.getLsbD 1 = true) := by
  obtain ⟨e, info, rfl⟩ | ⟨hsreset, _⟩ | ⟨_, u, rfl, _⟩ := exec_inv h
  · rw [(raise_faultedWith e info s).ipend]
    exact ⟨rfl, fun _ => rfl⟩
  · exact absurd hsreset hi
  · exact ⟨getLsbD_setDone_zero u.ipend, fun herr => absurd (complete_err u) herr⟩

/-- Settles O60: the level is read off IEN and IPEND, an enable write changes IEN alone, and completions set pending
bits without looking at it. -/
theorem irqLevel : Obligations.IrqLevel := by
  unfold Obligations.IrqLevel
  refine ⟨irq_iff, rfl, rfl, rfl, fun s v hpending => ?enable, fun i s t => exec_pending⟩
  case enable =>
    rw [writeReg_ien, irq_iff]
    simpa only [BitVec.getLsbD_setWidth, Nat.ofNat_pos, Nat.one_lt_ofNat, decide_true, Bool.true_and] using hpending

end Sys2Proof.Machine
end

section
/-! The decoder and the encoder are inverse to each other (30_encoding.md R91 to R94). -/

namespace Sys2Proof

open Laws.RowMatch in
theorem rowMatch (i : Instr) : Statement i := by
  cases i with
  | nop => exact nop
  | sreset => exact sreset
  | fclr => exact fclr
  | fset sym => exact fset sym
  | fget sym => exact fget sym
  | count => exact count
  | entropy => exact entropy
  | build => exact build
  | tget idx => exact tget idx
  | gencode => exact gencode
  | cget sym => exact cget sym
  | pack => exact pack
  | unpack => exact unpack

/-- The rows have different mnemonics, so a command's word is decoded by the row of its mnemonic. -/
theorem decode_encode_of_row {i : Instr} {r : OpcodeRow} (hr : r ∈ opcodeRows)
    (hname : r.mnemonic = Laws.RowMatch.rowName i) (hbuild : r.build (encode i) = i) : decode (encode i) = .ok i := by
  obtain ⟨r', hfilter, hname'⟩ := List.map_eq_singleton_iff.mp (rowMatch i)
  have hmem : r' ∈ opcodeRows.filter (·.selects (encode i)) := hfilter ▸ List.mem_singleton_self r'
  have hnodup : (opcodeRows.map OpcodeRow.mnemonic).Nodup := by decide
  obtain rfl : r = r' :=
    List.inj_on_of_nodup_map hnodup hr (List.mem_filter.mp hmem).1 (hname.trans hname'.symm)
  have hfind : opcodeRows.find? (·.selects (encode i)) = some r := by
    rw [← List.head?_filter, hfilter, List.head?_cons]
  simp only [decode, hfind, hbuild]

/-- The argument field of a format S or T word gives the argument back: the opcode lies below it. -/
theorem extractLsb'_argWord {n : Nat} (arg : BitVec n) {op : Word} (hn : n ≤ 24) (hop : op.toNat < 2 ^ 8) :
    (argWord arg op).extractLsb' 8 n = arg := by
  refine BitVec.eq_of_getLsbD_eq fun j hj => ?_
  have hlow : op.getLsbD (8 + j) = false :=
    Nat.testBit_lt_two_pow (hop.trans_le (Nat.pow_le_pow_right (by decide) (by omega)))
  have hwidth : 8 + j < 32 := by omega
  have hwidth' : j < 32 := by omega
  have hnot : ¬ 8 + j < 8 := by omega
  rw [BitVec.getLsbD_extractLsb', argWord, BitVec.getLsbD_or, hlow, BitVec.getLsbD_shiftLeft, BitVec.getLsbD_setWidth,
    Nat.add_sub_cancel_left]
  simp only [hj, hwidth, hwidth', hnot, decide_true, decide_false, Bool.true_and, Bool.not_false, Bool.or_false]

/-- Settles O2: the row of the command's mnemonic is the one its word selects, and the argument field of the word is
the operand. -/
theorem decodeInvertsEncode : Obligations.DecodeInvertsEncode := by
  unfold Obligations.DecodeInvertsEncode
  intro i _
  cases i with
  | nop | sreset | fclr | count | entropy | build | gencode | pack | unpack => rfl
  | fset sym =>
    exact decode_encode_of_row (r := opcodeRows[3]) (List.getElem_mem _) rfl
      (congrArg Instr.fset (extractLsb'_argWord (op := 0x11) sym (by decide) (by decide)))
  | fget sym =>
    exact decode_encode_of_row (r := opcodeRows[4]) (List.getElem_mem _) rfl
      (congrArg Instr.fget (extractLsb'_argWord (op := 0x12) sym (by decide) (by decide)))
  | tget idx =>
    exact decode_encode_of_row (r := opcodeRows[8]) (List.getElem_mem _) rfl
      (congrArg Instr.tget (extractLsb'_argWord (op := 0x31) idx (by decide) (by decide)))
  | cget sym =>
    exact decode_encode_of_row (r := opcodeRows[10]) (List.getElem_mem _) rfl
      (congrArg Instr.cget (extractLsb'_argWord (op := 0x33) sym (by decide) (by decide)))

theorem encode_of_decode {w : Word} {i : Instr} (h : decode w = .ok i) : encode i = w := by
  obtain ⟨r, hmem, hsel, rfl⟩ := decode_ok_inv h
  exact encode_build_of_selects hmem hsel

/-- Settles O3: a word that selects a row is the word of what the row builds. -/
theorem decodeAcceptsOnlyEncodings : Obligations.DecodeAcceptsOnlyEncodings := by
  unfold Obligations.DecodeAcceptsOnlyEncodings
  exact fun w i => encode_of_decode

/-- Settles O1: the decoder run on each of the words. -/
theorem exampleWordsDecode : Obligations.ExampleWordsDecode := by
  unfold Obligations.ExampleWordsDecode
  refine ⟨rfl, rfl, rfl, rfl, rfl, rfl, rfl, rfl, rfl, rfl, rfl, rfl, rfl, rfl, fun w hw => ?illegal⟩
  case illegal => fin_cases hw <;> rfl

/-- SRESET's word is 1 and no other word is SRESET's. -/
theorem decode_eq_sreset_iff {w : Word} : decode w = .ok .sreset ↔ w = 0x00000001 :=
  ⟨fun h => (encode_of_decode h).symm, by rintro rfl; rfl⟩

end Sys2Proof
end

section
/-! Steps: what acceptance leaves, when the running command completes, and what ends it (40_control.md R112, R113, R118;
60_exceptions.md R200 to R202, R213). -/

namespace Sys2Proof.Machine

theorem runLatched_decoded {s : State} {i : Instr} (h : decode s.latched.word = .ok i) : runLatched s = exec i s := by
  simp only [runLatched, h]

/-- Settles O5: an issued command runs on the accepted state, whose latched word is the one written. -/
theorem stepRunsTheDecodedCommand : Obligations.StepRunsTheDecodedCommand := by
  unfold Obligations.StepRunsTheDecodedCommand
  intro s w rest i hissue hdecode _
  refine ⟨(step_of_issues hissue).trans (runLatched_decoded hdecode), ?accepted⟩
  case accepted =>
    have hleft : (acceptedBy w rest s).left = 0 := hissue.atomic
    rw [← hleft]
    rfl

theorem readReg_status (s : State) : readReg s 0x08 = statusWord s.busy s.codeV s.tkind := rfl

theorem getLsbD_statusWord_zero (busy codeV : Bool) (tkind : TKind) :
    (statusWord busy codeV tkind).getLsbD 0 = busy := by
  cases busy <;> cases codeV <;> cases tkind <;> rfl

/-- A command inside which transactions land is only accepted, whatever its word. -/
theorem step_delayed {s : State} {w : Word} {rest : List HostTxn} (hb : s.busy = false)
    (hs : s.script = .regWrite 0x04 w :: rest) (hd : s.delays.headD 0 ≠ 0) :
    step s = .next (acceptedBy w rest s) := by
  rw [step_idle hb hs]
  exact if_neg hd

/-- Settles O6: acceptance alone while transactions are due, completion when none is, and no move without either. -/
theorem delayedCommandRunsWhenItsTransactionsAreDone : Obligations.DelayedCommandRunsWhenItsTransactionsAreDone := by
  unfold Obligations.DelayedCommandRunsWhenItsTransactionsAreDone
  refine ⟨fun s w rest hb hs hd => ⟨_, step_delayed hb hs hd, rfl, ?busy⟩,
    fun s i hb hdone hdecode => (step_completes hb hdone).trans (runLatched_decoded hdecode),
    fun s hb hdone hno => ?illegal, fun s hb hs => ?idle⟩
  case busy => rw [readReg_status, getLsbD_statusWord_zero]; rfl
  case illegal =>
    obtain ⟨r, hr⟩ := decode_error_of_no_encoding hno
    exact ⟨_, (step_completes hb hdone).trans (runLatched_illegal hr), raise_faultedWith .illcmd _ s⟩
  case idle => simp [step, completesNow, hb, hs]

/-- A completion leaves the block idle, whichever way it ends. -/
theorem exec_busy {i : Instr} {s t : State} (h : exec i s = .next t) : t.busy = false := by
  obtain ⟨e, info, rfl⟩ | ⟨_, rfl⟩ | ⟨_, u, rfl, _⟩ := exec_inv h <;> rfl

theorem runLatched_busy {s t : State} (h : runLatched s = .next t) : t.busy = false := by
  obtain ⟨i, _, hexec⟩ | ⟨_, _, rfl⟩ := runLatched_inv h
  · exact exec_busy hexec
  · rfl

/-- A transaction that lands inside a command leaves the count of those still to land, or resets the block. -/
theorem busyTurn_left {txn : HostTxn} {s t : State} (h : busyTurn txn s = .next t) :
    t.busy = false ∨ t.left = s.left := by
  obtain rfl | ⟨_, _, _, _, _, rfl⟩ | ⟨_, rfl⟩ | ⟨_, _, _, rfl⟩ := busyTurn_inv h
  · exact .inr rfl
  · exact .inr rfl
  · exact .inl rfl
  · exact .inr rfl

/-- While a command runs, a step that does not complete it is a transaction landing inside it. -/
theorem step_running_inv {s t : State} (hb : s.busy = true) (h : step s = .next t) :
    (runLatched s = .next t) ∨ (0 < s.left ∧ ∃ txn rest, s.script = txn :: rest ∧
      busyTurn txn { s with script := rest, left := s.left - 1 } = .next t) := by
  obtain hleft | hleft := Nat.eq_zero_or_pos s.left
  · exact .inl (step_completes hb (.inl hleft) ▸ h)
  · cases hs : s.script with
    | nil => exact .inl (step_completes hb (.inr hs) ▸ h)
    | cons txn rest => exact .inr ⟨hleft, txn, rest, rfl, step_busy hb hleft hs ▸ h⟩

/-- Settles O7: a step that leaves the command running is a transaction inside it, which takes one off the count. -/
theorem runningCommandCountsDown : Obligations.RunningCommandCountsDown := by
  unfold Obligations.RunningCommandCountsDown
  intro s t hb hstep hb'
  obtain hrun | ⟨hleft, txn, rest, _, hturn⟩ := step_running_inv hb hstep
  · exact absurd hb' (by simp [runLatched_busy hrun])
  · obtain hidle | hcount := busyTurn_left hturn
    · exact absurd hb' (by simp [hidle])
    · rw [hcount]
      exact Nat.sub_lt hleft Nat.one_pos

/-- A command's own errors are 2 to 9: ILLCMD is raised where there is no command. -/
theorem exec_raised_inv {i : Instr} {s t : State} (h : exec i s = .next t) (herr : t.err ≠ 0) :
    ∃ e info, e ≠ .illcmd ∧ t = raise e info s := by
  obtain h0 | ⟨_, rfl⟩ | ⟨e, info, hw, rfl⟩ | ⟨e, info, hmem, rfl⟩ := exec_fault_inv h
  · exact absurd h0 herr
  · exact ⟨_, _, by decide, rfl⟩
  · refine ⟨e, info, ?_, rfl⟩
    rintro rfl
    exact absurd (checkWindows_code hw) (by decide)
  · refine ⟨e, info, ?_, rfl⟩
    rintro rfl
    exact absurd hmem (by decide)

/-- Settles O8: the one way to complete with an error is `raise`. -/
theorem faultingCommandWritesOnlyItsRecord : Obligations.FaultingCommandWritesOnlyItsRecord := by
  unfold Obligations.FaultingCommandWritesOnlyItsRecord
  intro i s t h herr
  obtain ⟨e, info, he, rfl⟩ := exec_raised_inv h herr
  have hfault := raise_faultedWith e info s
  refine ⟨info, hfault.err ▸ hfault, ?_⟩
  rw [hfault.err]
  cases e with
  | illcmd => exact absurd rfl he
  | empty | addr | overlap | state | nocode | dstovf | malformed | bus => decide

theorem getLsbD_setErrp_one (p : BitVec 2) : (setErrp p).getLsbD 1 = true := by revert p; decide

theorem getLsbD_setDone_one (p : BitVec 2) : (setDone p).getLsbD 1 = p.getLsbD 1 := by revert p; decide

theorem raise_err_ne_zero (e : ErrCode) (info : Nat) (s : State) : (raise e info s).err ≠ 0 := by
  have hcode : BitVec.ofNat 32 e.code ≠ 0 := by cases e <;> decide
  exact hcode

/-- What a completion leaves in BUSY and IPEND (40_control.md R113, 60_exceptions.md R200). -/
structure Signals (s t : State) : Prop where
  busy : t.busy = false
  done : t.ipend.getLsbD 0 = true
  errp : t.ipend.getLsbD 1 = true ↔ s.ipend.getLsbD 1 = true ∨ t.err ≠ 0

theorem raise_signals (e : ErrCode) (info : Nat) (s : State) : Signals s (raise e info s) where
  busy := rfl
  done := by rw [(raise_faultedWith e info s).ipend]; rfl
  errp := by
    rw [raise_ipend, getLsbD_setErrp_one]
    exact iff_of_true rfl (.inr (raise_err_ne_zero e info s))

theorem complete_signals {s u : State} (hp : u.ipend = s.ipend) : Signals s (complete u) where
  busy := rfl
  done := getLsbD_setDone_zero u.ipend
  errp := by rw [complete_ipend, getLsbD_setDone_one, hp, complete_err, ne_self_iff_false, or_false]

/-- Settles O10: every completion but SRESET's goes through `complete` or `raise`. -/
theorem completionSetsPendingBits : Obligations.CompletionSetsPendingBits := by
  unfold Obligations.CompletionSetsPendingBits
  intro s t h hno
  have hsignals : Signals s t := by
    obtain ⟨i, hi, hexec⟩ | ⟨_, _, rfl⟩ := runLatched_inv h
    · obtain ⟨e, info, rfl⟩ | ⟨rfl, _⟩ | ⟨_, u, rfl, _, hp, _⟩ := exec_inv hexec
      · exact raise_signals e info s
      · exact absurd hi hno
      · exact complete_signals hp
    · exact raise_signals .illcmd _ s
  exact ⟨hsignals.busy, hsignals.done, hsignals.errp⟩

end Sys2Proof.Machine
end

section
/-! What a command that completes without error has written, one rule per command, and what a step does to the tables,
the fault record and MEM: every invariant of 10_state.md section 10 is read off these. -/

namespace Sys2Proof.Machine

/-- `Effect i s u`: command `i` other than SRESET, run on `s` without error, completes the state `u`. -/
inductive Effect : Instr → State → State → Prop
  | nop {s} : Effect .nop s s
  | fclr {s} : Effect .fclr s (invalidate { s with freq := zeroCounts, valid := noEntries, nent := 0 })
  | fset {s} (sym : BitVec 8) : Effect (.fset sym) s (invalidate { s with
      freq := s.freq.set sym.toNat s.latched.arg
      valid := s.valid.set sym.toNat true
      nent := if s.valid.get sym.toNat then s.nent else s.nent + 1 })
  | fget {s} (sym : BitVec 8) : Effect (.fget sym) s { s with
      res0 := s.freq.get sym.toNat
      res1 := (BitVec.ofBool (s.valid.get sym.toNat)).setWidth 32
      res2 := 0 }
  | count {s} (hs : SourceReady s) : Effect .count s (invalidate { s with
      freq := countBytes (sourceBytes s)
      valid := markBytes (sourceBytes s)
      nent := BitVec.ofNat 9 (entryCount (markBytes (sourceBytes s))) })
  | entropy {s} (hs : SourceReady s) : Effect .entropy s { s with ent := entq (countBytes (sourceBytes s)).cells }
  | build {s} : Effect .build s { invalidate s with
      node := (buildTree s.freq s.valid).node
      root := (buildTree s.freq s.valid).root
      nnode := (buildTree s.freq s.valid).nnode
      tkind := (buildTree s.freq s.valid).tkind }
  | tget {s} (idx : BitVec 9) (r0 r1 r2 : Word) : Effect (.tget idx) s { s with res0 := r0, res1 := r1, res2 := r2 }
  | gencode {s} (htree : s.tkind ≠ .none) : Effect .gencode s { s with
      code := genCodes s.tkind s.root s.node
      codeV := true }
  | cget {s} (sym : BitVec 8) : Effect (.cget sym) s { s with
      res0 := BitVec.ofNat 32 (s.code.get sym.toNat).length
      res1 := 0
      res2 := 0
      codew := .tabulate 8 (alignedWord (s.code.get sym.toNat)) }
  | pack {s} (hs : SourceReady s) (hd : DestReady s)
      (hcap : byteCount (totalBits s.code (sourceBytes s)) ≤ s.latched.dcap.toNat) : Effect .pack s { s with
        mem := s.mem.writeBytes s.latched.dst.toNat (payload s.code (sourceBytes s))
        outlen := BitVec.ofNat 32 (byteCount (totalBits s.code (sourceBytes s)))
        pad := BitVec.ofNat 3 (padCount (totalBits s.code (sourceBytes s)))
        bitlenLo := BitVec.ofNat 32 (totalBits s.code (sourceBytes s))
        bitlenHi := BitVec.ofNat 8 (totalBits s.code (sourceBytes s) / 2 ^ 32) }
  | unpack {s} (out : List Byte) (hs : SourceReady s) (hd : DestReady s)
      (hcap : out.length ≤ s.latched.dcap.toNat) : Effect .unpack s { s with
        mem := s.mem.writeBytes s.latched.dst.toNat out
        outlen := BitVec.ofNat 32 out.length }

/-- Every way a command answers a next state. -/
theorem exec_effect {i : Instr} {s t : State} (h : exec i s = .next t) :
    (∃ e info, t = raise e info s) ∨ (i = .sreset ∧ t = blockReset s) ∨ ∃ u, Effect i s u ∧ t = complete u := by
  cases i with
  | nop => cases h; exact .inr (.inr ⟨_, .nop, rfl⟩)
  | sreset => cases h; exact .inr (.inl ⟨rfl, rfl⟩)
  | fclr => cases h; exact .inr (.inr ⟨_, .fclr, rfl⟩)
  | fset sym => cases h; exact .inr (.inr ⟨_, .fset sym, rfl⟩)
  | fget sym => cases h; exact .inr (.inr ⟨_, .fget sym, rfl⟩)
  | build => cases h; exact .inr (.inr ⟨_, .build, rfl⟩)
  | count =>
    obtain ⟨_, _, _, rfl⟩ | ⟨hs, rfl⟩ := execCount_inv h
    · exact .inl ⟨_, _, rfl⟩
    · exact .inr (.inr ⟨_, .count hs, rfl⟩)
  | entropy =>
    obtain ⟨_, rfl⟩ | ⟨_, _, _, _, rfl⟩ | ⟨_, hs, rfl⟩ := execEntropy_inv h
    · exact .inl ⟨_, _, rfl⟩
    · exact .inl ⟨_, _, rfl⟩
    · exact .inr (.inr ⟨_, .entropy hs, rfl⟩)
  | tget idx =>
    obtain ⟨_, rfl⟩ | ⟨_, _, _, _, rfl⟩ := execTget_inv h
    · exact .inl ⟨_, _, rfl⟩
    · exact .inr (.inr ⟨_, .tget idx _ _ _, rfl⟩)
  | gencode =>
    obtain ⟨_, rfl⟩ | ⟨htree, rfl⟩ := execGencode_inv h
    · exact .inl ⟨_, _, rfl⟩
    · exact .inr (.inr ⟨_, .gencode htree, rfl⟩)
  | cget sym =>
    obtain ⟨_, rfl⟩ | ⟨_, rfl⟩ := execCget_inv h
    · exact .inl ⟨_, _, rfl⟩
    · exact .inr (.inr ⟨_, .cget sym, rfl⟩)
  | pack =>
    obtain ⟨_, rfl⟩ | ⟨_, _, _, _, rfl⟩ | ⟨_, _, _, _, _, rfl⟩ | ⟨_, _, _, _, _, rfl⟩ | ⟨_, hs, hd, _, hcap, rfl⟩ :=
      execPack_inv h
    · exact .inl ⟨_, _, rfl⟩
    · exact .inl ⟨_, _, rfl⟩
    · exact .inl ⟨_, _, rfl⟩
    · exact .inl ⟨_, _, rfl⟩
    · exact .inr (.inr ⟨_, .pack hs hd hcap, rfl⟩)
  | unpack =>
    obtain ⟨_, rfl⟩ | ⟨_, _, rfl⟩ | ⟨_, _, _, rfl⟩ | ⟨_, _, _, _, rfl⟩ | ⟨_, _, _, _, _, rfl⟩ |
      ⟨_, _, _, _, _, _, rfl⟩ | ⟨_, hs, hd, out, _, hcap, rfl⟩ := execUnpack_inv h
    · exact .inl ⟨_, _, rfl⟩
    · exact .inl ⟨_, _, rfl⟩
    · exact .inl ⟨_, _, rfl⟩
    · exact .inl ⟨_, _, rfl⟩
    · exact .inl ⟨_, _, rfl⟩
    · exact .inl ⟨_, _, rfl⟩
    · exact .inr (.inr ⟨_, .unpack out hs hd hcap, rfl⟩)

/-! ### What the host and the completion record leave alone -/

/-- The tables, the tree, the codes and ENT are unchanged. -/
structure SameEngine (s t : State) : Prop where
  table : SameTable s t
  tree : SameTree s t
  codes : SameCodes s t
  ent : t.ent = s.ent

/-- What a host transaction or acceptance does to what the invariants speak of, short of a hardware reset: nothing, but
for HOSTVIOL in the log and bytes of MEM (40_control.md R119, 70_reset_and_hazards.md R245, R251). -/
structure HostMoved (s t : State) : Prop where
  engine : SameEngine s t
  err : t.err = s.err
  errlog : t.errlog = s.errlog ∨ t.errlog = logBit s.errlog hostViolBit
  mem : s.mem.wf = true → t.mem.wf = true

theorem SameEngine.refl (s : State) : SameEngine s s := by repeat' constructor

theorem raise_sameEngine (e : ErrCode) (info : Nat) (s : State) : SameEngine s (raise e info s) := by
  repeat' constructor

theorem complete_sameEngine (s : State) : SameEngine s (complete s) := by repeat' constructor

theorem HostMoved.of_mem {s t : State} (h : SameEngine s t) (herr : t.err = s.err) (hlog : t.errlog = s.errlog)
    (hmem : t.mem = s.mem) : HostMoved s t :=
  ⟨h, herr, .inl hlog, fun hwf => hmem ▸ hwf⟩

theorem HostMoved.refl (s : State) : HostMoved s s := .of_mem (.refl s) rfl rfl rfl

theorem hostMoved_of_rest {s t : State} (rest : List HostTxn) (left : Nat)
    (h : HostMoved { s with script := rest, left := left } t) : HostMoved s t := by
  obtain ⟨⟨htable, htree, hcodes, hent⟩, herr, hlog, hmem⟩ := h
  obtain ⟨hfreq, hvalid, hnent⟩ := htable
  obtain ⟨hnode, hroot, hnnode, htkind⟩ := htree
  obtain ⟨hcode, hcodeV⟩ := hcodes
  exact ⟨⟨⟨hfreq, hvalid, hnent⟩, ⟨hnode, hroot, hnnode, htkind⟩, ⟨hcode, hcodeV⟩, hent⟩, herr, hlog, hmem⟩

theorem memWrite_hostMoved (s : State) (a : Word) (v : Byte) :
    HostMoved s { s with mem := s.mem.write a.toNat v } where
  engine := by repeat' constructor
  err := rfl
  errlog := .inl rfl
  mem hwf := Memory.write_wf hwf a.isLt v

theorem writeReg_hostMoved (off : Nat) (v : Word) (s : State) : HostMoved s (writeReg off v s) := by
  unfold writeReg
  split <;> exact .of_mem (by repeat' constructor) rfl rfl rfl

theorem accept_hostMoved (w : Word) (s : State) : HostMoved s (accept w s) :=
  .of_mem (by repeat' constructor) rfl rfl rfl

/-- The bytes a hardware reset draws lie inside MEM (70_reset_and_hazards.md R242). -/
theorem scrambleDest_hostMoved (s : State) : HostMoved s (scrambleDest s) := by
  unfold scrambleDest
  split
  next i hi =>
    split
    · refine ⟨by repeat' constructor, rfl, .inl rfl, fun hwf => Memory.writeBytes_wf hwf _ _ ?_⟩
      have hdst : s.latched.dst.toNat < Config.memBytes := s.latched.dst.isLt
      rw [List.length_map, List.length_range]
      omega
    · exact .refl s
  next => exact .refl s

/-- Every way a step answers a next state, for what the invariants speak of: the host moves, a command runs (a hardware
reset is the reset SRESET makes), or a word of no command is refused. -/
theorem step_moves {s t : State} (h : step s = .next t) :
    HostMoved s t ∨ (∃ i u, HostMoved s u ∧ exec i u = .next t) ∨
      ∃ u info, HostMoved s u ∧ t = raise .illcmd info u := by
  have hrun {u : State} (hu : HostMoved s u) (hrun : runLatched u = .next t) :
      (∃ i u, HostMoved s u ∧ exec i u = .next t) ∨ ∃ u info, HostMoved s u ∧ t = raise .illcmd info u := by
    obtain ⟨i, _, hexec⟩ | ⟨_, _, ht⟩ := runLatched_inv hrun
    · exact .inl ⟨i, u, hu, hexec⟩
    · exact .inr ⟨u, _, hu, ht⟩
  obtain ⟨_, hlatched⟩ | ⟨_, _, rfl⟩ | ⟨_, txn, rest, _, hturn⟩ := step_inv h
  · exact .inr (hrun (.refl s) hlatched)
  · exact .inl (.refl _)
  · unfold hostTurn at hturn
    split at hturn
    · obtain rfl | ⟨a, v, _, _, _, rfl⟩ | ⟨_, rfl⟩ | ⟨_, _, _, rfl⟩ := busyTurn_inv hturn
      · exact .inl ⟨by repeat' constructor, rfl, .inr rfl, id⟩
      · exact .inl (hostMoved_of_rest rest _ (memWrite_hostMoved _ a v))
      · exact .inr (.inl ⟨.sreset, _, hostMoved_of_rest rest _ (scrambleDest_hostMoved _), rfl⟩)
      · exact .inl (.of_mem (by repeat' constructor) rfl rfl rfl)
    · obtain ⟨w, _, hissue⟩ | ⟨off, v, _, _, rfl⟩ | ⟨a, v, _, rfl⟩ | ⟨_, rfl⟩ | ⟨_, _, rfl⟩ := idleTurn_inv hturn
      · have haccept := hostMoved_of_rest rest s.left (accept_hostMoved w { s with script := rest })
        simp only [issue] at hissue
        split at hissue
        · exact .inr (hrun haccept hissue)
        · cases hissue
          exact .inl haccept
      · exact .inl (hostMoved_of_rest rest s.left (writeReg_hostMoved off v _))
      · exact .inl (hostMoved_of_rest rest s.left (memWrite_hostMoved _ a v))
      · exact .inr (.inl ⟨.sreset, { s with script := rest }, .of_mem (by repeat' constructor) rfl rfl rfl, rfl⟩)
      · exact .inl (.of_mem (by repeat' constructor) rfl rfl rfl)

/-- An invariant that host moves, commands and ILLCMD keep is kept by every step. -/
theorem step_keeps {P : State → Prop} (hhost : ∀ s t, P s → HostMoved s t → P t)
    (hexec : ∀ i s t, P s → exec i s = .next t → P t) (hill : ∀ s info, P s → P (raise .illcmd info s))
    (s t : State) (hs : P s) (h : step s = .next t) : P t := by
  obtain hmoved | ⟨i, u, hmoved, hrun⟩ | ⟨u, info, hmoved, rfl⟩ := step_moves h
  · exact hhost s t hs hmoved
  · exact hexec i u t (hhost s u hs hmoved) hrun
  · exact hill u info (hhost s u hs hmoved)

/-- For an invariant of the tables, the tree, the codes and ENT only the effects of the commands are left to look at. -/
theorem step_keeps_engine {P : State → Prop} (hsame : ∀ s t, P s → SameEngine s t → P t)
    (hreset : ∀ s, P (blockReset s)) (heffect : ∀ i s u, P s → Effect i s u → P u)
    (s t : State) (hs : P s) (h : step s = .next t) : P t := by
  refine step_keeps (fun s t hs hmoved => hsame s t hs hmoved.engine) (fun i s t hs hexec => ?_)
    (fun s info hs => hsame s _ hs (raise_sameEngine _ info s)) s t hs h
  obtain ⟨e, info, rfl⟩ | ⟨_, rfl⟩ | ⟨u, heff, rfl⟩ := exec_effect hexec
  · exact hsame s _ hs (raise_sameEngine e info s)
  · exact hreset s
  · exact hsame u _ (heffect i s u hs heff) (complete_sameEngine u)

end Sys2Proof.Machine
end

section
/-! The invariants of the tables, the tree and the codes (10_state.md R55 to R57, R52, R34). -/

namespace Sys2Proof.Machine

theorem TableInv.of_same {s t : State} (h : TableInv s) (hsame : SameTable s t) : TableInv t := by
  obtain ⟨hfreq, hvalid, hnent⟩ := hsame
  exact ⟨by rw [hnent, hvalid, h.nent], by rw [hfreq, hvalid]; exact h.absent⟩

theorem entryCount_le (valid : Table Bool 256) : entryCount valid ≤ 256 :=
  List.count_le_length.trans_eq valid.length_eq

theorem entryCount_noEntries : entryCount noEntries = 0 :=
  List.count_eq_zero_of_not_mem fun h => Bool.false_ne_true (List.eq_of_mem_replicate h).symm

/-- A new entry adds one to the population count, an entry set again adds nothing (42_freqtable.md R131). -/
theorem entryCount_set (valid : Table Bool 256) {i : Nat} (hi : i < 256) :
    entryCount (valid.set i true) = entryCount valid + if valid.get i then 0 else 1 := by
  have hlen : i < valid.cells.length := by rw [valid.length_eq]; exact hi
  have hpos (h : valid.cells[i] = true) : 0 < valid.cells.count true :=
    List.count_pos_iff.mpr (h ▸ List.getElem_mem hlen)
  rw [entryCount, Table.set, List.count_set hlen, Table.get_eq_getElem valid hi, entryCount]
  cases hv : valid.cells[i] with
  | true =>
    have := hpos hv
    simp
    omega
  | false => simp

theorem toNat_ofNat_entryCount (valid : Table Bool 256) : (BitVec.ofNat 9 (entryCount valid)).toNat = entryCount valid :=
  Nat.mod_eq_of_lt (by have := entryCount_le valid; omega)

theorem countBytes_of_unmarked {bytes : List Byte} {i : Nat} (hi : i < 256) (h : (markBytes bytes).get i = false) :
    (countBytes bytes).get i = 0 := by
  obtain ⟨b, rfl⟩ : ∃ b : Byte, i = b.toNat := ⟨BitVec.ofNat 8 i, (Nat.mod_eq_of_lt hi).symm⟩
  rw [get_markBytes, decide_eq_false_iff_not] at h
  rw [get_countBytes, List.count_eq_zero_of_not_mem h]
  rfl

theorem fset_tableInv {s : State} (h : TableInv s) (sym : BitVec 8) : TableInv (invalidate { s with
    freq := s.freq.set sym.toNat s.latched.arg
    valid := s.valid.set sym.toNat true
    nent := if s.valid.get sym.toNat then s.nent else s.nent + 1 }) where
  nent := by
    have hsym : sym.toNat < 256 := sym.isLt
    have hcount := entryCount_set s.valid hsym
    have hle := entryCount_le (s.valid.set sym.toNat true)
    have hnent : s.nent.toNat = entryCount s.valid := h.nent
    change _ = entryCount (s.valid.set sym.toNat true)
    cases hv : s.valid.get sym.toNat <;> simp [hv] at hcount ⊢ <;> omega
  absent i hi habsent := by
    have hsym : sym.toNat < 256 := sym.isLt
    change (s.valid.set sym.toNat true).get i = false at habsent
    change (s.freq.set sym.toNat s.latched.arg).get i = 0
    rw [Table.get_set _ _ _ hsym] at habsent ⊢
    split at habsent
    · cases habsent
    · rw [if_neg ‹_›]
      exact h.absent i hi habsent

theorem effect_tableInv {i : Instr} {s u : State} (h : TableInv s) (heff : Effect i s u) : TableInv u := by
  cases heff with
  | fclr => exact ⟨entryCount_noEntries.symm, fun _ hi _ => zeroCounts_get hi⟩
  | fset sym => exact fset_tableInv h sym
  | count _ => exact ⟨toNat_ofNat_entryCount _, fun i hi => countBytes_of_unmarked hi⟩
  | nop | fget _ | entropy _ | build | tget _ _ _ _ | gencode _ | cget _ | pack _ _ _ | unpack _ _ _ _ =>
    exact ⟨h.nent, h.absent⟩

theorem blockReset_tableInv (s : State) : TableInv (blockReset s) :=
  ⟨entryCount_noEntries.symm, fun _ hi _ => zeroCounts_get hi⟩

/-- Settles O46: FCLR and COUNT make the table anew, FSET counts a new entry, and nothing else writes it. -/
theorem stepKeepsTheTableInvariant : Obligations.StepKeepsTheTableInvariant := by
  unfold Obligations.StepKeepsTheTableInvariant
  exact step_keeps_engine (fun s t hs hsame => hs.of_same hsame.table) blockReset_tableInv fun i s u => effect_tableInv

theorem TreeInv.of_same {s t : State} (h : TreeInv s) (htable : SameTable s t) (htree : SameTree s t) : TreeInv t := by
  obtain ⟨hfreq, hvalid, _⟩ := htable
  obtain ⟨hnode, hroot, hnnode, htkind⟩ := htree
  constructor
  · rw [hfreq, hvalid, hnode, hroot, hnnode, htkind]; exact h.built
  · rw [hroot, hnnode, htkind]; exact h.dropped

theorem TreeInv.of_none {s : State} (htkind : s.tkind = .none) (hroot : s.root = 0) (hnnode : s.nnode = 0) : TreeInv s :=
  ⟨fun h => absurd htkind h, fun _ => ⟨hroot, hnnode⟩⟩

/-- BUILD always makes a valid tree (43_tree.md R140). -/
theorem buildTree_tkind_ne_none (freq : Table Word 256) (valid : Table Bool 256) :
    (buildTree freq valid).tkind ≠ .none := by
  simp only [buildTree]
  split
  · nofun
  · dsimp only
    split <;> nofun

theorem effect_treeInv {i : Instr} {s u : State} (h : TreeInv s) (heff : Effect i s u) : TreeInv u := by
  cases heff with
  | build => exact ⟨fun _ => rfl, fun hnone => absurd hnone (buildTree_tkind_ne_none s.freq s.valid)⟩
  | fclr | fset _ | count _ => exact .of_none rfl rfl rfl
  | nop | fget _ | entropy _ | tget _ _ _ _ | gencode _ | cget _ | pack _ _ _ | unpack _ _ _ _ =>
    exact ⟨h.built, h.dropped⟩

/-- Settles O47: BUILD makes the tree of the table, and what writes the table drops the tree. -/
theorem stepKeepsTheTreeInvariant : Obligations.StepKeepsTheTreeInvariant := by
  unfold Obligations.StepKeepsTheTreeInvariant
  exact step_keeps_engine (fun s t hs hsame => hs.of_same hsame.table hsame.tree) (fun s => .of_none rfl rfl rfl)
    fun i s u => effect_treeInv

theorem CodeInv.of_same {s t : State} (h : CodeInv s) (htree : SameTree s t) (hcodes : SameCodes s t) : CodeInv t := by
  obtain ⟨hnode, hroot, _, htkind⟩ := htree
  obtain ⟨hcode, hcodeV⟩ := hcodes
  constructor
  rw [hcodeV, hcode, hnode, hroot, htkind]
  exact h.generated

theorem CodeInv.of_invalid {s : State} (h : s.codeV = false) : CodeInv s :=
  ⟨fun hv => absurd hv (by rw [h]; exact Bool.false_ne_true)⟩

theorem effect_codeInv {i : Instr} {s u : State} (h : CodeInv s) (heff : Effect i s u) : CodeInv u := by
  cases heff with
  | gencode htree => exact ⟨fun _ => ⟨htree, rfl⟩⟩
  | fclr | fset _ | count _ | build => exact .of_invalid rfl
  | nop | fget _ | entropy _ | tget _ _ _ _ | cget _ | pack _ _ _ | unpack _ _ _ _ => exact ⟨h.generated⟩

/-- Settles O48: GENCODE makes the codes of the tree, and what writes the tree clears CODE_V. -/
theorem stepKeepsTheCodeInvariant : Obligations.StepKeepsTheCodeInvariant := by
  unfold Obligations.StepKeepsTheCodeInvariant
  exact step_keeps_engine (fun s t hs hsame => hs.of_same hsame.tree hsame.codes) (fun s => .of_invalid rfl)
    fun i s u => effect_codeInv

theorem codeLengthInv_blankCodes {i : Nat} (hi : i < 256) : (blankCodes.get i).length ≤ 255 := by
  rw [blankCodes, Table.get_fill _ hi]
  exact Nat.zero_le _

theorem length_leafCode_le {path : Code} (h : path.length ≤ 255) : (leafCode path).length ≤ 255 := by
  unfold leafCode
  split
  · exact Nat.le_of_ble_eq_true rfl
  · exact h

/-- The walk gives no code longer than the levels it may still go down (44_codetable.md R164). -/
theorem length_walk_le {fuel : Nat} {node : Table Node 511} {i : BitVec 9} {path : Code} {code : Table Code 256}
    (hfuel : path.length + fuel ≤ 256) (hcode : ∀ j, j < 256 → (code.get j).length ≤ 255) :
    ∀ j, j < 256 → ((walk fuel node i path code).get j).length ≤ 255 := by
  induction fuel generalizing i path code with
  | zero => exact hcode
  | succ fuel ih =>
    unfold walk
    split
    next hleaf =>
      intro j hj
      have hi : i.toNat < 256 := Nat.lt_succ_of_le (of_decide_eq_true hleaf)
      rw [Table.get_set _ _ _ hi]
      split
      · exact length_leafCode_le (by omega)
      · exact hcode j hj
    next =>
      have hdeeper (b : Bool) : (path ++ [b]).length + fuel ≤ 256 := by simp; omega
      exact ih (hdeeper true) (ih (hdeeper false) hcode)

theorem length_genCodes_le (tkind : TKind) (root : BitVec 9) (node : Table Node 511) {j : Nat} (hj : j < 256) :
    ((genCodes tkind root node).get j).length ≤ 255 := by
  unfold genCodes
  split
  · exact codeLengthInv_blankCodes hj
  · exact length_walk_le (by decide) (fun i => codeLengthInv_blankCodes) j hj

theorem effect_codeLengthInv {i : Instr} {s u : State} (h : CodeLengthInv s) (heff : Effect i s u) : CodeLengthInv u := by
  cases heff with
  | gencode _ => exact fun j => length_genCodes_le s.tkind s.root s.node
  | nop | fclr | fset _ | fget _ | count _ | entropy _ | build | tget _ _ _ _ | cget _ | pack _ _ _ | unpack _ _ _ _ =>
    exact h

theorem entqExact_le (c : List Word) : entqExact c ≤ Config.entMax := by
  unfold entqExact
  exact Nat.findGreatest_le _

/-- Whatever the implementation proposes, ENTQ never exceeds 8.0 (41_entropy.md R122 `ENTQ_max`). -/
theorem toNat_entq_le (c : List Word) : (entq c).toNat ≤ Config.entMax := by
  unfold entq
  split
  · exact Nat.zero_le _
  · split
    next hadm => exact hadm.1
    next =>
      rw [BitVec.toNat_ofNat]
      exact (Nat.mod_le _ _).trans (entqExact_le c)

theorem effect_entInv {i : Instr} {s u : State} (h : EntInv s) (heff : Effect i s u) : EntInv u := by
  cases heff with
  | entropy _ => exact toNat_entq_le _
  | nop | fclr | fset _ | fget _ | count _ | build | tget _ _ _ _ | gencode _ | cget _ | pack _ _ _ | unpack _ _ _ _ =>
    exact h

/-- Settles O51: GENCODE's walk goes down 256 levels, and ENTQ has its maximum built in. -/
theorem stepKeepsCodeLengthsAndEntropyInRange : Obligations.StepKeepsCodeLengthsAndEntropyInRange := by
  unfold Obligations.StepKeepsCodeLengthsAndEntropyInRange
  refine fun s t h => ⟨fun hlen => ?lengths, fun hent => ?entropy⟩
  case lengths =>
    exact step_keeps_engine (fun s t hs hsame => by unfold CodeLengthInv; rw [hsame.codes.code]; exact hs)
      (fun s i => codeLengthInv_blankCodes) (fun i s u => effect_codeLengthInv) s t hlen h
  case entropy =>
    exact step_keeps_engine (fun s t hs hsame => by unfold EntInv; rw [hsame.ent]; exact hs)
      (fun s => Nat.zero_le _) (fun i s u => effect_entInv) s t hent h

end Sys2Proof.Machine
end

section
/-! The invariants of the fault record, of MEM and of the latched operands (10_state.md R41, R43, R53; 20_memory.md R63),
and the stickiness of ERRLOG (10_state.md R43). -/

namespace Sys2Proof.Machine

theorem getLsbD_logBit (errlog : Word) {n : Nat} (hn : n < 32) (j : Nat) :
    (logBit errlog n).getLsbD j = (errlog.getLsbD j || decide (j = n)) := by
  rw [logBit, BitVec.getLsbD_or, BitVec.getLsbD_twoPow]
  simp only [hn, decide_true, Bool.true_and, eq_comm]

theorem HostMoved.recordInv {s t : State} (h : RecordInv s) (hmoved : HostMoved s t) : RecordInv t := by
  obtain hlog | hlog := hmoved.errlog
  · refine ⟨by rw [hmoved.err]; exact h.codes, ?_, by rw [hlog]; exact h.reserved⟩
    rw [hmoved.err, hlog]
    exact h.logged
  · have hbit := getLsbD_logBit s.errlog (n := hostViolBit) (by decide)
    refine ⟨by rw [hmoved.err]; exact h.codes, fun herr => ?_, fun j hj => ?_⟩
    · rw [hmoved.err] at herr ⊢
      rw [hlog, hbit, h.logged herr, Bool.true_or]
    · rw [hlog, hbit, Bool.or_eq_true, decide_eq_true_eq] at hj
      exact hj.elim (h.reserved j) .inr

theorem raise_recordInv {s : State} (h : RecordInv s) (e : ErrCode) (info : Nat) : RecordInv (raise e info s) := by
  have hfault := raise_faultedWith e info s
  have hcode : 1 ≤ e.code ∧ e.code ≤ 9 := by cases e <;> decide
  refine ⟨hfault.err ▸ hcode.2, fun _ => ?logged, fun j hj => ?reserved⟩
  case logged => rw [hfault.errlog, hfault.err, decide_eq_true rfl, Bool.or_true]
  case reserved =>
    rw [hfault.errlog, Bool.or_eq_true, decide_eq_true_eq] at hj
    exact hj.elim (h.reserved j) fun hj => .inl (hj ▸ hcode)

theorem exec_recordInv {i : Instr} {s t : State} (h : RecordInv s) (hexec : exec i s = .next t) : RecordInv t := by
  obtain ⟨e, info, rfl⟩ | ⟨_, rfl⟩ | ⟨_, u, rfl, hlog, _⟩ := exec_inv hexec
  · exact raise_recordInv h e info
  · exact ⟨Nat.zero_le _, fun hne => absurd rfl hne, fun j hj => absurd hj (by simp [State.reset])⟩
  · refine ⟨Nat.zero_le _, fun hne => absurd rfl hne, fun j hj => h.reserved j ?_⟩
    rwa [complete_errlog, hlog] at hj

/-- Settles O49: `raise` logs the error it records, a dropped write logs bit 31, and nothing else sets a bit. -/
theorem stepKeepsTheFaultRecord : Obligations.StepKeepsTheFaultRecord := by
  unfold Obligations.StepKeepsTheFaultRecord
  exact step_keeps (fun s t => HostMoved.recordInv) (fun i s t => exec_recordInv) fun s info hs => raise_recordInv hs _ info

theorem length_codeString (code : Table Code 256) (bytes : List Byte) :
    (codeString code bytes).length = totalBits code bytes := by
  rw [codeString, totalBits, List.length_flatMap]

/-- The padding makes whole bytes, as many as PACK reports. -/
theorem eight_mul_byteCount (t : Nat) : t + padCount t = 8 * byteCount t := by
  rw [byteCount, padCount]
  omega

theorem length_padded (code : Table Code 256) (bytes : List Byte) :
    (codeString code bytes ++ List.replicate (padCount (totalBits code bytes)) false).length =
      8 * byteCount (totalBits code bytes) := by
  rw [List.length_append, List.length_replicate, length_codeString, eight_mul_byteCount]

theorem length_payload (code : Table Code 256) (bytes : List Byte) :
    (payload code bytes).length = byteCount (totalBits code bytes) :=
  (unpackBits_packBytes _ _ (length_padded code bytes)).2

/-- What PACK and UNPACK write ends inside their destination window, so inside MEM. -/
theorem effect_mem_wf {i : Instr} {s u : State} (h : s.mem.wf = true) (heff : Effect i s u) : u.mem.wf = true := by
  cases heff with
  | pack _ hd hcap =>
    refine Memory.writeBytes_wf h _ _ ?_
    have := hd.inMem
    rw [length_payload, Config.memBytes]
    omega
  | unpack out _ hd hcap =>
    refine Memory.writeBytes_wf h _ _ ?_
    have := hd.inMem
    rw [Config.memBytes]
    omega
  | nop | fclr | fset _ | fget _ | count _ | entropy _ | build | tget _ _ _ _ | gencode _ | cget _ => exact h

theorem exec_mem_wf {i : Instr} {s t : State} (h : s.mem.wf = true) (hexec : exec i s = .next t) : t.mem.wf = true := by
  obtain ⟨e, info, rfl⟩ | ⟨_, rfl⟩ | ⟨u, heff, rfl⟩ := exec_effect hexec
  · exact h
  · exact h
  · rw [complete_mem]
    exact effect_mem_wf h heff

/-- Settles O50: every write, the host's, a command's or a reset's draws, is to addresses of MEM. -/
theorem stepKeepsMemoryCanonical : Obligations.StepKeepsMemoryCanonical := by
  unfold Obligations.StepKeepsMemoryCanonical
  exact step_keeps (P := fun s => s.mem.wf = true) (fun s t hs hmoved => hmoved.mem hs) (fun i s t => exec_mem_wf)
    fun s info hs => hs

theorem LatchInv.of_idle {s : State} (h : s.busy = false) : LatchInv s := fun hb =>
  absurd hb (by rw [h]; exact Bool.false_ne_true)

theorem accept_latchInv (w : Word) (s : State) : LatchInv (accept w s) := fun _ => rfl

theorem issue_latchInv {w : Word} {s t : State} (h : issue w s = .next t) : LatchInv t := by
  simp only [issue] at h
  split at h
  · exact .of_idle (runLatched_busy h)
  · cases h; exact accept_latchInv w s

theorem writeReg_busy (off : Nat) (v : Word) (s : State) : (writeReg off v s).busy = s.busy := by
  unfold writeReg
  split <;> rfl

theorem idleTurn_latchInv {txn : HostTxn} {s t : State} (hb : s.busy = false) (h : idleTurn txn s = .next t) :
    LatchInv t := by
  obtain ⟨w, _, hissue⟩ | ⟨off, v, _, _, rfl⟩ | ⟨_, _, _, rfl⟩ | ⟨_, rfl⟩ | ⟨_, _, rfl⟩ := idleTurn_inv h
  · exact issue_latchInv hissue
  · exact .of_idle ((writeReg_busy off v s).trans hb)
  · exact .of_idle hb
  · exact .of_idle rfl
  · exact .of_idle hb

theorem busyTurn_latchInv {txn : HostTxn} {s t : State} (hs : LatchInv s) (h : busyTurn txn s = .next t) : LatchInv t := by
  obtain rfl | ⟨_, _, _, _, _, rfl⟩ | ⟨_, rfl⟩ | ⟨_, _, _, rfl⟩ := busyTurn_inv h
  · exact hs
  · exact hs
  · exact .of_idle rfl
  · exact hs

/-- Settles O52: acceptance latches the registers, and no write lands on them while the command runs. -/
theorem stepKeepsLatchedOperands : Obligations.StepKeepsLatchedOperands := by
  unfold Obligations.StepKeepsLatchedOperands
  intro s t hs h
  obtain ⟨_, hrun⟩ | ⟨_, _, rfl⟩ | ⟨_, txn, rest, _, hturn⟩ := step_inv h
  · exact .of_idle (runLatched_busy hrun)
  · exact hs
  · unfold hostTurn at hturn
    split at hturn
    · exact busyTurn_latchInv (s := { s with script := rest, left := s.left - 1 }) hs hturn
    next hidle => exact idleTurn_latchInv (eq_false_of_ne_true hidle) hturn

/-- Settles O53: the reset state is blank, with no tree, no code table and no command running. -/
theorem resetMeetsTheInvariants : Obligations.ResetMeetsTheInvariants := by
  unfold Obligations.ResetMeetsTheInvariants
  have htable : TableInv State.reset := blockReset_tableInv State.reset
  have hrecord : RecordInv State.reset :=
    ⟨Nat.zero_le _, fun hne => absurd rfl hne, fun j hj => absurd hj (by simp [State.reset])⟩
  exact ⟨htable, .of_none rfl rfl rfl, .of_invalid rfl, hrecord, rfl, fun i => codeLengthInv_blankCodes, .of_idle rfl,
    Nat.zero_le _⟩

/-- Every bit of the log is still set. -/
def LogKept (s t : State) : Prop := ∀ j, s.errlog.getLsbD j = true → t.errlog.getLsbD j = true

theorem LogKept.of_eq {s t : State} (h : t.errlog = s.errlog) : LogKept s t := fun _ hj => h ▸ hj

theorem raise_logKept (e : ErrCode) (info : Nat) (s : State) : LogKept s (raise e info s) := fun j hj => by
  rw [(raise_faultedWith e info s).errlog, hj, Bool.true_or]

theorem writeReg_errlog (off : Nat) (v : Word) (s : State) : (writeReg off v s).errlog = s.errlog := by
  unfold writeReg
  split <;> rfl

theorem runLatched_logKept {s t : State} (hno : s.latched.word ≠ 0x00000001) (h : runLatched s = .next t) :
    LogKept s t := by
  obtain ⟨i, hdecode, hexec⟩ | ⟨_, _, rfl⟩ := runLatched_inv h
  · obtain ⟨e, info, rfl⟩ | ⟨rfl, _⟩ | ⟨_, u, rfl, hlog, _⟩ := exec_inv hexec
    · exact raise_logKept e info s
    · exact absurd (decode_eq_sreset_iff.mp hdecode) hno
    · exact .of_eq hlog
  · exact raise_logKept .illcmd _ s

theorem busyTurn_logKept {txn : HostTxn} {s t : State} (hno : txn ≠ .hardReset) (h : busyTurn txn s = .next t) :
    LogKept s t := by
  obtain rfl | ⟨_, _, _, _, _, rfl⟩ | ⟨hreset, _⟩ | ⟨_, _, _, rfl⟩ := busyTurn_inv h
  · intro j hj
    change (logBit s.errlog hostViolBit).getLsbD j = true
    rw [getLsbD_logBit _ (by decide), hj, Bool.true_or]
  · exact .of_eq rfl
  · exact absurd hreset hno
  · exact .of_eq rfl

/-- An idle block's transactions keep the log but for a hardware reset and an SRESET run whole. -/
theorem idleTurn_logKept {txn : HostTxn} {s t : State} (hno : txn ≠ .hardReset)
    (hsreset : txn = .regWrite cmdOffset 0x00000001 → s.delays.headD 0 ≠ 0) (h : idleTurn txn s = .next t) :
    LogKept s t := by
  obtain ⟨w, rfl, hissue⟩ | ⟨off, v, _, _, rfl⟩ | ⟨_, _, _, rfl⟩ | ⟨hreset, _⟩ | ⟨_, _, rfl⟩ := idleTurn_inv h
  · simp only [issue] at hissue
    split at hissue
    next hatomic =>
      have hword : (accept w s).latched.word ≠ 0x00000001 := by
        rintro rfl
        exact hsreset rfl hatomic
      exact runLatched_logKept (s := accept w s) hword hissue
    next =>
      cases hissue
      exact .of_eq (accept_errlog w s)
  · exact .of_eq (writeReg_errlog off v s)
  · exact .of_eq rfl
  · exact absurd hreset hno
  · exact .of_eq rfl

theorem completesNow_iff {s : State} : completesNow s = true ↔ s.busy = true ∧ (s.left = 0 ∨ s.script = []) := by
  simp [completesNow]

theorem step_logKept {s t : State} (hno : ¬Resets s) (h : step s = .next t) : LogKept s t := by
  simp only [Resets, not_or] at hno
  obtain ⟨hsreset, hissue, hhard⟩ := hno
  obtain ⟨hdone, hrun⟩ | ⟨_, _, rfl⟩ | ⟨hdone, txn, rest, hscript, hturn⟩ := step_inv h
  · obtain ⟨hb, hdone⟩ := completesNow_iff.mp hdone
    exact runLatched_logKept (fun hword => hsreset ⟨hb, hdone, hword⟩) hrun
  · exact .of_eq rfl
  · have hleft (hb : s.busy = true) : 0 < s.left := Nat.pos_of_ne_zero fun hzero => by
      rw [completesNow_iff.mpr ⟨hb, .inl hzero⟩] at hdone
      cases hdone
    have hnoReset : txn ≠ .hardReset := by
      rintro rfl
      exact hhard ⟨rest, hleft, hscript⟩
    unfold hostTurn at hturn
    split at hturn
    · exact busyTurn_logKept (s := { s with script := rest, left := s.left - 1 }) hnoReset hturn
    next hidle =>
      refine idleTurn_logKept (s := { s with script := rest }) hnoReset ?_ hturn
      rintro rfl hatomic
      exact hissue ⟨rest, eq_false_of_ne_true hidle, hscript, hatomic⟩

theorem step_hardReset {s : State} {rest : List HostTxn} (hleft : s.busy = true → 0 < s.left)
    (hscript : s.script = .hardReset :: rest) :
    step s = .next (blockReset (if s.busy then scrambleDest { s with script := rest, left := s.left - 1 }
      else { s with script := rest })) := by
  by_cases hb : s.busy = true
  · rw [if_pos hb]
    exact step_busy hb (hleft hb) hscript
  · rw [if_neg hb]
    exact step_idle (eq_false_of_ne_true hb) hscript

theorem step_errlog_of_resets {s t : State} (hr : Resets s) (h : step s = .next t) : t.errlog = 0 := by
  obtain ⟨hb, hdone, hword⟩ | ⟨rest, hissue⟩ | ⟨rest, hleft, hscript⟩ := hr
  · rw [step_completes hb hdone, runLatched_sreset (decode_eq_sreset_iff.mpr hword)] at h
    cases h; rfl
  · rw [step_of_issues hissue, runLatched_sreset (decode_eq_sreset_iff.mpr rfl)] at h
    cases h; rfl
  · rw [step_hardReset hleft hscript] at h
    cases h; rfl

/-- Settles O45: the three events that reset the block clear the log, and every other step only adds to it. -/
theorem errorLogIsSticky : Obligations.ErrorLogIsSticky := by
  unfold Obligations.ErrorLogIsSticky
  exact fun s t h => ⟨fun hno => step_logKept hno h, fun hr => step_errlog_of_resets hr h⟩

end Sys2Proof.Machine
end

section
/-! Rules over all commands: what each may write, and the errors it may end with (20_memory.md R60, R67; 10_state.md
sections 3 and 4; 42_freqtable.md R134; 60_exceptions.md R201). -/

namespace Sys2Proof.Machine

/-- The errors of each command, by the ways it completes (60_exceptions.md R201, column "raised by"). -/
theorem exec_err_mem {i : Instr} {s t : State} (h : exec i s = .next t) : t.err.toNat ∈ mayComplete i := by
  have hraise (e : ErrCode) (info : Nat) : (raise e info s).err.toNat = e.code := (raise_faultedWith e info s).err
  have hsource {e : ErrCode} {info : Nat} (hw : checkWindows s false = some (e, info)) : e = .addr ∨ e = .bus := by
    obtain ⟨he, _⟩ | ⟨he, _⟩ | ⟨_, _, hdst, _⟩ | ⟨he, _⟩ | ⟨he, _⟩ := checkWindows_some hw
    · exact .inl he
    · exact .inl he
    · cases hdst
    · exact .inr he
    · exact .inr he
  cases i with
  | nop | sreset | fclr | fset _ | fget _ | build => cases h; exact List.mem_cons_self
  | count =>
    obtain ⟨e, info, hw, rfl⟩ | ⟨_, rfl⟩ := execCount_inv h
    · rw [hraise]
      obtain rfl | rfl := hsource hw <;> decide
    · exact List.mem_cons_self
  | entropy =>
    obtain ⟨_, rfl⟩ | ⟨_, e, info, hw, rfl⟩ | ⟨_, _, rfl⟩ := execEntropy_inv h
    · rw [hraise]; decide
    · rw [hraise]
      obtain rfl | rfl := hsource hw <;> decide
    · exact List.mem_cons_self
  | tget idx =>
    obtain ⟨_, rfl⟩ | ⟨_, _, _, _, rfl⟩ := execTget_inv h
    · rw [hraise]; exact List.mem_cons_of_mem _ (List.mem_singleton_self 5)
    · exact List.mem_cons_self
  | gencode =>
    obtain ⟨_, rfl⟩ | ⟨_, rfl⟩ := execGencode_inv h
    · rw [hraise]; decide
    · exact List.mem_cons_self
  | cget sym =>
    obtain ⟨_, rfl⟩ | ⟨_, rfl⟩ := execCget_inv h
    · rw [hraise]; exact List.mem_cons_of_mem _ (List.mem_singleton_self 5)
    · exact List.mem_cons_self
  | pack =>
    obtain ⟨_, rfl⟩ | ⟨_, e, info, hw, rfl⟩ | ⟨_, _, _, _, _, rfl⟩ | ⟨_, _, _, _, _, rfl⟩ | ⟨_, _, _, _, _, rfl⟩ :=
      execPack_inv h
    · rw [hraise]; decide
    · rw [hraise]
      obtain rfl | rfl | rfl := checkWindows_code hw <;> decide
    · rw [hraise]; decide
    · rw [hraise]; decide
    · exact List.mem_cons_self
  | unpack =>
    obtain ⟨_, rfl⟩ | ⟨_, _, rfl⟩ | ⟨_, _, _, rfl⟩ | ⟨_, e, info, hw, rfl⟩ | ⟨_, _, _, _, _, rfl⟩ |
      ⟨_, _, _, _, _, _, rfl⟩ | ⟨_, _, _, _, _, _, rfl⟩ := execUnpack_inv h
    · rw [hraise]; decide
    · rw [hraise]; decide
    · rw [hraise]; decide
    · rw [hraise]
      obtain rfl | rfl | rfl := checkWindows_code hw <;> decide
    · rw [hraise]; decide
    · rw [hraise]; decide
    · exact List.mem_cons_self

/-- Settles O11: no command stops the machine, and each error it raises stands in its row. -/
theorem onlyListedErrorsAreRaised : Obligations.OnlyListedErrorsAreRaised := by
  unfold Obligations.OnlyListedErrorsAreRaised
  intro i s
  obtain ⟨t, h⟩ := exec_answers i s
  exact ⟨t, h, exec_err_mem h⟩

/-- Settles O42: a fault record and a completion keep what the command found, and no effect writes these fields. -/
theorem commandsLeaveTheOperandRegisters : Obligations.CommandsLeaveTheOperandRegisters := by
  unfold Obligations.CommandsLeaveTheOperandRegisters
  intro i s t hi h
  obtain ⟨e, info, rfl⟩ | ⟨hsreset, _⟩ | ⟨_, u, rfl, _, _, _, hoperands, hrest⟩ := exec_inv h
  · exact ⟨(raise_faultedWith e info s).operands, (raise_faultedWith e info s).rest⟩
  · exact absurd hsreset hi
  · obtain ⟨hsrc, hlen, hdst, hdcap, harg, hpadin⟩ := hoperands
    obtain ⟨hien, hlatched, hholes, hscript, hdata, hdelays, hleft, hdraws⟩ := hrest
    exact ⟨⟨hsrc, hlen, hdst, hdcap, harg, hpadin⟩,
      ⟨hien, hlatched, hholes, hscript, hdata, hdelays, hleft, hdraws⟩⟩

/-! ### MEM -/

theorem toNat_ofNat_of_le_dcap {n : Nat} {dcap : Word} (h : n ≤ dcap.toNat) : (BitVec.ofNat 32 n).toNat = n :=
  Nat.mod_eq_of_lt (h.trans_lt dcap.isLt)

/-- PACK and UNPACK write as many bytes as they report, at DST and inside their destination window. -/
theorem effect_mem_outside {i : Instr} {s u : State} (h : Effect i s u) (hi : i = .pack ∨ i = .unpack) :
    DestReady s ∧ u.outlen.toNat ≤ s.latched.dcap.toNat ∧
      SameBytesOutside s.latched.dst.toNat u.outlen.toNat s u := by
  have houtside {bytes : List Byte} {n : Nat} (hn : bytes.length = n) (hcap : n ≤ s.latched.dcap.toNat) :
      (BitVec.ofNat 32 n).toNat ≤ s.latched.dcap.toNat ∧
      ∀ a, ¬(s.latched.dst.toNat ≤ a ∧ a < s.latched.dst.toNat + (BitVec.ofNat 32 n).toNat) →
        (s.mem.writeBytes s.latched.dst.toNat bytes).read a = s.mem.read a := by
    rw [toNat_ofNat_of_le_dcap hcap]
    exact ⟨hcap, fun a ha => Memory.read_writeBytes_outside _ _ _ (by omega)⟩
  cases h with
  | pack _ hd hcap => exact ⟨hd, houtside (length_payload _ _) hcap⟩
  | unpack out _ hd hcap => exact ⟨hd, houtside rfl hcap⟩
  | nop | fclr | fset _ | fget _ | count _ | entropy _ | build | tget _ _ _ _ | gencode _ | cget _ =>
    exact absurd hi (by simp)

theorem effect_mem_eq {i : Instr} {s u : State} (h : Effect i s u) (hi : ¬(i = .pack ∨ i = .unpack)) :
    u.mem = s.mem := by
  cases h with
  | pack _ _ _ => exact absurd (.inl rfl) hi
  | unpack _ _ _ _ => exact absurd (.inr rfl) hi
  | nop | fclr | fset _ | fget _ | count _ | entropy _ | build | tget _ _ _ _ | gencode _ | cget _ => rfl

/-- Settles O41: a fault and SRESET leave MEM as it was, and the windows of PACK and UNPACK share no address. -/
theorem onlyTheDestinationIsWritten : Obligations.OnlyTheDestinationIsWritten := by
  unfold Obligations.OnlyTheDestinationIsWritten
  intro i s t h
  obtain ⟨e, info, rfl⟩ | ⟨rfl, rfl⟩ | ⟨u, heff, rfl⟩ := exec_effect h
  · exact ⟨fun _ _ _ => rfl, fun _ herr => absurd herr (raise_err_ne_zero e info s), fun _ _ => rfl⟩
  · exact ⟨fun _ _ _ => rfl, fun hi => absurd hi (by simp), fun _ _ => rfl⟩
  refine ⟨fun hpack hunpack a => ?other, fun hi _ => (effect_mem_outside heff hi).2, fun a ha => ?source⟩
  case other => rw [complete_mem, effect_mem_eq heff (not_or.mpr ⟨hpack, hunpack⟩)]
  case source =>
    rw [complete_mem]
    by_cases hi : i = .pack ∨ i = .unpack
    · obtain ⟨hd, hcap, houtside⟩ := effect_mem_outside heff hi
      refine houtside a fun ⟨hlower, hupper⟩ => hd.apart a ⟨?_, hlower, by omega⟩
      simpa [inWindow] using ha
    · rw [effect_mem_eq heff hi]

/-! ### Tables and results -/

/-- There is no tree and no code table (10_state.md R58). -/
structure Dropped (t : State) : Prop where
  tkind : t.tkind = .none
  codeV : t.codeV = false
  root : t.root = 0
  nnode : t.nnode = 0

/-- What a command may do to the table, the tree and the codes. -/
structure Frame (i : Instr) (s t : State) : Prop where
  table : SameTable s t ∨ ((i = .fclr ∨ i = .count ∨ i = .sreset ∨ ∃ sym, i = .fset sym) ∧ Dropped t)
  tree : SameTree s t ∨ i = .build ∨
    ((i = .fclr ∨ i = .count ∨ i = .sreset ∨ ∃ sym, i = .fset sym) ∧ Dropped t)
  codes : SameCodes s t ∨ i = .gencode ∨
    ((i = .fclr ∨ i = .count ∨ i = .build ∨ i = .sreset ∨ ∃ sym, i = .fset sym) ∧ t.codeV = false)

theorem effect_frame {i : Instr} {s u : State} (h : Effect i s u) : Frame i s (complete u) := by
  cases h with
  | fclr => exact ⟨.inr ⟨.inl rfl, rfl, rfl, rfl, rfl⟩, .inr (.inr ⟨.inl rfl, rfl, rfl, rfl, rfl⟩),
      .inr (.inr ⟨.inl rfl, rfl⟩)⟩
  | count _ => exact ⟨.inr ⟨.inr (.inl rfl), rfl, rfl, rfl, rfl⟩,
      .inr (.inr ⟨.inr (.inl rfl), rfl, rfl, rfl, rfl⟩), .inr (.inr ⟨.inr (.inl rfl), rfl⟩)⟩
  | fset sym => exact ⟨.inr ⟨.inr (.inr (.inr ⟨sym, rfl⟩)), rfl, rfl, rfl, rfl⟩,
      .inr (.inr ⟨.inr (.inr (.inr ⟨sym, rfl⟩)), rfl, rfl, rfl, rfl⟩),
      .inr (.inr ⟨.inr (.inr (.inr (.inr ⟨sym, rfl⟩))), rfl⟩)⟩
  | build => exact ⟨.inl ⟨rfl, rfl, rfl⟩, .inr (.inl rfl), .inr (.inr ⟨.inr (.inr (.inl rfl)), rfl⟩)⟩
  | gencode _ => exact ⟨.inl ⟨rfl, rfl, rfl⟩, .inl ⟨rfl, rfl, rfl, rfl⟩, .inr (.inl rfl)⟩
  | nop | fget _ | entropy _ | tget _ _ _ _ | cget _ | pack _ _ _ | unpack _ _ _ _ =>
    exact ⟨.inl ⟨rfl, rfl, rfl⟩, .inl ⟨rfl, rfl, rfl, rfl⟩, .inl ⟨rfl, rfl⟩⟩

theorem exec_frame {i : Instr} {s t : State} (h : exec i s = .next t) : Frame i s t := by
  obtain ⟨e, info, rfl⟩ | ⟨rfl, rfl⟩ | ⟨u, heff, rfl⟩ := exec_effect h
  · have hfault := raise_faultedWith e info s
    exact ⟨.inl hfault.table, .inl hfault.tree, .inl hfault.codes⟩
  · exact ⟨.inr ⟨.inr (.inr (.inl rfl)), rfl, rfl, rfl, rfl⟩,
      .inr (.inr ⟨.inr (.inr (.inl rfl)), rfl, rfl, rfl, rfl⟩),
      .inr (.inr ⟨.inr (.inr (.inr (.inl rfl))), rfl⟩)⟩
  · exact effect_frame heff

/-- Settles O43: the frame of each command, read for the table, the tree and the codes. -/
theorem changedTableDropsTheTree : Obligations.ChangedTableDropsTheTree := by
  unfold Obligations.ChangedTableDropsTheTree
  intro i s t h
  obtain ⟨htable, htree, hcodes⟩ := exec_frame h
  refine ⟨fun hfclr hcount hsreset hfset => ?table, fun hchanged => ?changed, fun hbuild => ?tree,
    fun hgencode => ?codes, fun hfclr hcount hbuild hsreset hfset => ⟨?keptTree, fun hgencode => ?keptCodes⟩⟩
  case table =>
    obtain hsame | ⟨hi | hi | hi | ⟨sym, hi⟩, _⟩ := htable
    exacts [hsame, absurd hi hfclr, absurd hi hcount, absurd hi hsreset, absurd hi (hfset sym)]
  case changed =>
    obtain hsame | ⟨_, hdrop⟩ := htable
    · exact absurd hsame hchanged
    · exact ⟨hdrop.tkind, hdrop.codeV, hdrop.root, hdrop.nnode⟩
  case tree =>
    obtain hsame | hi | ⟨_, hdrop⟩ := htree
    · exact .inl hsame
    · exact absurd hi hbuild
    · exact .inr ⟨hdrop.tkind, hdrop.codeV, hdrop.root, hdrop.nnode⟩
  case codes =>
    obtain hsame | hi | ⟨_, hdrop⟩ := hcodes
    · exact .inl hsame
    · exact absurd hi hgencode
    · exact .inr hdrop
  case keptTree =>
    obtain hsame | hi | ⟨hi | hi | hi | ⟨sym, hi⟩, _⟩ := htree
    exacts [hsame, absurd hi hbuild, absurd hi hfclr, absurd hi hcount, absurd hi hsreset, absurd hi (hfset sym)]
  case keptCodes =>
    obtain hsame | hi | ⟨hi | hi | hi | hi | ⟨sym, hi⟩, _⟩ := hcodes
    exacts [hsame, absurd hi hgencode, absurd hi hfclr, absurd hi hcount, absurd hi hbuild, absurd hi hsreset,
      absurd hi (hfset sym)]

/-- What a command other than SRESET leaves of the result registers (10_state.md section 4). -/
structure KeepsResults (i : Instr) (s t : State) : Prop where
  res : (∀ x, i ≠ .fget x) → (∀ x, i ≠ .tget x) → (∀ x, i ≠ .cget x) → SameRes s t
  outlen : i ≠ .pack → i ≠ .unpack → t.outlen = s.outlen
  packLength : i ≠ .pack → SamePackLength s t
  ent : i ≠ .entropy → t.ent = s.ent
  codew : (∀ x, i ≠ .cget x) → t.codew = s.codew

theorem effect_keepsResults {i : Instr} {s u : State} (h : Effect i s u) : KeepsResults i s (complete u) := by
  cases h with
  | fget sym => exact ⟨fun hno => absurd rfl (hno sym), fun _ _ => rfl, fun _ => ⟨rfl, rfl, rfl⟩, fun _ => rfl,
      fun _ => rfl⟩
  | tget idx => exact ⟨fun _ hno => absurd rfl (hno idx), fun _ _ => rfl, fun _ => ⟨rfl, rfl, rfl⟩, fun _ => rfl,
      fun _ => rfl⟩
  | cget sym => exact ⟨fun _ _ hno => absurd rfl (hno sym), fun _ _ => rfl, fun _ => ⟨rfl, rfl, rfl⟩, fun _ => rfl,
      fun hno => absurd rfl (hno sym)⟩
  | pack _ _ _ => exact ⟨fun _ _ _ => ⟨rfl, rfl, rfl⟩, fun hno => absurd rfl hno, fun hno => absurd rfl hno,
      fun _ => rfl, fun _ => rfl⟩
  | unpack _ _ _ _ => exact ⟨fun _ _ _ => ⟨rfl, rfl, rfl⟩, fun _ hno => absurd rfl hno, fun _ => ⟨rfl, rfl, rfl⟩,
      fun _ => rfl, fun _ => rfl⟩
  | entropy _ => exact ⟨fun _ _ _ => ⟨rfl, rfl, rfl⟩, fun _ _ => rfl, fun _ => ⟨rfl, rfl, rfl⟩,
      fun hno => absurd rfl hno, fun _ => rfl⟩
  | nop | fclr | fset _ | count _ | build | gencode _ =>
    exact ⟨fun _ _ _ => ⟨rfl, rfl, rfl⟩, fun _ _ => rfl, fun _ => ⟨rfl, rfl, rfl⟩, fun _ => rfl, fun _ => rfl⟩

theorem raise_keepsResults (i : Instr) (e : ErrCode) (info : Nat) (s : State) : KeepsResults i s (raise e info s) :=
  ⟨fun _ _ _ => ⟨rfl, rfl, rfl⟩, fun _ _ => rfl, fun _ => ⟨rfl, rfl, rfl⟩, fun _ => rfl, fun _ => rfl⟩

/-- FCLR, COUNT and FSET drop the tree where they complete without error (42_freqtable.md R134). -/
theorem exec_drops {i : Instr} {s t : State} (hi : i = .fclr ∨ i = .count ∨ ∃ x, i = .fset x) (h : exec i s = .next t)
    (herr : t.err = 0) : t.root = 0 ∧ t.nnode = 0 := by
  obtain ⟨e, info, rfl⟩ | ⟨rfl, _⟩ | ⟨u, heff, rfl⟩ := exec_effect h
  · exact absurd herr (raise_err_ne_zero e info s)
  · exact absurd hi (by simp)
  · rcases hi with rfl | rfl | ⟨sym, rfl⟩ <;> cases heff <;> exact ⟨rfl, rfl⟩

/-- Settles O44: each command's effect leaves the registers of the others, a fault leaves all of them. -/
theorem resultsAreWrittenByTheirCommandsOnly : Obligations.ResultsAreWrittenByTheirCommandsOnly := by
  unfold Obligations.ResultsAreWrittenByTheirCommandsOnly
  intro i s t hi h
  have hkeeps : KeepsResults i s t := by
    obtain ⟨e, info, rfl⟩ | ⟨hsreset, _⟩ | ⟨u, heff, rfl⟩ := exec_effect h
    · exact raise_keepsResults i e info s
    · exact absurd hsreset hi
    · exact effect_keepsResults heff
  obtain ⟨htable, htree, _⟩ := exec_frame h
  refine ⟨hkeeps.res, hkeeps.outlen, hkeeps.packLength, hkeeps.ent, hkeeps.codew, fun hfclr hcount hfset => ?nent,
    fun hbuild hfclr hcount hfset => ?tree, fun hi herr => exec_drops hi h herr⟩
  case nent =>
    obtain hsame | ⟨hi' | hi' | hi' | ⟨sym, hi'⟩, _⟩ := htable
    exacts [hsame.nent, absurd hi' hfclr, absurd hi' hcount, absurd hi' hi, absurd hi' (hfset sym)]
  case tree =>
    obtain hsame | hi' | ⟨hi' | hi' | hi' | ⟨sym, hi'⟩, _⟩ := htree
    exacts [⟨hsame.root, hsame.nnode⟩, absurd hi' hbuild, absurd hi' hfclr, absurd hi' hcount, absurd hi' hi,
      absurd hi' (hfset sym)]

end Sys2Proof.Machine
end

section
/-! FSET: one entry written, and two entries in either order (42_freqtable.md R131). -/

namespace Sys2Proof.Machine

theorem exec_fset (sym : BitVec 8) (s : State) : exec (.fset sym) s = .next (complete (invalidate { s with
    freq := s.freq.set sym.toNat s.latched.arg
    valid := s.valid.set sym.toNat true
    nent := if s.valid.get sym.toNat then s.nent else s.nent + 1 })) := rfl

/-- Settles O17: the entry reads as written, every other as before, and the rest is `invalidate` and `complete`. -/
theorem fsetSetsOneEntry : Obligations.FsetSetsOneEntry := by
  unfold Obligations.FsetSetsOneEntry
  intro s sym
  have hsym : sym.toNat < 256 := sym.isLt
  refine ⟨_, exec_fset sym s, complete_completedOk rfl rfl rfl, fun i _ => ?freq, fun i _ => ?valid,
    fun hold => if_pos hold, fun hnew => if_neg (ne_true_of_eq_false hnew), rfl, rfl, rfl, rfl, rfl, rfl,
    ?operands, ?res, rfl, ?packLength, rfl, rfl, fun _ => rfl, ?rest⟩
  case freq =>
    rw [complete_freq, invalidate_freq, Table.get_set _ _ _ hsym]
    simp only [eq_comm]
  case valid =>
    rw [complete_valid, invalidate_valid, Table.get_set _ _ _ hsym]
    simp only [eq_comm]
  all_goals constructor <;> rfl

/-- Writes to two entries of a table commute. -/
theorem Table.set_comm {α : Type} {n : Nat} [Inhabited α] (t : Table α n) {i j : Nat} (a b : α) (h : i ≠ j) :
    (t.set i a).set j b = (t.set j b).set i a := by
  simp only [Table.set, List.set_comm a b h]

/-- Settles O18: the two writes are to different entries, and each counts its entry whether or not the other is set. -/
theorem fsetOrderDoesNotMatter : Obligations.FsetOrderDoesNotMatter := by
  unfold Obligations.FsetOrderDoesNotMatter
  intro s a b f g s1 s2 t1 t2 hab hs1 hs2 ht1 ht2
  have hne : a.toNat ≠ b.toNat := fun h => hab (BitVec.eq_of_toNat_eq h)
  cases hs1
  cases hs2
  cases ht1
  cases ht2
  refine ⟨Table.set_comm _ _ _ hne.symm, Table.set_comm _ _ _ hne.symm, ?nent⟩
  case nent =>
    simp only [complete_nent, invalidate_nent, complete_valid, invalidate_valid, Table.get_set_ne _ _ hne,
      Table.get_set_ne _ _ hne.symm]
    cases s.valid.get a.toNat <;> cases s.valid.get b.toNat <;> rfl

end Sys2Proof.Machine
end

section
/-! Reset and the host's side: reads, writes and a hardware reset (10_state.md R21, R22, R59; 40_control.md R111, R119;
70_reset_and_hazards.md R240 to R247, R251). -/

namespace Sys2Proof.Machine

theorem blockReset_status (s : State) : (blockReset s).status = 0 := by
  have hstatus : statusWord false false .none = 0 := by decide
  exact hstatus

theorem blockReset_irq (s : State) : (blockReset s).irq = false := by
  rw [State.irq, blockReset_ien, blockReset_ipend]
  rfl

theorem readReg_blockReset (s : State) {off : Nat} (h : off ≠ 0) : readReg (blockReset s) off = 0 := by
  unfold readReg
  split
  case h_1 => exact absurd rfl h
  case h_3 => exact blockReset_status s
  all_goals rfl

theorem blockReset_table (s : State) {i : Nat} (hi : i < 256) :
    (blockReset s).freq.get i = 0 ∧ (blockReset s).valid.get i = false :=
  ⟨zeroCounts_get hi, noEntries_get hi⟩

/-- Settles O15: SRESET is the reset of the block, which keeps MEM and the platform's and the model's own record. -/
theorem sresetGivesTheResetState : Obligations.SresetGivesTheResetState := by
  unfold Obligations.SresetGivesTheResetState
  exact fun s => ⟨blockReset s, rfl, rfl, fun off => readReg_blockReset s, fun i => blockReset_table s, rfl, rfl,
    blockReset_irq s, fun _ => rfl, rfl, rfl⟩

/-- Settles O54: the reset state is its own reset. -/
theorem resetState : Obligations.ResetState := by
  unfold Obligations.ResetState
  exact ⟨rfl, fun off => readReg_blockReset State.reset, fun i => blockReset_table State.reset, rfl, rfl, rfl, rfl⟩

theorem scrambleDest_read {s : State} {a : Nat} (h : inRunningDest s a = false) :
    (scrambleDest s).mem.read a = s.mem.read a := by
  unfold scrambleDest
  split
  next i hi =>
    split
    next hdest =>
      simp only [inRunningDest, hi, hdest, Bool.true_and, inWindow, Bool.and_eq_false_iff, decide_eq_false_iff_not] at h
      refine Memory.read_writeBytes_outside _ _ _ ?_
      rw [List.length_map, List.length_range]
      omega
    next => rfl
  next => rfl

theorem scrambleDest_record (s : State) : (scrambleDest s).holes = s.holes ∧ (scrambleDest s).script = s.script := by
  unfold scrambleDest
  split
  · split <;> exact ⟨rfl, rfl⟩
  · exact ⟨rfl, rfl⟩

/-- Settles O59: the reset state over the memory the block had, but for draws in the destination window of the command
that ran. -/
theorem hardResetLeavesMemory : Obligations.HardResetLeavesMemory := by
  unfold Obligations.HardResetLeavesMemory
  intro s rest hleft hscript
  refine ⟨_, step_hardReset hleft hscript, rfl, fun off => readReg_blockReset _, fun i => blockReset_table _, rfl, rfl,
    ?holes, ?script, fun hidle a => ?idle, fun a ha => ?outside⟩
  case holes =>
    rw [blockReset_holes]
    split
    · exact (scrambleDest_record _).1
    · rfl
  case script =>
    rw [blockReset_script]
    split
    · exact (scrambleDest_record _).2
    · rfl
  case idle => rw [blockReset_mem, if_neg (ne_true_of_eq_false hidle)]
  case outside =>
    rw [blockReset_mem]
    split
    · exact scrambleDest_read (s := { s with script := rest, left := s.left - 1 }) ha
    · rfl

/-! ### Registers -/

theorem offsetOk_iff {off : Nat} : HostTxn.offsetOk off = true ↔ off % 4 = 0 ∧ off < 256 := by
  simp [HostTxn.offsetOk]

theorem offsetOk_eq_false {off : Nat} (h : off % 4 ≠ 0 ∨ 256 ≤ off) : HostTxn.offsetOk off = false := by
  rw [← Bool.not_eq_true, offsetOk_iff]
  omega

/-- The gaps of the register map (10_state.md R22). -/
def Unmapped (off : Nat) : Prop :=
  (0x20 < off ∧ off < 0x40) ∨ (0x54 < off ∧ off < 0x80) ∨ (0xA8 < off ∧ off < 0xC0) ∨ 0xDC < off

theorem readReg_unmapped (s : State) {off : Nat} (h : Unmapped off) : readReg s off = 0 := by
  unfold Unmapped at h
  unfold readReg
  split
  case h_35 => rfl
  all_goals omega

theorem isMapped_eq_false {off : Nat} (h : Unmapped off) : isMapped off = false := by
  unfold Unmapped at h
  rw [← Bool.not_eq_true]
  simp only [isMapped, Bool.or_eq_true, Bool.and_eq_true, decide_eq_true_eq]
  omega

theorem toNat_setWidth_register {n : Nat} (hn : n ≤ 32) (x : BitVec n) : (x.setWidth 32).toNat = x.toNat := by
  rw [BitVec.toNat_setWidth]
  exact Nat.mod_eq_of_lt (x.isLt.trans_le (Nat.pow_le_pow_right (by decide) hn))

theorem toNat_statusWord (busy codeV : Bool) (tkind : TKind) :
    (statusWord busy codeV tkind).toNat = busy.toNat + 2 * codeV.toNat + 4 * tkindNumber tkind := by
  cases busy <;> cases codeV <;> cases tkind <;> rfl

theorem readsControl (s : State) : ReadsControl s where
  id := rfl
  cmd := rfl
  status := toNat_statusWord s.busy s.codeV s.tkind
  err := rfl
  errinfo := rfl
  errlog := rfl
  ien := toNat_setWidth_register (by decide) s.ien
  ipend := toNat_setWidth_register (by decide) s.ipend
  cmdcnt := rfl

theorem readsOperands (s : State) : ReadsOperands s where
  src := rfl
  len := rfl
  dst := rfl
  dcap := rfl
  arg := rfl
  padin := toNat_setWidth_register (by decide) s.padin

theorem readsResults (s : State) : ReadsResults s where
  res0 := rfl
  res1 := rfl
  res2 := rfl
  outlen := rfl
  pad := toNat_setWidth_register (by decide) s.pad
  bitlenLo := rfl
  bitlenHi := toNat_setWidth_register (by decide) s.bitlenHi
  nent := toNat_setWidth_register (by decide) s.nent
  ent := rfl
  root := toNat_setWidth_register (by decide) s.root
  nnode := toNat_setWidth_register (by decide) s.nnode
  codew k hk := by interval_cases k <;> rfl

theorem idleTurn_regRead {off : Nat} (hok : HostTxn.offsetOk off = true) (s : State) :
    idleTurn (.regRead off) s = .next { s with hostData := readReg s off } := if_pos hok

theorem idleTurn_regRead_refused {off : Nat} (hok : HostTxn.offsetOk off = false) (s : State) :
    idleTurn (.regRead off) s = .refused (.registerAccess off) := if_neg (ne_true_of_eq_false hok)

/-- Settles O55: the register file read at each offset, and each kind of read of an idle block. -/
theorem registerReadHasNoSideEffect : Obligations.RegisterReadHasNoSideEffect := by
  unfold Obligations.RegisterReadHasNoSideEffect
  refine ⟨fun s off rest hb halign hlt hscript => ⟨?read, fun hgap => ?gap⟩,
    fun s => ⟨readsControl s, readsOperands s, readsResults s⟩,
    fun s a rest hb hscript => ⟨_, step_idle hb hscript, rfl, toNat_setWidth_register (by decide) _⟩,
    fun s off rest hb hbad hscript => ?refused, fun s rest hb hscript => step_idle hb hscript,
    fun s rest hb hscript => step_idle hb hscript⟩
  case read => exact (step_idle hb hscript).trans (idleTurn_regRead (offsetOk_iff.mpr ⟨halign, hlt⟩) _)
  case gap =>
    obtain rfl | hgap := hgap
    · rfl
    · exact readReg_unmapped s hgap
  case refused => exact (step_idle hb hscript).trans (idleTurn_regRead_refused (offsetOk_eq_false hbad) _)

theorem idleTurn_regWrite {off : Nat} (hok : HostTxn.offsetOk off = true) (hcmd : off ≠ 0x04) (v : Word) (s : State) :
    idleTurn (.regWrite off v) s = .next (writeReg off v s) :=
  (if_pos hok).trans (if_neg hcmd)

theorem idleTurn_regWrite_refused {off : Nat} (hok : HostTxn.offsetOk off = false) (v : Word) (s : State) :
    idleTurn (.regWrite off v) s = .refused (.registerAccess off) := if_neg (ne_true_of_eq_false hok)

end Sys2Proof.Machine
end

section
/-! The host's writes to an idle block (40_control.md R119, 70_reset_and_hazards.md R251). -/

namespace Sys2Proof.Machine

/-- The low `n` bits of a written value, read back, are the value under the mask of `n` ones (10_state.md R22). -/
theorem setWidth_setWidth_eq_and {n : Nat} (v : Word) : (v.setWidth n).setWidth 32 = v &&& (BitVec.allOnes n).setWidth 32 := by
  refine BitVec.eq_of_getLsbD_eq fun j hj => ?_
  simp only [BitVec.getLsbD_setWidth, BitVec.getLsbD_and, BitVec.getLsbD_allOnes, hj, decide_true, Bool.true_and,
    Bool.and_comm]

theorem readReg_writeReg_self {off : Nat} {mask : Word} (h : writableMask off = some mask) (v : Word) (s : State) :
    readReg (writeReg off v s) off = v &&& mask := by
  unfold writableMask at h
  split at h <;> cases h
  case h_1 => exact setWidth_setWidth_eq_and (n := 2) v
  case h_7 => exact setWidth_setWidth_eq_and (n := 8) v
  all_goals exact (BitVec.and_allOnes (x := v)).symm

/-- A write to IPEND clears the bits written with 1 (10_state.md R45). -/
theorem readReg_writeReg_ipend (v : Word) (s : State) :
    readReg (writeReg 0x1C v s) 0x1C = readReg s 0x1C &&& ~~~v := by
  change (clearPending s.ipend v).setWidth 32 = s.ipend.setWidth 32 &&& ~~~v
  refine BitVec.eq_of_getLsbD_eq fun j hj => ?_
  by_cases hlow : j < 2
  · simp [clearPending, hj, hlow]
  · have hzero (p : BitVec 2) : p.getLsbD j = false := BitVec.getLsbD_of_ge p j (by omega)
    simp [hzero]

theorem readReg_writeReg_ne {off other : Nat} (h : other ≠ off) (v : Word) (s : State) :
    readReg (writeReg off v s) other = readReg s other := by
  unfold writeReg
  split
  case h_9 => rfl
  all_goals
    unfold readReg
    split <;> simp [State.status] at h ⊢

theorem writeReg_readOnly {off : Nat} (h : writableMask off = none) (hpend : off ≠ 0x1C) (v : Word) (s : State) :
    writeReg off v s = s := by
  unfold writeReg
  split
  case h_2 => exact absurd rfl hpend
  case h_9 => rfl
  all_goals cases h

theorem writeReg_frame (off : Nat) (v : Word) (s : State) : (writeReg off v s).mem = s.mem ∧
    (writeReg off v s).latched = s.latched ∧ (writeReg off v s).script = s.script := by
  unfold writeReg
  split <;> exact ⟨rfl, rfl, rfl⟩

/-- Settles O56: the write of each register, of a byte of MEM, and of an offset that is no register. -/
theorem registerWriteChangesOneRegister : Obligations.RegisterWriteChangesOneRegister := by
  unfold Obligations.RegisterWriteChangesOneRegister
  refine ⟨fun s off v rest hb halign hlt hcmd hscript => ?register, fun s a v rest hb hwf hscript => ?memory,
    fun s off v rest hb hbad hscript => ?refused⟩
  case register =>
    have hstep := (step_idle hb hscript).trans
      (idleTurn_regWrite (offsetOk_iff.mpr ⟨halign, hlt⟩) hcmd v { s with script := rest })
    have hengine := (hostMoved_of_rest rest s.left (writeReg_hostMoved off v { s with script := rest })).engine
    obtain ⟨hmem, hlatched, hrest⟩ := writeReg_frame off v { s with script := rest }
    refine ⟨_, hstep, ?_, ?_, ?_, ?_, ?_, ?_, ?_, ?_, fun mask hmask => readReg_writeReg_self hmask v _, ?_,
      fun hro hpend => writeReg_readOnly hro hpend v _, fun other hother => readReg_writeReg_ne hother v _,
      hengine.table, hengine.tree, hengine.codes, hmem, hlatched, hrest⟩
    case refine_9 =>
      rintro rfl
      exact readReg_writeReg_ipend v { s with script := rest }
    all_goals
      rintro rfl
      rfl
  case memory =>
    exact ⟨_, step_idle hb hscript, rfl, Memory.read_write_self hwf a.toNat v,
      fun b hb => Memory.read_write_ne s.mem v hb⟩
  case refused => exact (step_idle hb hscript).trans (idleTurn_regWrite_refused (offsetOk_eq_false hbad) v _)

end Sys2Proof.Machine
end

section
/-! The host's transactions while a command runs (70_reset_and_hazards.md R245 to R247, R251). -/

namespace Sys2Proof.Machine

theorem busyTurn_regWrite {off : Nat} (hok : HostTxn.offsetOk off = true) (v : Word) (s : State) :
    busyTurn (.regWrite off v) s = .next { s with errlog := logBit s.errlog hostViolBit } := if_pos hok

theorem busyTurn_regWrite_refused {off : Nat} (hok : HostTxn.offsetOk off = false) (v : Word) (s : State) :
    busyTurn (.regWrite off v) s = .refused (.registerAccess off) := if_neg (ne_true_of_eq_false hok)

theorem busyTurn_regRead {off : Nat} (hok : HostTxn.offsetOk off = true) (s : State) :
    busyTurn (.regRead off) s = .next (busyRead off s) := if_pos hok

theorem busyTurn_regRead_refused {off : Nat} (hok : HostTxn.offsetOk off = false) (s : State) :
    busyTurn (.regRead off) s = .refused (.registerAccess off) := if_neg (ne_true_of_eq_false hok)

theorem windows_owned_iff {s : State} {a : Nat} :
    (inRunningSource s a || inRunningDest s a) = true ↔ OwnedSource s a ∨ OwnedDest s a := by
  rw [Bool.or_eq_true, inRunningSource_iff, inRunningDest_iff]

theorem busyTurn_memWrite_outside {s : State} {a : Word} (hsource : ¬OwnedSource s a.toNat)
    (hdest : ¬OwnedDest s a.toNat) (v : Byte) :
    busyTurn (.memWrite a v) s = .next { s with mem := s.mem.write a.toNat v } :=
  if_neg fun h => (windows_owned_iff.mp h).elim hsource hdest

theorem busyTurn_memWrite_inside {s : State} {a : Word} (h : OwnedSource s a.toNat ∨ OwnedDest s a.toNat) (v : Byte) :
    busyTurn (.memWrite a v) s = .fault (.windowRace a.toNat) :=
  if_pos (windows_owned_iff.mpr h)

/-- Settles O57: what each kind of write does inside a running command. -/
theorem busyWriteIsDroppedAndLogged : Obligations.BusyWriteIsDroppedAndLogged := by
  unfold Obligations.BusyWriteIsDroppedAndLogged
  refine ⟨fun s off v rest hb hleft halign hlt hscript => ?dropped,
    fun s a v rest hb hleft hwf hscript hsource hdest => ?memory, fun s a v rest hb hleft hscript howned => ?race,
    fun s off v rest hb hleft hbad hscript => ?refused⟩
  case dropped =>
    exact ⟨_, (step_busy hb hleft hscript).trans (busyTurn_regWrite (offsetOk_iff.mpr ⟨halign, hlt⟩) v _), rfl,
      getLsbD_logBit s.errlog (by decide)⟩
  case memory =>
    exact ⟨_, (step_busy hb hleft hscript).trans
      (busyTurn_memWrite_outside (s := { s with script := rest, left := s.left - 1 }) hsource hdest v), rfl,
      Memory.read_write_self hwf a.toNat v, fun b hb => Memory.read_write_ne s.mem v hb⟩
  case race =>
    exact (step_busy hb hleft hscript).trans
      (busyTurn_memWrite_inside (s := { s with script := rest, left := s.left - 1 }) howned v)
  case refused => exact (step_busy hb hleft hscript).trans (busyTurn_regWrite_refused (offsetOk_eq_false hbad) v _)

theorem exactWhileBusy_iff {off : Nat} : exactWhileBusy off = true ↔ off = 0x00 ∨ off = 0x08 ∨ off = 0x18 := by
  simp [exactWhileBusy, or_assoc]

theorem busyRead_exact {off : Nat} (h : off = 0x00 ∨ off = 0x08 ∨ off = 0x18) (s : State) :
    busyRead off s = { s with hostData := readReg s off } := if_pos (exactWhileBusy_iff.mpr h)

theorem busyRead_unmapped {off : Nat} (h : Unmapped off) (s : State) : busyRead off s = { s with hostData := 0 } := by
  have hexact : ¬exactWhileBusy off = true := by
    rw [exactWhileBusy_iff]
    unfold Unmapped at h
    omega
  rw [busyRead, if_neg hexact, isMapped_eq_false h]
  rfl

theorem busyRead_frame (off : Nat) (s : State) :
    busyRead off s = { s with hostData := (busyRead off s).hostData, draws := (busyRead off s).draws } := by
  unfold busyRead
  split
  · rfl
  · split <;> rfl

theorem busyTurn_memRead_inside {s : State} {a : Word} (h : OwnedDest s a.toNat) : busyTurn (.memRead a) s =
    .next { s with hostData := (Config.freeByte s.draws).setWidth 32, draws := s.draws + 1 } :=
  if_pos (inRunningDest_iff.mpr h)

theorem busyTurn_memRead_outside {s : State} {a : Word} (h : ¬OwnedDest s a.toNat) :
    busyTurn (.memRead a) s = .next { s with hostData := (s.mem.read a.toNat).setWidth 32 } :=
  if_neg fun hin => h (inRunningDest_iff.mp hin)

/-- Settles O58: what each kind of read returns inside a running command, and the little it changes. -/
theorem busyReadIsExactForIdStatusIen : Obligations.BusyReadIsExactForIdStatusIen := by
  unfold Obligations.BusyReadIsExactForIdStatusIen
  refine ⟨fun s off rest hb hleft halign hlt hscript => ?register, fun s a rest hb hleft hscript => ?memory,
    fun s off rest hb hleft hbad hscript => ?refused, fun s rest hb hleft hscript => ?wait,
    fun s rest hb hleft hscript => ?check⟩
  case register =>
    refine ⟨_, (step_busy hb hleft hscript).trans (busyTurn_regRead (offsetOk_iff.mpr ⟨halign, hlt⟩) _),
      fun hexact => ?exact, fun hgap => ?unmapped, busyRead_frame off _⟩
    case exact => rw [busyRead_exact hexact]; rfl
    case unmapped =>
      rw [busyRead_unmapped hgap]
      exact ⟨rfl, rfl⟩
  case memory =>
    by_cases howned : OwnedDest s a.toNat
    · exact ⟨_, (step_busy hb hleft hscript).trans (busyTurn_memRead_inside howned),
        fun hno => absurd howned hno, rfl⟩
    · exact ⟨_, (step_busy hb hleft hscript).trans (busyTurn_memRead_outside howned),
        fun _ => toNat_setWidth_register (by decide) _, rfl⟩
  case refused => exact (step_busy hb hleft hscript).trans (busyTurn_regRead_refused (offsetOk_eq_false hbad) _)
  case wait =>
    rw [step_busy hb hleft hscript, hscript]
    rfl
  case check => exact ⟨_, step_busy hb hleft hscript, fun hzero => if_pos hzero, fun hne => if_neg hne, rfl⟩

end Sys2Proof.Machine
end

section
/-! TGET: the fields of a node as the three result registers give them (43_tree.md R143). -/

namespace Sys2Proof.Machine

/-- RES1:RES0 of a weight (43_tree.md R143). -/
theorem toNat_weight_words (w : BitVec 40) :
    ((w >>> 32).setWidth 32 : Word).toNat * 4294967296 + (w.setWidth 32 : Word).toNat = w.toNat := by
  have hw := w.isLt
  simp only [BitVec.toNat_setWidth, BitVec.toNat_ushiftRight, Nat.shiftRight_eq_div_pow]
  omega

/-- RES2 of an internal node: kind 2 in bits 1:0, the children at bits 4 and 16. -/
theorem toNat_internalWord (n : Node) :
    (internalWord n).toNat = 2 + 16 * n.left.toNat + 65536 * n.right.toNat := by
  have hl := n.left.isLt
  have hr := n.right.isLt
  have hlow : 2 ||| n.left.toNat <<< 4 = 2 + n.left.toNat <<< 4 := by
    rw [Nat.or_comm, ← Nat.shiftLeft_add_eq_or_of_lt (by decide), Nat.add_comm]
  have hsmall : 2 + n.left.toNat <<< 4 < 2 ^ 16 := by
    rw [Nat.shiftLeft_eq]
    omega
  have hall : (2 + n.left.toNat <<< 4) ||| n.right.toNat <<< 16 = (2 + n.left.toNat <<< 4) + n.right.toNat <<< 16 := by
    rw [Nat.or_comm, ← Nat.shiftLeft_add_eq_or_of_lt hsmall, Nat.add_comm]
  have hleft : (n.left.setWidth 32 <<< 4 : Word).toNat = n.left.toNat <<< 4 := by
    rw [BitVec.toNat_shiftLeft, toNat_setWidth_register (by decide), Nat.shiftLeft_eq]
    omega
  have hright : (n.right.setWidth 32 <<< 16 : Word).toNat = n.right.toNat <<< 16 := by
    rw [BitVec.toNat_shiftLeft, toNat_setWidth_register (by decide), Nat.shiftLeft_eq]
    omega
  have hor : (internalWord n).toNat = 2 ||| n.left.toNat <<< 4 ||| n.right.toNat <<< 16 := by
    rw [← hleft, ← hright]
    rfl
  rw [hor, hlow, hall, Nat.shiftLeft_eq, Nat.shiftLeft_eq]
  omega

theorem isTreeLeaf_iff {s : State} {idx : BitVec 9} : isTreeLeaf s idx = true ↔
    idx.toNat ≤ 255 ∧ 0 < s.nnode.toNat ∧ s.valid.get idx.toNat = true := by
  simp only [isTreeLeaf, Bool.and_eq_true, decide_eq_true_eq, and_assoc, gt_iff_lt]

theorem isTreeInternal_iff {s : State} {idx : BitVec 9} : isTreeInternal s idx = true ↔
    256 ≤ idx.toNat ∧ idx.toNat ≤ 254 + s.nent.toNat ∧ 2 ≤ s.nent.toNat := by
  simp only [isTreeInternal, Bool.and_eq_true, decide_eq_true_eq, and_assoc, ge_iff_le]

/-- TGET with a valid tree writes RES0 to RES2 and nothing else. -/
theorem exec_tget {s : State} (htree : s.tkind ≠ .none) (idx : BitVec 9) :
    exec (.tget idx) s = .next (complete (
      if isTreeLeaf s idx then { s with
        res0 := (s.node.get idx.toNat).weight.setWidth 32
        res1 := ((s.node.get idx.toNat).weight >>> 32).setWidth 32
        res2 := 1 }
      else if isTreeInternal s idx then { s with
        res0 := (s.node.get idx.toNat).weight.setWidth 32
        res1 := ((s.node.get idx.toNat).weight >>> 32).setWidth 32
        res2 := internalWord (s.node.get idx.toNat) }
      else { s with res0 := 0, res1 := 0, res2 := 0 })) := by
  simp only [exec, execTget, htree, if_false]
  split
  · rfl
  · split <;> rfl

theorem exec_tget_frame {s : State} (htree : s.tkind ≠ .none) (idx : BitVec 9) :
    ∃ r0 r1 r2, exec (.tget idx) s = .next (complete { s with res0 := r0, res1 := r1, res2 := r2 }) := by
  obtain ⟨t, h⟩ := exec_answers (.tget idx) s
  obtain ⟨hnone, _⟩ | ⟨_, r0, r1, r2, rfl⟩ := execTget_inv h
  · exact absurd hnone htree
  · exact ⟨r0, r1, r2, h⟩

/-- Settles O28: the node's weight in two words, its kind and its children in the third, and zeros for no node. -/
theorem tgetReadsOneNode : Obligations.TgetReadsOneNode := by
  unfold Obligations.TgetReadsOneNode
  intro s idx htree
  obtain ⟨r0, r1, r2, hexec⟩ := exec_tget_frame htree idx
  have hres := hexec.symm.trans (exec_tget htree idx)
  refine ⟨_, hexec, complete_completedOk rfl rfl rfl, fun hlow hnodes hvalid => ?leaf, fun hlow hhigh hent => ?internal,
    fun hleaf hinternal => ?outside, ?operands, ?table, ?tree, ?codes, rfl, ?packLength, rfl, rfl, fun _ => rfl, ?rest⟩
  case leaf =>
    rw [if_pos (isTreeLeaf_iff.mpr ⟨hlow, hnodes, hvalid⟩)] at hres
    cases hres
    exact ⟨toNat_weight_words _, rfl⟩
  case internal =>
    have hleaf : ¬isTreeLeaf s idx = true := by rw [isTreeLeaf_iff]; omega
    rw [if_neg hleaf, if_pos (isTreeInternal_iff.mpr ⟨hlow, hhigh, hent⟩)] at hres
    cases hres
    exact ⟨toNat_weight_words _, toNat_internalWord _⟩
  case outside =>
    rw [if_neg (mt isTreeLeaf_iff.mp hleaf), if_neg (mt isTreeInternal_iff.mp hinternal)] at hres
    cases hres
    exact ⟨rfl, rfl, rfl⟩
  all_goals constructor <;> rfl

end Sys2Proof.Machine
end

section
/-! COUNT: the counting loop's tables in terms of the source bytes (42_freqtable.md R133). -/

namespace Sys2Proof.Machine

theorem Table.cells_eq_map {α : Type} {n : Nat} [Inhabited α] (t : Table α n) : t.cells = (List.range n).map t.get := by
  refine List.ext_getElem (by simp [t.length_eq]) fun i h1 h2 => ?_
  have hi : i < n := t.length_eq ▸ h1
  rw [List.getElem_map, List.getElem_range, Table.get_eq_getElem t hi]

theorem entryCount_eq_length_entries (valid : Table Bool 256) : entryCount valid = (entries valid).length := by
  rw [entryCount, Table.cells_eq_map valid, List.count, List.countP_map, List.countP_eq_length_filter, entries]
  congr 2
  funext i
  simp

theorem nodup_entries (valid : Table Bool 256) : (entries valid).Nodup := List.nodup_range.filter _

theorem mem_entries {valid : Table Bool 256} {i : Nat} : i ∈ entries valid ↔ i < 256 ∧ valid.get i = true := by
  rw [entries, List.mem_filter, List.mem_range]

theorem length_sourceBytes (s : State) : (sourceBytes s).length = s.latched.len.toNat :=
  Memory.length_readBytes _ _ _

theorem mem_sourceBytes {s : State} {b : Byte} :
    b ∈ sourceBytes s ↔ ∃ j, j < s.latched.len.toNat ∧ sourceByte s j = b := by
  simp only [sourceBytes_eq_map, List.mem_map, List.mem_range]

theorem occurrences_eq_count (s : State) (b : Byte) : occurrences s b = (sourceBytes s).count b := by
  rw [occurrences, sourceBytes_eq_map, List.count, List.countP_map, List.countP_eq_length_filter]
  rfl

/-- No count of a window overflows its 32 bits: the window's length does not. -/
theorem toNat_countBytes {bytes : List Byte} (hlen : bytes.length < 2 ^ 32) (b : Byte) :
    ((countBytes bytes).get b.toNat).toNat = bytes.count b := by
  rw [get_countBytes]
  exact Nat.mod_eq_of_lt (List.count_le_length.trans_lt hlen)

theorem toNat_ofNat_byte {i : Nat} (hi : i < 256) : (BitVec.ofNat 8 i).toNat = i := Nat.mod_eq_of_lt hi

/-- The entries COUNT makes are the byte values of the window, once each. -/
theorem entries_markBytes_perm (bytes : List Byte) :
    (entries (markBytes bytes)).Perm (bytes.dedup.map BitVec.toNat) := by
  have hinj : Function.Injective (BitVec.toNat : Byte → Nat) := fun _ _ => BitVec.eq_of_toNat_eq
  refine (List.perm_ext_iff_of_nodup (nodup_entries _) (bytes.nodup_dedup.map hinj)).mpr fun i => ?_
  rw [mem_entries, List.mem_map]
  constructor
  · rintro ⟨hi, hmark⟩
    rw [← toNat_ofNat_byte hi, get_markBytes, decide_eq_true_eq] at hmark
    exact ⟨_, List.mem_dedup.mpr hmark, toNat_ofNat_byte hi⟩
  · rintro ⟨b, hb, rfl⟩
    exact ⟨b.isLt, by rw [get_markBytes, decide_eq_true_eq]; exact List.mem_dedup.mp hb⟩

theorem entryCount_markBytes (bytes : List Byte) : entryCount (markBytes bytes) = bytes.dedup.length := by
  rw [entryCount_eq_length_entries, (entries_markBytes_perm bytes).length_eq, List.length_map]

/-- Every byte is counted once. -/
theorem sum_count_bytes (bytes : List Byte) : ∑ i ∈ Finset.range 256, bytes.count (BitVec.ofNat 8 i) = bytes.length := by
  induction bytes with
  | nil => simp
  | cons c cs ih =>
    have hone : ∑ i ∈ Finset.range 256, (if c = BitVec.ofNat 8 i then 1 else 0) = 1 := by
      rw [Finset.sum_eq_single_of_mem c.toNat (Finset.mem_range.mpr c.isLt) fun i hi hne => ?_]
      · simp
      · refine if_neg fun h => hne ?_
        rw [h, toNat_ofNat_byte (Finset.mem_range.mp hi)]
    simp only [List.count_cons, beq_iff_eq, Finset.sum_add_distrib, ih, hone, List.length_cons]

theorem sum_map_range (f : Nat → Nat) (n : Nat) : ((List.range n).map f).sum = ∑ i ∈ Finset.range n, f i := rfl

theorem sum_countBytes {bytes : List Byte} (hlen : bytes.length < 2 ^ 32) :
    ((List.range 256).map fun i => ((countBytes bytes).get i).toNat).sum = bytes.length := by
  rw [sum_map_range, ← sum_count_bytes bytes]
  refine Finset.sum_congr rfl fun i hi => ?_
  rw [← toNat_countBytes hlen, toNat_ofNat_byte (Finset.mem_range.mp hi)]

theorem length_sourceBytes_lt (s : State) : (sourceBytes s).length < 2 ^ 32 := by
  rw [length_sourceBytes]
  exact s.latched.len.isLt

/-- Settles O20: the table COUNT leaves is the counting loop's, whose counts fit their fields. -/
theorem countCountsTheSourceWindow : Obligations.CountCountsTheSourceWindow := by
  unfold Obligations.CountCountsTheSourceWindow
  intro s hs
  refine ⟨_, execCount_ready hs, complete_completedOk rfl rfl rfl, fun b => ?count, fun b => ?entry, ?nent, ?sum,
    rfl, rfl, rfl, rfl, rfl, rfl, ?operands, ?res, rfl, ?packLength, rfl, rfl, fun _ => rfl, ?rest⟩
  case count =>
    rw [complete_freq, invalidate_freq, occurrences_eq_count]
    exact toNat_countBytes (length_sourceBytes_lt s) b
  case entry =>
    rw [complete_valid, invalidate_valid, ← mem_sourceBytes]
    change (markBytes (sourceBytes s)).get b.toNat = true ↔ _
    rw [get_markBytes, decide_eq_true_eq]
  case nent =>
    rw [complete_nent, invalidate_nent, toNat_ofNat_entryCount, entryCount_markBytes, sourceBytes_eq_map]
  case sum =>
    rw [complete_freq, invalidate_freq, ← length_sourceBytes s]
    exact sum_countBytes (length_sourceBytes_lt s)
  all_goals constructor <;> rfl

/-- The counts alone make the table. -/
theorem countBytes_congr {bytes bytes' : List Byte} (h : ∀ b, bytes.count b = bytes'.count b) :
    countBytes bytes = countBytes bytes' := by
  refine Table.ext_get fun i hi => ?_
  rw [← toNat_ofNat_byte hi, get_countBytes, get_countBytes, h]

theorem exec_entropy_ok {s t : State} (h : exec .entropy s = .next t) (herr : t.err = 0) :
    t.ent = entq (countBytes (sourceBytes s)).cells := by
  obtain ⟨_, rfl⟩ | ⟨_, e, info, _, rfl⟩ | ⟨_, _, rfl⟩ := execEntropy_inv h
  · exact absurd herr (raise_err_ne_zero _ _ s)
  · exact absurd herr (raise_err_ne_zero e info s)
  · rfl

/-- Settles O22: ENT is ENTQ of the table the counts make. -/
theorem entropyDependsOnTheCountsAlone : Obligations.EntropyDependsOnTheCountsAlone := by
  unfold Obligations.EntropyDependsOnTheCountsAlone
  intro s t u v ht hv herr herr' hsame
  have hcount (b : Byte) : (sourceBytes s).count b = (sourceBytes u).count b := by
    rw [← occurrences_eq_count, ← occurrences_eq_count, hsame]
  rw [exec_entropy_ok ht herr, exec_entropy_ok hv herr', countBytes_congr hcount]

end Sys2Proof.Machine
end

section
/-! ENTROPY: ENTQ against the real Shannon entropy (41_entropy.md R121, R122). With N the sum of the counts and P the
product of their self-powers, N · H = N · log2 N - log2 P, so each comparison of natural numbers in the model is a bound on H. -/

namespace Sys2Proof.Machine

/-! ### The counts of a buffer -/

section
variable {bytes : List Byte} (hlen : bytes.length < 2 ^ 32)
include hlen

theorem map_toNat_cells : (countBytes bytes).cells.map BitVec.toNat =
    (List.range 256).map fun i => bytes.count (BitVec.ofNat 8 i) := by
  rw [Table.cells_eq_map, List.map_map]
  refine List.map_congr_left fun i hi => ?_
  rw [← toNat_countBytes hlen, toNat_ofNat_byte (List.mem_range.mp hi)]
  rfl

theorem countSum_cells : countSum (countBytes bytes).cells = bytes.length := by
  rw [countSum, map_toNat_cells hlen, sum_map_range, sum_count_bytes]

theorem selfPowers_cells : selfPowers (countBytes bytes).cells =
    ∏ i ∈ Finset.range 256, bytes.count (BitVec.ofNat 8 i) ^ bytes.count (BitVec.ofNat 8 i) := by
  have hmap : (countBytes bytes).cells.map (fun x => x.toNat ^ x.toNat) =
      ((countBytes bytes).cells.map BitVec.toNat).map fun x => x ^ x := by rw [List.map_map]; rfl
  rw [selfPowers, hmap, map_toNat_cells hlen, List.map_map]
  rfl

theorem selfPowers_cells_pos : 0 < selfPowers (countBytes bytes).cells := by
  rw [selfPowers_cells hlen]
  exact Finset.prod_pos fun i _ => Nat.pow_self_pos

end

/-- Counts of 0 add nothing to N. -/
theorem countSum_filter (c : List Word) : countSum (c.filter (· != 0)) = countSum c := by
  induction c with
  | nil => rfl
  | cons x xs ih =>
    simp only [countSum] at ih
    by_cases hx : x = 0
    · rw [List.filter_cons_of_neg (by simp [hx])]
      simpa [countSum, hx] using ih
    · rw [List.filter_cons_of_pos (by simpa using hx)]
      simpa [countSum] using ih

/-- Counts of 0 multiply nothing into P. -/
theorem selfPowers_filter (c : List Word) : selfPowers (c.filter (· != 0)) = selfPowers c := by
  induction c with
  | nil => rfl
  | cons x xs ih =>
    simp only [selfPowers] at ih
    by_cases hx : x = 0
    · rw [List.filter_cons_of_neg (by simp [hx])]
      simpa [selfPowers, hx] using ih
    · rw [List.filter_cons_of_pos (by simpa using hx)]
      simpa [selfPowers] using ih

theorem selfPowers_of_singleValued {c : List Word} (h : singleValued c = true) :
    selfPowers c = countSum c ^ countSum c := by
  obtain ⟨x, hx⟩ := List.length_eq_one_iff.mp (beq_iff_eq.mp h)
  rw [← selfPowers_filter, ← countSum_filter, hx]
  simp [selfPowers, countSum]

theorem singleValued_of_one_byte {bytes : List Byte} {b : Byte} (hlen : bytes.length < 2 ^ 32) (hne : bytes ≠ [])
    (h : ∀ c ∈ bytes, c = b) : singleValued (countBytes bytes).cells = true := by
  have hcount (i : Nat) (hi : i ∈ List.range 256) :
      ((fun x : Word => x != 0) ∘ (countBytes bytes).get) i = (i == b.toNat) := by
    have hi' := toNat_ofNat_byte (List.mem_range.mp hi)
    rw [Bool.eq_iff_iff, Function.comp_apply, bne_iff_ne, beq_iff_eq, ← hi', get_countBytes, hi']
    constructor
    · intro hcount
      by_contra hib
      refine hcount ?_
      rw [List.count_eq_zero_of_not_mem fun hmem => hib ?_]
      · rfl
      · rw [← h _ hmem, hi']
    · rintro rfl hzero
      obtain ⟨c, hc⟩ := List.exists_mem_of_ne_nil bytes hne
      have hpos : 0 < bytes.count (BitVec.ofNat 8 b.toNat) := by
        rw [BitVec.ofNat_toNat, BitVec.setWidth_eq]
        exact List.count_pos_iff.mpr (h c hc ▸ hc)
      have hzero' := congrArg BitVec.toNat hzero
      rw [BitVec.toNat_ofNat, Nat.mod_eq_of_lt (List.count_le_length.trans_lt hlen)] at hzero'
      exact hpos.ne' hzero'
  rw [singleValued, beq_iff_eq, Table.cells_eq_map, List.filter_map, List.length_map, List.filter_congr hcount,
    ← List.countP_eq_length_filter]
  exact List.count_eq_one_of_mem List.nodup_range (List.mem_range.mpr b.isLt)

/-! ### Comparisons of natural numbers as bounds on a real number -/

section
variable {N P : Nat} {H : ℝ} (hP : 0 < P) (hH : N * H = N * Real.logb 2 N - Real.logb 2 P)
include hP hH

/-- The two sides of a comparison under log2: N · v + k · log2 P against k · N · log2 N. -/
theorem logb_sub_logb (k v : Nat) : Real.logb 2 ((2 : ℝ) ^ (N * v) * (P : ℝ) ^ k) - Real.logb 2 ((N : ℝ) ^ (N * k)) =
    N * (v - H * k) := by
  have hP' : (P : ℝ) ≠ 0 := Nat.cast_ne_zero.mpr hP.ne'
  have htwo : Real.logb 2 (2 : ℝ) = 1 := Real.logb_self_eq_one one_lt_two
  rw [Real.logb_mul (by positivity) (by positivity), Real.logb_pow, Real.logb_pow, Real.logb_pow, htwo]
  push_cast
  linear_combination (k : ℝ) * hH

variable (hN : 0 < N)
include hN

theorem pow_le_iff (k v : Nat) : N ^ (N * k) ≤ 2 ^ (N * v) * P ^ k ↔ H * k ≤ v := by
  have hN' : (0 : ℝ) < N := Nat.cast_pos.mpr hN
  have hP' : (0 : ℝ) < P := Nat.cast_pos.mpr hP
  have hlogb := logb_sub_logb hP hH k v
  rw [← Nat.cast_le (α := ℝ)]
  push_cast
  rw [← Real.logb_le_logb one_lt_two (by positivity) (by positivity), ← sub_nonneg, hlogb,
    mul_nonneg_iff_of_pos_left hN', sub_nonneg]

theorem le_pow_iff (k v : Nat) : 2 ^ (N * v) * P ^ k ≤ N ^ (N * k) ↔ v ≤ H * k := by
  have hN' : (0 : ℝ) < N := Nat.cast_pos.mpr hN
  have hP' : (0 : ℝ) < P := Nat.cast_pos.mpr hP
  have hlogb := logb_sub_logb hP hH k v
  rw [← Nat.cast_le (α := ℝ)]
  push_cast
  rw [← Real.logb_le_logb one_lt_two (by positivity) (by positivity), ← sub_nonneg, ← neg_sub, hlogb, ← mul_neg,
    mul_nonneg_iff_of_pos_left hN', neg_sub, sub_nonneg]

end

/-! ### The entropy of a buffer -/

section
variable {bytes : List Byte}

theorem byteShare_nonneg (bytes : List Byte) (b : Nat) : 0 ≤ byteShare bytes b := by
  rw [byteShare]
  positivity

theorem byteShare_le_one (bytes : List Byte) (b : Nat) : byteShare bytes b ≤ 1 :=
  div_le_one_of_le₀ (Nat.cast_le.mpr List.count_le_length) (Nat.cast_nonneg _)

theorem sum_byteShare (hne : bytes ≠ []) : ∑ b ∈ Finset.range 256, byteShare bytes b = 1 := by
  have hlen : (bytes.length : ℝ) ≠ 0 := Nat.cast_ne_zero.mpr (mt List.length_eq_zero_iff.mp hne)
  simp only [byteShare]
  rw [← Finset.sum_div, ← Nat.cast_sum, sum_count_bytes, div_self hlen]

theorem entropyBits_eq_negMulLog (bytes : List Byte) :
    entropyBits bytes = (∑ b ∈ Finset.range 256, Real.negMulLog (byteShare bytes b)) / Real.log 2 := by
  rw [entropyBits, Finset.sum_div, ← Finset.sum_neg_distrib]
  refine Finset.sum_congr rfl fun b _ => ?_
  rw [Real.negMulLog, Real.logb]
  ring

theorem entropyBits_nonneg (bytes : List Byte) : 0 ≤ entropyBits bytes := by
  rw [entropyBits_eq_negMulLog]
  exact div_nonneg (Finset.sum_nonneg fun b _ =>
    Real.negMulLog_nonneg (byteShare_nonneg bytes b) (byteShare_le_one bytes b)) (Real.log_nonneg one_le_two)

/-- Jensen's inequality for the concave -x log x: 256 shares have at most the entropy of equal ones. -/
theorem entropyBits_le_eight (hne : bytes ≠ []) : entropyBits bytes ≤ 8 := by
  have hjensen := Real.concaveOn_negMulLog.le_map_sum (t := Finset.range 256) (w := fun _ => (1 / 256 : ℝ))
    (p := byteShare bytes) (fun _ _ => by norm_num) (by simp) fun b _ => byteShare_nonneg bytes b
  simp only [smul_eq_mul, ← Finset.mul_sum, sum_byteShare hne, mul_one] at hjensen
  have hlog : Real.negMulLog (1 / 256) = 1 / 256 * (8 * Real.log 2) := by
    have h256 : (256 : ℝ) = 2 ^ 8 := by norm_num
    rw [Real.negMulLog, one_div, Real.log_inv, h256, Real.log_pow]
    push_cast
    ring
  rw [hlog] at hjensen
  rw [entropyBits_eq_negMulLog, div_le_iff₀ (Real.log_pos one_lt_two)]
  linarith

/-- N · H = N · log2 N - log2 P (41_entropy.md R121). -/
theorem length_mul_entropyBits (hlen : bytes.length < 2 ^ 32) (hne : bytes ≠ []) :
    bytes.length * entropyBits bytes =
      bytes.length * Real.logb 2 bytes.length - Real.logb 2 (selfPowers (countBytes bytes).cells) := by
  have hN : (bytes.length : ℝ) ≠ 0 := Nat.cast_ne_zero.mpr (mt List.length_eq_zero_iff.mp hne)
  have hterm (b : Nat) : bytes.length * (byteShare bytes b * Real.logb 2 (byteShare bytes b)) =
      (bytes.count (BitVec.ofNat 8 b) : ℝ) * Real.logb 2 (bytes.count (BitVec.ofNat 8 b)) -
        bytes.count (BitVec.ofNat 8 b) * Real.logb 2 bytes.length := by
    rw [byteShare]
    by_cases hc : (bytes.count (BitVec.ofNat 8 b) : ℝ) = 0
    · rw [hc]; simp
    · rw [Real.logb_div hc hN]
      field_simp
  have hP : Real.logb 2 (selfPowers (countBytes bytes).cells) = ∑ b ∈ Finset.range 256,
      (bytes.count (BitVec.ofNat 8 b) : ℝ) * Real.logb 2 (bytes.count (BitVec.ofNat 8 b)) := by
    rw [selfPowers_cells hlen, Nat.cast_prod, Real.logb_prod]
    · exact Finset.sum_congr rfl fun b _ => by rw [Nat.cast_pow, Real.logb_pow]
    · exact fun b _ => Nat.cast_ne_zero.mpr Nat.pow_self_pos.ne'
  rw [entropyBits, mul_neg, Finset.mul_sum, Finset.sum_congr rfl fun b _ => hterm b, Finset.sum_sub_distrib,
    ← Finset.sum_mul, ← Nat.cast_sum, sum_count_bytes, hP]
  ring

section
variable (hlen : bytes.length < 2 ^ 32) (hne : bytes ≠ [])
include hlen hne

theorem entropyAtMost_iff (v : Nat) :
    EntropyAtMost (countBytes bytes).cells v ↔ entropyBits bytes * 2 ^ 28 ≤ v := by
  have h := pow_le_iff (selfPowers_cells_pos hlen) (length_mul_entropyBits hlen hne) (List.length_pos_of_ne_nil hne)
    (2 ^ 28) v
  rw [EntropyAtMost, countSum_cells hlen, h, Nat.cast_pow, Nat.cast_ofNat]

theorem entropyAtLeast_iff (v : Nat) :
    EntropyAtLeast (countBytes bytes).cells v ↔ v ≤ entropyBits bytes * 2 ^ 28 := by
  have h := le_pow_iff (selfPowers_cells_pos hlen) (length_mul_entropyBits hlen hne) (List.length_pos_of_ne_nil hne)
    (2 ^ 28) v
  rw [EntropyAtLeast, countSum_cells hlen, h, Nat.cast_pow, Nat.cast_ofNat]

/-- Rounding to the nearest: v counts up to v - 1/2 ≤ H · 2^28. -/
theorem roundsUpTo_iff (v : Nat) :
    RoundsUpTo (countBytes bytes).cells v ↔ v = 0 ∨ (v : ℝ) - 1 / 2 ≤ entropyBits bytes * 2 ^ 28 := by
  have h := le_pow_iff (selfPowers_cells_pos hlen) (length_mul_entropyBits hlen hne) (List.length_pos_of_ne_nil hne)
    (2 ^ 29) (2 * v - 1)
  rw [RoundsUpTo, countSum_cells hlen, h]
  refine or_congr_right' fun hv => ?_
  rw [Nat.cast_sub (by omega)]
  push_cast
  constructor <;> intro hle <;> linarith

/-- The exactly rounded value is within 1/2 of H · 2^28; at its largest, 8.0, because H is at most 8. -/
theorem entqExact_near : |(entqExact (countBytes bytes).cells : ℝ) - entropyBits bytes * 2 ^ 28| ≤ 1 / 2 := by
  have hzero : RoundsUpTo (countBytes bytes).cells 0 := .inl rfl
  have hspec : RoundsUpTo (countBytes bytes).cells (entqExact (countBytes bytes).cells) := by
    unfold entqExact
    exact Nat.findGreatest_spec (Nat.zero_le _) hzero
  have hnext (hlt : entqExact (countBytes bytes).cells < Config.entMax) :
      ¬RoundsUpTo (countBytes bytes).cells (entqExact (countBytes bytes).cells + 1) := by
    unfold entqExact at hlt ⊢
    exact Nat.findGreatest_is_greatest (Nat.lt_succ_self _) hlt
  rw [roundsUpTo_iff hlen hne] at hspec
  have hnonneg := entropyBits_nonneg bytes
  have hle8 := entropyBits_le_eight hne
  rw [abs_le]
  constructor
  · obtain hlt | hmax := (entqExact_le (countBytes bytes).cells).lt_or_eq
    · have hover := hnext hlt
      rw [roundsUpTo_iff hlen hne, not_or, not_le] at hover
      have hover := hover.2
      push_cast at hover
      linarith
    · rw [hmax, Config.entMax]
      push_cast
      linarith
  · obtain hv | hv := hspec
    · rw [hv]
      push_cast
      linarith
    · linarith

theorem entropyBits_of_singleValued (h : singleValued (countBytes bytes).cells = true) : entropyBits bytes = 0 := by
  have hN : (bytes.length : ℝ) ≠ 0 := Nat.cast_ne_zero.mpr (mt List.length_eq_zero_iff.mp hne)
  have hmul := length_mul_entropyBits hlen hne
  rw [selfPowers_of_singleValued h, countSum_cells hlen, Nat.cast_pow, Real.logb_pow, sub_self] at hmul
  exact (mul_eq_zero.mp hmul).resolve_left hN

theorem entropyAdmissible_near {v : Nat} (h : EntropyAdmissible (countBytes bytes).cells v) :
    |(v : ℝ) - entropyBits bytes * 2 ^ 28| ≤ 4096 := by
  obtain ⟨_, hmost, hleast⟩ := h
  rw [entropyAtMost_iff hlen hne, Config.entTol] at hmost
  rw [entropyAtLeast_iff hlen hne, Config.entTol] at hleast
  have hsub : (v : ℝ) ≤ (v - 4096 : Nat) + 4096 := by
    exact_mod_cast (by omega : v ≤ v - 4096 + 4096)
  push_cast at hmost
  rw [abs_le]
  constructor <;> linarith

/-- ENTQ_tol: each of the three values ENTQ can be is near H · 2^28. -/
theorem entq_near : |((entq (countBytes bytes).cells).toNat : ℝ) - entropyBits bytes * 2 ^ 28| ≤ 4096 := by
  unfold entq
  split
  next hsingle =>
    rw [entropyBits_of_singleValued hlen hne hsingle]
    norm_num
  next =>
    split
    next hadm => exact entropyAdmissible_near hlen hne hadm
    next =>
      have hfits : entqExact (countBytes bytes).cells < 2 ^ 32 :=
        (entqExact_le _).trans_lt (by rw [Config.entMax]; omega)
      rw [BitVec.toNat_ofNat, Nat.mod_eq_of_lt hfits]
      exact (entqExact_near hlen hne).trans (by norm_num)

end

end

/-- Settles O21: ENT is ENTQ of the window's counts. -/
theorem entropyIsWithinTolerance : Obligations.EntropyIsWithinTolerance := by
  unfold Obligations.EntropyIsWithinTolerance
  intro s hlen0 hs
  have hlen := length_sourceBytes_lt s
  have hne : sourceBytes s ≠ [] := fun h => by
    have := length_sourceBytes s
    rw [h] at this
    exact hlen0 (BitVec.eq_of_toNat_eq this.symm)
  refine ⟨_, execEntropy_ready hlen0 hs, complete_completedOk rfl rfl rfl, ?near, toNat_entq_le _, fun hall => ?zero,
    ?operands, ?table, ?tree, ?codes, ?res, rfl, ?packLength, rfl, fun _ => rfl, ?rest⟩
  case near => exact entq_near hlen hne
  case zero =>
    have hsingle : singleValued (countBytes (sourceBytes s)).cells = true :=
      singleValued_of_one_byte (b := sourceByte s 0) hlen hne fun c hc => by
        obtain ⟨j, hj, rfl⟩ := mem_sourceBytes.mp hc
        exact hall j hj
    exact if_pos hsingle
  all_goals constructor <;> rfl

end Sys2Proof.Machine
end

section
/-! The priority structure: keys as triples in lexicographic order, and what extraction gives out (43_tree.md R141). -/

namespace Sys2Proof.Machine

/-- key(e) = (weight, kind, index), ordered lexicographically (43_tree.md R141). -/
def QEntry.key (e : QEntry) : Nat ×ₗ Nat ×ₗ Nat := toLex (e.weight.toNat, toLex (e.kind, e.idx.toNat))

theorem QEntry.before_iff (a b : QEntry) : a.before b = true ↔ a.key < b.key := by
  have hweight : a.weight = b.weight ↔ a.weight.toNat = b.weight.toNat := BitVec.toNat_inj.symm
  simp only [before, key, Bool.or_eq_true, Bool.and_eq_true, decide_eq_true_eq, beq_iff_eq, Prod.Lex.toLex_lt_toLex,
    BitVec.lt_def, hweight]

theorem QEntry.kind_eq (e : QEntry) : e.kind = if e.idx.toNat ≤ 255 then 1 else 0 := by
  simp only [kind, isLeafIndex, decide_eq_true_eq]

/-- The order of keys in the terms of the claims. -/
theorem QEntry.key_lt_iff (a b : QEntry) : a.key < b.key ↔ a.weight.toNat < b.weight.toNat ∨
    (a.weight = b.weight ∧ ((256 ≤ a.idx.toNat ∧ b.idx.toNat ≤ 255) ∨
      ((256 ≤ a.idx.toNat ↔ 256 ≤ b.idx.toNat) ∧ a.idx.toNat < b.idx.toNat))) := by
  have hweight : a.weight = b.weight ↔ a.weight.toNat = b.weight.toNat := BitVec.toNat_inj.symm
  simp only [key, Prod.Lex.toLex_lt_toLex, hweight, kind_eq]
  split <;> split <;> omega

theorem QEntry.idx_eq_of_key_eq {a b : QEntry} (h : a.key = b.key) : a.idx = b.idx := by
  simp only [key, EmbeddingLike.apply_eq_iff_eq, Prod.mk.injEq] at h
  exact BitVec.eq_of_toNat_eq h.2.2

/-- Extraction takes out one node, and none that is left has a smaller key. -/
theorem extractMin_spec {q rest : List QEntry} {m : QEntry} (h : extractMin q = some (m, rest)) :
    (m :: rest).Perm q ∧ ∀ e ∈ rest, m.key ≤ e.key := by
  induction q generalizing m rest with
  | nil => cases h
  | cons e es ih =>
    simp only [extractMin] at h
    split at h
    next hnone =>
      cases h
      rw [extractMin_eq_none.mp hnone]
      exact ⟨.refl _, nofun⟩
    next m' others hsome =>
      obtain ⟨hperm, hmin⟩ := ih hsome
      have hes (x : QEntry) (hx : x ∈ es) : m'.key ≤ x.key := by
        obtain rfl | hx := List.mem_cons.mp (hperm.mem_iff.mpr hx)
        · exact le_rfl
        · exact hmin x hx
      split at h
      next hbefore =>
        cases h
        exact ⟨.refl _, fun x hx => ((QEntry.before_iff _ _).mp hbefore).le.trans (hes x hx)⟩
      next hbefore =>
        have hle : m'.key ≤ e.key := not_lt.mp (mt (QEntry.before_iff _ _).mpr hbefore)
        cases h
        refine ⟨(List.Perm.swap e m others).trans (hperm.cons e), fun x hx => ?_⟩
        obtain rfl | hx := List.mem_cons.mp hx
        · exact hle
        · exact hmin x hx

/-- Settles O24: a least key, and two nodes with different indices have different keys. -/
theorem extractionTakesTheSmallestKey : Obligations.ExtractionTakesTheSmallestKey := by
  unfold Obligations.ExtractionTakesTheSmallestKey
  intro q m rest h
  obtain ⟨hperm, hmin⟩ := extractMin_spec h
  exact ⟨hperm, fun e he hne => (QEntry.key_lt_iff m e).mp
    ((hmin e he).lt_of_ne fun hkey => hne (QEntry.idx_eq_of_key_eq hkey).symm)⟩

end Sys2Proof.Machine
end

section
/-! The merge loop of BUILD: an invariant of its structure, whatever order that is held in, holds of the one node it ends
with (43_tree.md R140). -/

namespace Sys2Proof.Machine

/-- The node a merge adds to the structure (43_tree.md R140). -/
def mergedEntry (a b : QEntry) (next : Nat) : QEntry := { weight := a.weight + b.weight, idx := BitVec.ofNat 9 next }

/-- The node a merge writes into the arena (43_tree.md R140). -/
def mergedNode (a b : QEntry) : Node := .internal (a.weight + b.weight) a.idx b.idx

theorem mergeLoop_succ {fuel : Nat} {node : Table Node 511} {q q1 q2 : List QEntry} {a b : QEntry} {next : Nat}
    (ha : extractMin q = some (a, q1)) (hb : extractMin q1 = some (b, q2)) : mergeLoop (fuel + 1) node q next =
      mergeLoop fuel (node.set next (mergedNode a b)) (mergedEntry a b next :: q2) (next + 1) := by
  simp only [mergeLoop, ha, hb]
  rfl

theorem exists_extractMin {q : List QEntry} (h : q ≠ []) : ∃ m rest, extractMin q = some (m, rest) := by
  cases hq : extractMin q with
  | none => exact absurd (extractMin_eq_none.mp hq) h
  | some p => exact ⟨p.1, p.2, rfl⟩

theorem mergeLoop_induction {P : Table Node 511 → List QEntry → Nat → Prop}
    (hperm : ∀ node q q' next, q.Perm q' → P node q next → P node q' next)
    (hmerge : ∀ node a b rest next, P node (a :: b :: rest) next → a.key ≤ b.key → (∀ e ∈ rest, b.key ≤ e.key) →
      P (node.set next (mergedNode a b)) (mergedEntry a b next :: rest) (next + 1))
    {fuel : Nat} {node : Table Node 511} {q : List QEntry} {next : Nat} (hlen : q.length = fuel + 1)
    (h : P node q next) :
    ∃ node' r, mergeLoop fuel node q next = (node', [r]) ∧ P node' [r] (next + fuel) := by
  induction fuel generalizing node q next with
  | zero =>
    obtain ⟨r, rfl⟩ := List.length_eq_one_iff.mp hlen
    exact ⟨node, r, rfl, h⟩
  | succ fuel ih =>
    obtain ⟨a, q1, ha⟩ := exists_extractMin (q := q) (List.ne_nil_of_length_eq_add_one hlen)
    have hlen1 := length_of_extractMin ha
    obtain ⟨b, q2, hb⟩ := exists_extractMin (q := q1) (List.ne_nil_of_length_eq_add_one (n := fuel) (by omega))
    have hlen2 := length_of_extractMin hb
    obtain ⟨hperma, hmina⟩ := extractMin_spec ha
    obtain ⟨hpermb, hminb⟩ := extractMin_spec hb
    have hab : a.key ≤ b.key := hmina b (hpermb.subset List.mem_cons_self)
    have hmerged := hmerge node a b q2 next (hperm _ _ _ _ (hperma.symm.trans (hpermb.symm.cons a)) h) hab hminb
    rw [mergeLoop_succ ha hb]
    obtain ⟨node', r, hloop, hP⟩ := ih (by rw [List.length_cons]; omega) hmerged
    exact ⟨node', r, hloop, by rwa [Nat.add_right_comm] at hP⟩

/-! ### Where the loop starts -/

/-- A leaf of the tree to be (43_tree.md R140). -/
def leafEntry (freq : Table Word 256) (i : Nat) : QEntry :=
  { weight := (freq.get i).setWidth 40, idx := BitVec.ofNat 9 i }

theorem leafEntries_eq_map (freq : Table Word 256) (valid : Table Bool 256) :
    leafEntries freq valid = (entries valid).map (leafEntry freq) := rfl

theorem toNat_leafEntry_idx {freq : Table Word 256} {i : Nat} (hi : i < 256) : (leafEntry freq i).idx.toNat = i :=
  Nat.mod_eq_of_lt (by omega)

theorem toNat_leafEntry_weight (freq : Table Word 256) (i : Nat) :
    (leafEntry freq i).weight.toNat = (freq.get i).toNat := by
  rw [leafEntry, BitVec.toNat_setWidth]
  exact Nat.mod_eq_of_lt ((freq.get i).isLt.trans (by omega : 2 ^ 32 < 2 ^ 40))

theorem length_entries_le (valid : Table Bool 256) : (entries valid).length ≤ 256 := by
  rw [← entryCount_eq_length_entries]
  exact entryCount_le valid

/-- The leaves are placed each at its own index. -/
theorem get_foldl_placed {freq : Table Word 256} {l : List Nat} (hl : ∀ i ∈ l, i < 256) (node : Table Node 511)
    {j : Nat} (hj : j ∈ l ∨ node.get j = .leaf (leafEntry freq j).weight) :
    ((l.map (leafEntry freq)).foldl (fun node e => node.set e.idx.toNat (.leaf e.weight)) node).get j =
      .leaf (leafEntry freq j).weight := by
  induction l generalizing node with
  | nil => simpa using hj
  | cons i is ih =>
    have hi : i < 256 := hl i List.mem_cons_self
    rw [List.map_cons, List.foldl_cons, toNat_leafEntry_idx hi]
    refine ih (fun k hk => hl k (List.mem_cons_of_mem i hk)) _ ?_
    rw [Table.get_set _ _ _ (by omega : i < 511)]
    by_cases hij : i = j
    · exact .inr (by rw [if_pos hij, hij])
    · rw [if_neg hij]
      obtain hmem | hnode := hj
      · exact .inl ((List.mem_cons.mp hmem).resolve_left fun h => hij h.symm)
      · exact .inr hnode

theorem get_placeLeaves {freq : Table Word 256} {valid : Table Bool 256} {i : Nat} (hi : i ∈ entries valid) :
    (placeLeaves (leafEntries freq valid)).get i = .leaf (leafEntry freq i).weight := by
  rw [placeLeaves, leafEntries_eq_map]
  exact get_foldl_placed (fun j hj => (mem_entries.mp hj).1) blankNodes (.inl hi)

/-- What BUILD makes of a table that has entries: the merge loop's arena and its last node. -/
theorem buildTree_of_mergeLoop {freq : Table Word 256} {valid : Table Bool 256} {node : Table Node 511} {r : QEntry}
    (hn : (entries valid).length ≠ 0)
    (hloop : mergeLoop ((entries valid).length - 1) (placeLeaves (leafEntries freq valid)) (leafEntries freq valid) 256 =
      (node, [r])) :
    buildTree freq valid = { node := node, root := r.idx, nnode := BitVec.ofNat 9 (2 * (entries valid).length - 1),
                             tkind := if (entries valid).length = 1 then .single else .multi } := by
  have hlen : (leafEntries freq valid).length = (entries valid).length := by rw [leafEntries_eq_map, List.length_map]
  simp only [buildTree, hlen, hn, if_false, hloop]

theorem buildTree_of_no_entry {freq : Table Word 256} {valid : Table Bool 256} (h : entries valid = []) :
    buildTree freq valid = { node := blankNodes, root := 0, nnode := 0, tkind := .empty } := by
  have hlen : (leafEntries freq valid).length = 0 := by rw [leafEntries_eq_map, h]; rfl
  simp only [buildTree, hlen, if_true]

/-- An invariant of the merge loop holds of the tree BUILD makes. -/
theorem buildTree_induction {freq : Table Word 256} {valid : Table Bool 256} {P : Table Node 511 → List QEntry → Nat → Prop}
    (hperm : ∀ node q q' next, q.Perm q' → P node q next → P node q' next)
    (hmerge : ∀ node a b rest next, P node (a :: b :: rest) next → a.key ≤ b.key → (∀ e ∈ rest, b.key ≤ e.key) →
      P (node.set next (mergedNode a b)) (mergedEntry a b next :: rest) (next + 1))
    (hn : 1 ≤ (entries valid).length)
    (h : P (placeLeaves (leafEntries freq valid)) (leafEntries freq valid) 256) :
    ∃ node r, P node [r] (255 + (entries valid).length) ∧
      buildTree freq valid = { node := node, root := r.idx, nnode := BitVec.ofNat 9 (2 * (entries valid).length - 1),
                               tkind := if (entries valid).length = 1 then .single else .multi } := by
  have hlen : (leafEntries freq valid).length = (entries valid).length - 1 + 1 := by
    rw [leafEntries_eq_map, List.length_map]
    omega
  obtain ⟨node, r, hloop, hP⟩ := mergeLoop_induction hperm hmerge hlen h
  rw [show 256 + ((entries valid).length - 1) = 255 + (entries valid).length by omega] at hP
  exact ⟨node, r, hP, buildTree_of_mergeLoop (by omega) hloop⟩

end Sys2Proof.Machine
end

section
/-! The shape of the tree BUILD makes (43_tree.md R140 to R142): an invariant of the merge loop on indices. -/

namespace Sys2Proof.Machine

/-- Index `j` is a node made before `next`: an entry, or an internal node of an earlier merge. -/
def Made (valid : Table Bool 256) (next j : Nat) : Prop :=
  (j < 256 ∧ valid.get j = true) ∨ (256 ≤ j ∧ j < next)

/-- Index `j` waits in the structure. -/
def Waiting (q : List QEntry) (j : Nat) : Prop := ∃ e ∈ q, e.idx.toNat = j

/-- What an internal node is: two different children made before it, and the sum of their weights. -/
def SumsChildren (valid : Table Bool 256) (node : Table Node 511) (k : Nat) : Prop :=
  ∃ w l r, node.get k = .internal w l r ∧ l ≠ r ∧ Made valid k l.toNat ∧ Made valid k r.toNat ∧ l.toNat < k ∧
    r.toNat < k ∧ w.toNat = (node.get l.toNat).weight.toNat + (node.get r.toNat).weight.toNat

/-- The state of the merge loop with `q` still to merge and `next` the next node to make. -/
structure Merging (freq : Table Word 256) (valid : Table Bool 256) (node : Table Node 511) (q : List QEntry)
    (next : Nat) : Prop where
  count : q.length + next = 256 + (entries valid).length
  first : 256 ≤ next
  distinct : (q.map QEntry.idx).Nodup
  made : ∀ e ∈ q, Made valid next e.idx.toNat
  weight : ∀ e ∈ q, e.weight = (node.get e.idx.toNat).weight
  total : (q.map fun e => e.weight.toNat).sum = ((entries valid).map fun i => (freq.get i).toNat).sum
  leaf : ∀ i ∈ entries valid, (node.get i).weight.toNat = (freq.get i).toNat
  inner : ∀ k, 256 ≤ k → k < next → SumsChildren valid node k
  free : ∀ j, Waiting q j → ∀ k, 256 ≤ k → k < next → ¬IsChild node k j
  owned : ∀ j, Made valid next j → ¬Waiting q j → ∃! k, 256 ≤ k ∧ k < next ∧ IsChild node k j
  order : ∀ k, 256 ≤ k → k < next → KeyBefore node (node.get k).left (node.get k).right ∧
    ∀ j : BitVec 9, j.toNat < k → (Waiting q j.toNat ∨ ∃ later, k < later ∧ later < next ∧ IsChild node later j.toNat) →
      KeyBefore node (node.get k).right j

theorem Waiting.perm {q q' : List QEntry} (h : q.Perm q') (j : Nat) : Waiting q j ↔ Waiting q' j := by
  simp only [Waiting, h.mem_iff]

theorem Merging.perm {freq : Table Word 256} {valid : Table Bool 256} {node : Table Node 511} {q q' : List QEntry}
    {next : Nat} (hperm : q.Perm q') (h : Merging freq valid node q next) : Merging freq valid node q' next where
  count := hperm.length_eq ▸ h.count
  first := h.first
  distinct := ((hperm.map _).nodup_iff).mp h.distinct
  made e he := h.made e (hperm.mem_iff.mpr he)
  weight e he := h.weight e (hperm.mem_iff.mpr he)
  total := (hperm.map _).sum_eq.symm.trans h.total
  leaf := h.leaf
  inner := h.inner
  free j hj := h.free j ((Waiting.perm hperm j).mpr hj)
  owned j hj hno := h.owned j hj fun hw => hno ((Waiting.perm hperm j).mp hw)
  order k hk hk' := by
    obtain ⟨hchildren, hlater⟩ := h.order k hk hk'
    refine ⟨hchildren, fun j hj hwhere => hlater j hj ?_⟩
    rwa [Waiting.perm hperm]

/-- Two entries of the structure compare as their indices do in the arena. -/
theorem keyBefore_iff {node : Table Node 511} {a b : QEntry} (ha : a.weight = (node.get a.idx.toNat).weight)
    (hb : b.weight = (node.get b.idx.toNat).weight) : KeyBefore node a.idx b.idx ↔ a.key < b.key := by
  rw [QEntry.key_lt_iff, KeyBefore, ha, hb]

theorem Made.mono {valid : Table Bool 256} {next next' j : Nat} (h : next ≤ next') (hj : Made valid next j) :
    Made valid next' j := by
  obtain hleaf | ⟨hlow, hhigh⟩ := hj
  · exact .inl hleaf
  · exact .inr ⟨hlow, hhigh.trans_le h⟩

theorem Made.lt {valid : Table Bool 256} {next j : Nat} (h : 256 ≤ next) (hj : Made valid next j) : j < next := by
  obtain ⟨hlow, _⟩ | ⟨_, hhigh⟩ := hj
  · omega
  · exact hhigh

/-- Where the loop starts: the entries wait, and no internal node is made. -/
theorem merging_start (freq : Table Word 256) (valid : Table Bool 256) :
    Merging freq valid (placeLeaves (leafEntries freq valid)) (leafEntries freq valid) 256 := by
  have hlt {i : Nat} (hi : i ∈ entries valid) : i < 256 := (mem_entries.mp hi).1
  have hmem {e : QEntry} (he : e ∈ leafEntries freq valid) : ∃ i ∈ entries valid, e = leafEntry freq i ∧
      e.idx.toNat = i := by
    obtain ⟨i, hi, rfl⟩ := List.mem_map.mp (leafEntries_eq_map freq valid ▸ he)
    exact ⟨i, hi, rfl, toNat_leafEntry_idx (hlt hi)⟩
  refine ⟨by rw [leafEntries_eq_map, List.length_map, Nat.add_comm], le_rfl, ?distinct, fun e he => ?made, fun e he => ?weight,
    ?total, fun i hi => ?leaf, fun k h1 h2 => by omega, fun j _ k h1 h2 => by omega, fun j hj hno => ?owned,
    fun k h1 h2 => by omega⟩
  case distinct =>
    rw [leafEntries_eq_map, List.map_map]
    refine (nodup_entries valid).map_on fun i hi j hj hij => ?_
    rw [← toNat_leafEntry_idx (freq := freq) (hlt hi), ← toNat_leafEntry_idx (freq := freq) (hlt hj)]
    exact congrArg BitVec.toNat hij
  case made =>
    obtain ⟨i, hi, _, hidx⟩ := hmem he
    exact hidx ▸ .inl (mem_entries.mp hi)
  case weight =>
    obtain ⟨i, hi, rfl, hidx⟩ := hmem he
    rw [hidx, get_placeLeaves hi]
    rfl
  case total =>
    rw [leafEntries_eq_map, List.map_map]
    exact congrArg List.sum (List.map_congr_left fun i _ => toNat_leafEntry_weight freq i)
  case leaf =>
    rw [get_placeLeaves hi]
    exact toNat_leafEntry_weight freq i
  case owned =>
    obtain ⟨hlow, hvalid⟩ | ⟨h1, h2⟩ := hj
    · refine absurd ⟨leafEntry freq j, ?_, toNat_leafEntry_idx hlow⟩ hno
      exact leafEntries_eq_map freq valid ▸ List.mem_map_of_mem (mem_entries.mpr ⟨hlow, hvalid⟩)
    · omega

/-- The counts of a table, each below 2^32, sum to less than 2^40. -/
theorem sum_freq_lt (freq : Table Word 256) (valid : Table Bool 256) :
    ((entries valid).map fun i => (freq.get i).toNat).sum < 2 ^ 40 := by
  have hle := List.sum_le_card_nsmul ((entries valid).map fun i => (freq.get i).toNat) (2 ^ 32 - 1) fun x hx => by
    obtain ⟨i, _, rfl⟩ := List.mem_map.mp hx
    exact Nat.le_sub_one_of_lt (freq.get i).isLt
  rw [List.length_map, smul_eq_mul] at hle
  have := Nat.mul_le_mul_right (2 ^ 32 - 1) (length_entries_le valid)
  omega

/-- What is made already stays as it is in the arena. -/
theorem get_set_above {node : Table Node 511} {next j : Nat} (hj : j < next) (n : Node) :
    (node.set next n).get j = node.get j :=
  Table.get_set_ne node n hj.ne'

theorem keyBefore_set_above {node : Table Node 511} {next : Nat} {i j : BitVec 9} (hi : i.toNat < next)
    (hj : j.toNat < next) (n : Node) : KeyBefore (node.set next n) i j ↔ KeyBefore node i j := by
  simp only [KeyBefore, get_set_above hi, get_set_above hj]

theorem Waiting.of_rest {a b : QEntry} {rest : List QEntry} {j : Nat} (hj : Waiting rest j) :
    Waiting (a :: b :: rest) j := by
  obtain ⟨e, he, hidx⟩ := hj
  exact ⟨e, List.mem_cons_of_mem a (List.mem_cons_of_mem b he), hidx⟩

section
variable {freq : Table Word 256} {valid : Table Bool 256} {node : Table Node 511} {a b : QEntry} {rest : List QEntry}
  {next : Nat} (h : Merging freq valid node (a :: b :: rest) next) (hab : a.key ≤ b.key)
  (hmin : ∀ e ∈ rest, b.key ≤ e.key)
include h

theorem Merging.next_lt : next < 511 := by
  have hcount := h.count
  have hle := length_entries_le valid
  simp only [List.length_cons] at hcount
  omega

theorem Merging.toNat_merged_idx : (mergedEntry a b next).idx.toNat = next :=
  Nat.mod_eq_of_lt (h.next_lt.trans (by decide))

theorem Merging.toNat_merged_weight : (a.weight + b.weight).toNat = a.weight.toNat + b.weight.toNat := by
  have htotal := h.total
  have hlt := sum_freq_lt freq valid
  simp only [List.map_cons, List.sum_cons] at htotal
  rw [BitVec.toNat_add]
  exact Nat.mod_eq_of_lt (by omega)

theorem Merging.get_set_next (n : Node) : (node.set next n).get next = n := Table.get_set_self node n h.next_lt

theorem Merging.idx_lt {e : QEntry} (he : e ∈ a :: b :: rest) : e.idx.toNat < next := (h.made e he).lt h.first

theorem Merging.idx_ne : a.idx ≠ b.idx ∧ (∀ e ∈ rest, e.idx ≠ a.idx ∧ e.idx ≠ b.idx) := by
  have hdistinct := h.distinct
  simp only [List.map_cons, List.nodup_cons, List.mem_cons, not_or, List.mem_map, not_exists, not_and] at hdistinct
  obtain ⟨⟨hne, ha⟩, hb, _⟩ := hdistinct
  exact ⟨hne, fun e he => ⟨ha e he, hb e he⟩⟩

/-- Who waits after the merge: the new node and the rest. -/
theorem Merging.waiting_merged {j : Nat} :
    Waiting (mergedEntry a b next :: rest) j ↔ j = next ∨ Waiting rest j := by
  simp only [Waiting, List.mem_cons, or_and_right, exists_or, exists_eq_left, h.toNat_merged_idx, eq_comm]

/-- The new node's children are the two merged; the older nodes keep theirs. -/
theorem Merging.isChild_merged {k j : Nat} (hk : k ≤ next) :
    IsChild (node.set next (mergedNode a b)) k j ↔
      (k < next ∧ IsChild node k j) ∨ (k = next ∧ (a.idx.toNat = j ∨ b.idx.toNat = j)) := by
  obtain hlt | rfl := hk.lt_or_eq
  · simp only [IsChild, get_set_above hlt, hlt, true_and, hlt.ne, false_and, or_false]
  · simp only [IsChild, h.get_set_next, lt_irrefl, false_and, false_or, true_and]
    rfl

theorem Merging.sumsChildren_merged {k : Nat} (hk : 256 ≤ k) (hk' : k ≤ next) :
    SumsChildren valid (node.set next (mergedNode a b)) k := by
  obtain hlt | rfl := hk'.lt_or_eq
  · obtain ⟨w, l, r, hnode, hne, hl, hr, hlk, hrk, hw⟩ := h.inner k hk hlt
    refine ⟨w, l, r, (get_set_above hlt _).trans hnode, hne, hl, hr, hlk, hrk, ?_⟩
    rw [get_set_above (hlk.trans hlt), get_set_above (hrk.trans hlt), hw]
  · have ha : a ∈ a :: b :: rest := List.mem_cons_self
    have hb : b ∈ a :: b :: rest := List.mem_cons_of_mem a List.mem_cons_self
    refine ⟨_, a.idx, b.idx, h.get_set_next _, h.idx_ne.1, h.made a ha, h.made b hb, h.idx_lt ha, h.idx_lt hb, ?_⟩
    rw [get_set_above (h.idx_lt ha), get_set_above (h.idx_lt hb), ← h.weight a ha, ← h.weight b hb,
      h.toNat_merged_weight]

theorem Merging.owned_merged {j : Nat} (hj : Made valid (next + 1) j)
    (hno : ¬Waiting (mergedEntry a b next :: rest) j) :
    ∃! k, 256 ≤ k ∧ k < next + 1 ∧ IsChild (node.set next (mergedNode a b)) k j := by
  rw [h.waiting_merged, not_or] at hno
  obtain ⟨hne, hrest⟩ := hno
  have hmade : Made valid next j := by
    obtain hleaf | ⟨hlow, hhigh⟩ := hj
    · exact .inl hleaf
    · exact .inr ⟨hlow, by omega⟩
  by_cases hwait : Waiting (a :: b :: rest) j
  · have hmerged : a.idx.toNat = j ∨ b.idx.toNat = j := by
      obtain ⟨e, he, hidx⟩ := hwait
      obtain rfl | he := List.mem_cons.mp he
      · exact .inl hidx
      · obtain rfl | he := List.mem_cons.mp he
        · exact .inr hidx
        · exact absurd ⟨e, he, hidx⟩ hrest
    refine ⟨next, ⟨h.first, Nat.lt_succ_self _, (h.isChild_merged le_rfl).mpr (.inr ⟨rfl, hmerged⟩)⟩, ?_⟩
    rintro k ⟨hk, hk', hchild⟩
    obtain ⟨hlt, hchild⟩ | ⟨rfl, _⟩ := (h.isChild_merged (Nat.le_of_lt_succ hk')).mp hchild
    · exact absurd hchild (h.free j hwait k hk hlt)
    · rfl
  · obtain ⟨k, ⟨hk, hk', hchild⟩, hunique⟩ := h.owned j hmade hwait
    refine ⟨k, ⟨hk, hk'.trans (Nat.lt_succ_self _), (h.isChild_merged hk'.le).mpr (.inl ⟨hk', hchild⟩)⟩, ?_⟩
    rintro k' ⟨hk, hk', hchild⟩
    obtain ⟨hlt, hchild⟩ | ⟨_, hmerged⟩ := (h.isChild_merged (Nat.le_of_lt_succ hk')).mp hchild
    · exact hunique k' ⟨hk, hlt, hchild⟩
    · refine absurd ?_ hwait
      obtain hidx | hidx := hmerged
      · exact ⟨a, List.mem_cons_self, hidx⟩
      · exact ⟨b, List.mem_cons_of_mem a List.mem_cons_self, hidx⟩

theorem Merging.order_older {k : Nat} (hk : 256 ≤ k) (hk' : k < next) :
    KeyBefore (node.set next (mergedNode a b)) (node.get k).left (node.get k).right ∧
    ∀ j : BitVec 9, j.toNat < k → (Waiting (mergedEntry a b next :: rest) j.toNat ∨ ∃ later, k < later ∧
      later < next + 1 ∧ IsChild (node.set next (mergedNode a b)) later j.toNat) →
      KeyBefore (node.set next (mergedNode a b)) (node.get k).right j := by
  obtain ⟨w, l, r, hnode, _, _, _, hlk, hrk, _⟩ := h.inner k hk hk'
  have hleft : (node.get k).left.toNat < next := by rw [hnode]; exact hlk.trans hk'
  have hright : (node.get k).right.toNat < next := by rw [hnode]; exact hrk.trans hk'
  obtain ⟨hchildren, hlater⟩ := h.order k hk hk'
  refine ⟨(keyBefore_set_above hleft hright _).mpr hchildren, fun j hj hwhere => ?_⟩
  refine (keyBefore_set_above hright (hj.trans hk') _).mpr (hlater j hj ?_)
  obtain hwait | ⟨later, hkl, hln, hchild⟩ := hwhere
  · obtain hj' | hwait := h.waiting_merged.mp hwait
    · omega
    · exact .inl hwait.of_rest
  · obtain ⟨hln, hchild⟩ | ⟨_, hidx | hidx⟩ := (h.isChild_merged (Nat.le_of_lt_succ hln)).mp hchild
    · exact .inr ⟨later, hkl, hln, hchild⟩
    · exact .inl ⟨a, List.mem_cons_self, hidx⟩
    · exact .inl ⟨b, List.mem_cons_of_mem a List.mem_cons_self, hidx⟩

include hab hmin

theorem Merging.order_newest : KeyBefore (node.set next (mergedNode a b)) a.idx b.idx ∧
    ∀ j : BitVec 9, j.toNat < next → (Waiting (mergedEntry a b next :: rest) j.toNat ∨ ∃ later, next < later ∧
      later < next + 1 ∧ IsChild (node.set next (mergedNode a b)) later j.toNat) →
      KeyBefore (node.set next (mergedNode a b)) b.idx j := by
  have ha : a ∈ a :: b :: rest := List.mem_cons_self
  have hb : b ∈ a :: b :: rest := List.mem_cons_of_mem a List.mem_cons_self
  obtain ⟨hne, hrest⟩ := h.idx_ne
  have hlt {x y : QEntry} (hle : x.key ≤ y.key) (hidx : x.idx ≠ y.idx) : x.key < y.key :=
    hle.lt_of_ne fun hkey => hidx (QEntry.idx_eq_of_key_eq hkey)
  refine ⟨?_, fun j hj hwhere => ?_⟩
  · rw [keyBefore_set_above (h.idx_lt ha) (h.idx_lt hb), keyBefore_iff (h.weight a ha) (h.weight b hb)]
    exact hlt hab hne
  · obtain hwait | ⟨later, _, _, _⟩ := hwhere
    · obtain hj' | ⟨e, he, hidx⟩ := h.waiting_merged.mp hwait
      · omega
      · have he' : e ∈ a :: b :: rest := List.mem_cons_of_mem a (List.mem_cons_of_mem b he)
        obtain rfl : e.idx = j := BitVec.eq_of_toNat_eq hidx
        rw [keyBefore_set_above (h.idx_lt hb) hj, keyBefore_iff (h.weight b hb) (h.weight e he')]
        exact hlt (hmin e he) (hrest e he).2.symm
    · omega

/-- One merge keeps the state of the loop. -/
theorem Merging.merge :
    Merging freq valid (node.set next (mergedNode a b)) (mergedEntry a b next :: rest) (next + 1) where
  count := by
    have := h.count
    simp only [List.length_cons] at this ⊢
    omega
  first := h.first.trans (Nat.le_succ next)
  distinct := by
    have hdistinct := h.distinct
    simp only [List.map_cons, List.nodup_cons] at hdistinct ⊢
    refine ⟨fun hmem => ?_, hdistinct.2.2⟩
    obtain ⟨e, he, hidx⟩ := List.mem_map.mp hmem
    have hlt := h.idx_lt (List.mem_cons_of_mem a (List.mem_cons_of_mem b he))
    rw [hidx, h.toNat_merged_idx] at hlt
    exact lt_irrefl next hlt
  made e he := by
    obtain rfl | he := List.mem_cons.mp he
    · exact .inr (h.toNat_merged_idx.symm ▸ ⟨h.first, Nat.lt_succ_self next⟩)
    · exact (h.made e (List.mem_cons_of_mem a (List.mem_cons_of_mem b he))).mono (Nat.le_succ next)
  weight e he := by
    obtain rfl | he := List.mem_cons.mp he
    · rw [h.toNat_merged_idx, h.get_set_next]
      rfl
    · have he' : e ∈ a :: b :: rest := List.mem_cons_of_mem a (List.mem_cons_of_mem b he)
      rw [get_set_above (h.idx_lt he'), h.weight e he']
  total := by
    have htotal := h.total
    have hweight : (mergedEntry a b next).weight.toNat = a.weight.toNat + b.weight.toNat := h.toNat_merged_weight
    simp only [List.map_cons, List.sum_cons] at htotal ⊢
    omega
  leaf i hi := by
    have hlt : i < next := (mem_entries.mp hi).1.trans_le h.first
    rw [get_set_above hlt, h.leaf i hi]
  inner k hk hk' := h.sumsChildren_merged hk (Nat.le_of_lt_succ hk')
  free j hj k hk hk' hchild := by
    obtain hnew | hrest := h.waiting_merged.mp hj
    · obtain ⟨_, l, r, hnode, _, _, _, hlk, hrk, _⟩ := h.sumsChildren_merged hk (Nat.le_of_lt_succ hk')
      rw [IsChild, hnode] at hchild
      change l.toNat = j ∨ r.toNat = j at hchild
      omega
    · obtain ⟨hlt, hchild⟩ | ⟨_, hmerged⟩ := (h.isChild_merged (Nat.le_of_lt_succ hk')).mp hchild
      · exact h.free j hrest.of_rest k hk hlt hchild
      · obtain ⟨e, he, hidx⟩ := hrest
        obtain ⟨hea, heb⟩ := h.idx_ne.2 e he
        obtain hidx' | hidx' := hmerged
        · exact hea (BitVec.eq_of_toNat_eq (hidx.trans hidx'.symm))
        · exact heb (BitVec.eq_of_toNat_eq (hidx.trans hidx'.symm))
  owned j := h.owned_merged
  order k hk hk' := by
    obtain hlt | rfl := (Nat.le_of_lt_succ hk').lt_or_eq
    · rw [get_set_above hlt]
      exact h.order_older hk hlt
    · rw [h.get_set_next]
      exact h.order_newest hab hmin

end

/-- The tree of a table with n entries: the loop's state with one node left. -/
theorem buildTree_merging {freq : Table Word 256} {valid : Table Bool 256} (hn : 1 ≤ (entries valid).length) :
    ∃ node r, Merging freq valid node [r] (255 + (entries valid).length) ∧
      buildTree freq valid = { node := node, root := r.idx, nnode := BitVec.ofNat 9 (2 * (entries valid).length - 1),
                               tkind := if (entries valid).length = 1 then .single else .multi } :=
  buildTree_induction (fun _ _ _ _ hperm h => h.perm hperm) (fun _ _ _ _ _ h hab hmin => h.merge hab hmin) hn
    (merging_start freq valid)

theorem waiting_singleton {r : QEntry} {j : Nat} : Waiting [r] j ↔ j = r.idx.toNat := by
  simp only [Waiting, List.mem_singleton, exists_eq_left]
  exact eq_comm

theorem made_iff_isTreeNode {valid : Table Bool 256} {n j : Nat} : Made valid (255 + n) j ↔ IsTreeNode valid n j := by
  refine or_congr_right ?_
  omega

/-- The last node made is no other node's child, so it is the root. -/
theorem Merging.root {freq : Table Word 256} {valid : Table Bool 256} {node : Table Node 511} {r : QEntry}
    (h : Merging freq valid node [r] (255 + (entries valid).length)) (hn : 2 ≤ (entries valid).length) :
    r.idx.toNat = 254 + (entries valid).length := by
  by_contra hne
  have hwait : ¬Waiting [r] (254 + (entries valid).length) := fun hwait => hne (waiting_singleton.mp hwait).symm
  obtain ⟨k, ⟨hk, hk', hchild⟩, _⟩ := h.owned _ (.inr ⟨by omega, by omega⟩) hwait
  obtain ⟨_, l, r', hnode, _, _, _, hlk, hrk, _⟩ := h.inner k hk hk'
  rw [IsChild, hnode] at hchild
  change l.toNat = _ ∨ r'.toNat = _ at hchild
  omega

theorem toNat_nnode {valid : Table Bool 256} :
    (BitVec.ofNat 9 (2 * (entries valid).length - 1)).toNat = 2 * (entries valid).length - 1 :=
  Nat.mod_eq_of_lt (by have := length_entries_le valid; omega)

theorem exec_build (s : State) : exec .build s = .next (complete { invalidate s with
    node := (buildTree s.freq s.valid).node
    root := (buildTree s.freq s.valid).root
    nnode := (buildTree s.freq s.valid).nnode
    tkind := (buildTree s.freq s.valid).tkind }) := rfl

/-- Settles O26: the state the merge loop ends in, with the root alone in the structure. -/
theorem buildMakesABinaryTree : Obligations.BuildMakesABinaryTree := by
  unfold Obligations.BuildMakesABinaryTree
  rintro s t n rfl hn hexec
  obtain ⟨node, r, h, hbuild⟩ := buildTree_merging (freq := s.freq) hn
  rw [exec_build, hbuild] at hexec
  cases hexec
  refine ⟨toNat_nnode, fun hn2 => ⟨h.root hn2, if_neg (by omega)⟩, h.leaf, fun k hk hk' => ?inner,
    fun j hj hne => ?parent, fun k hk hk' => ?order, ?total⟩
  case inner =>
    obtain ⟨w, l, r', hnode, hne, hl, hr, hlk, hrk, hw⟩ := h.inner k hk (by omega)
    exact ⟨w, l, r', hnode, hne, hlk, hrk, made_iff_isTreeNode.mp (hl.mono (by omega)),
      made_iff_isTreeNode.mp (hr.mono (by omega)), hw⟩
  case parent =>
    obtain ⟨k, ⟨hk, hk', hchild⟩, hunique⟩ :=
      h.owned j (made_iff_isTreeNode.mpr hj) fun hwait => hne (waiting_singleton.mp hwait)
    exact ⟨k, ⟨hk, by omega, hchild⟩, fun k' ⟨hk, hk', hchild⟩ => hunique k' ⟨hk, by omega, hchild⟩⟩
  case order =>
    obtain ⟨hchildren, hlater⟩ := h.order k hk (by omega)
    exact ⟨hchildren, fun later j hkl hln hjk hchild => hlater j hjk (.inr ⟨later, hkl, by omega, hchild⟩)⟩
  case total =>
    rw [← h.total, List.map_singleton, List.sum_singleton, h.weight r (List.mem_singleton_self r)]
    rfl

/-- The tree of one entry is the entry. -/
theorem buildTree_single {freq : Table Word 256} {valid : Table Bool 256} {a : Nat} (h : entries valid = [a]) :
    (buildTree freq valid).tkind = .single ∧ (buildTree freq valid).root.toNat = a ∧ (buildTree freq valid).nnode = 1 ∧
      ((buildTree freq valid).node.get a).weight.toNat = (freq.get a).toNat := by
  obtain ⟨node, r, hm, hbuild⟩ := buildTree_merging (freq := freq) (valid := valid) (by rw [h]; exact le_rfl)
  have ha : a ∈ entries valid := h ▸ List.mem_singleton_self a
  have hroot : r.idx.toNat = a := by
    obtain ⟨hlow, hvalid⟩ | ⟨hlow, hhigh⟩ := hm.made r (List.mem_singleton_self r)
    · have hmem : r.idx.toNat ∈ entries valid := mem_entries.mpr ⟨hlow, hvalid⟩
      rwa [h, List.mem_singleton] at hmem
    · rw [h] at hhigh
      exact absurd hhigh (not_lt.mpr hlow)
  rw [hbuild, h]
  exact ⟨rfl, hroot, rfl, hm.leaf a ha⟩

theorem pairwise_entries (valid : Table Bool 256) : (entries valid).Pairwise (· < ·) :=
  List.pairwise_lt_range.filter _

/-- Of two entries the one with the smaller key goes left: on a tie of the counts the smaller byte value. -/
theorem keyBefore_entries {node : Table Node 511} {freq : Table Word 256} {l r : BitVec 9} {a b : Nat} (hab : a < b)
    (hb : b < 256) (hla : (node.get a).weight.toNat = (freq.get a).toNat)
    (hlb : (node.get b).weight.toNat = (freq.get b).toNat) (hl : l.toNat = a ∨ l.toNat = b)
    (hr : r.toNat = a ∨ r.toNat = b) (hne : l ≠ r) (hkey : KeyBefore node l r) :
    (freq.get a ≤ freq.get b → l.toNat = a ∧ r.toNat = b) ∧ (freq.get b < freq.get a → l.toNat = b ∧ r.toNat = a) := by
  have hne' : l.toNat ≠ r.toNat := fun h => hne (BitVec.eq_of_toNat_eq h)
  have hweight : (node.get a).weight = (node.get b).weight ↔ (freq.get a).toNat = (freq.get b).toNat := by
    rw [← BitVec.toNat_inj, hla, hlb]
  simp only [BitVec.le_def, BitVec.lt_def]
  obtain hl | hl := hl <;> obtain hr | hr := hr <;> simp only [KeyBefore, hl, hr, hla, hlb, eq_comm, hweight] at hkey <;> omega

/-- The tree of two entries is one internal node over them. -/
theorem buildTree_pair {freq : Table Word 256} {valid : Table Bool 256} {a b : Nat} (h : entries valid = [a, b]) :
    (buildTree freq valid).tkind = .multi ∧ (buildTree freq valid).root = 256 ∧ (buildTree freq valid).nnode = 3 ∧
      ((buildTree freq valid).node.get 256).weight.toNat = (freq.get a).toNat + (freq.get b).toNat ∧
      (freq.get a ≤ freq.get b → ((buildTree freq valid).node.get 256).left.toNat = a ∧
        ((buildTree freq valid).node.get 256).right.toNat = b) ∧
      (freq.get b < freq.get a → ((buildTree freq valid).node.get 256).left.toNat = b ∧
        ((buildTree freq valid).node.get 256).right.toNat = a) := by
  have hlen : (entries valid).length = 2 := by rw [h]; rfl
  obtain ⟨node, r, hm, hbuild⟩ := buildTree_merging (freq := freq) (valid := valid) (by omega)
  have hroot : r.idx = 256 := BitVec.eq_of_toNat_eq (by rw [hm.root (by omega), hlen]; rfl)
  have hmem {j : Nat} : j ∈ entries valid ↔ j = a ∨ j = b := by rw [h, List.mem_pair]
  have hmade {j : Nat} (hj : Made valid 256 j) : j = a ∨ j = b := by
    obtain hleaf | ⟨h1, h2⟩ := hj
    · exact hmem.mp (mem_entries.mpr hleaf)
    · omega
  have hab : a < b := by
    have hsorted := pairwise_entries valid
    rw [h] at hsorted
    exact List.rel_of_pairwise_cons hsorted (List.mem_singleton_self b)
  have hwa := hm.leaf a (hmem.mpr (.inl rfl))
  have hwb := hm.leaf b (hmem.mpr (.inr rfl))
  obtain ⟨w, l, r', hnode, hne, hl, hr, _, _, hw⟩ := hm.inner 256 le_rfl (by omega)
  have hkey := (hm.order 256 le_rfl (by omega)).1
  rw [hnode] at hkey
  have hsides := keyBefore_entries hab (mem_entries.mp (hmem.mpr (.inr rfl))).1 hwa hwb (hmade hl) (hmade hr) hne hkey
  have hnode' : (buildTree freq valid).node.get 256 = .internal w l r' := by rw [hbuild, hnode]
  refine ⟨by rw [hbuild, hlen]; rfl, by rw [hbuild, hroot], by rw [hbuild, hlen]; rfl, ?weight, ?sides⟩
  case weight =>
    have hne' : l.toNat ≠ r'.toNat := fun heq => hne (BitVec.eq_of_toNat_eq heq)
    rw [hnode', Node.weight, hw]
    obtain hl | hl := hmade hl <;> obtain hr | hr := hmade hr <;> rw [hl, hr] at hne' ⊢ <;> omega
  case sides =>
    rw [hnode']
    exact hsides

/-- Settles O25: no entry, one and two are cases of the general tree. -/
theorem buildOfSmallTables : Obligations.BuildOfSmallTables := by
  unfold Obligations.BuildOfSmallTables
  intro s
  refine ⟨_, exec_build s, complete_completedOk rfl rfl rfl, rfl, fun hempty => ?none,
    fun a hone => buildTree_single hone, fun a b htwo => buildTree_pair htwo,
    ?operands, ?table, rfl, ?res, rfl, ?packLength, rfl, rfl, fun _ => rfl, ?rest⟩
  case none =>
    rw [buildTree_of_no_entry hempty]
    exact ⟨rfl, rfl, rfl⟩
  all_goals constructor <;> rfl

end Sys2Proof.Machine
end

section
/-! Paths in an arena and the codes GENCODE's walk gives, whether or not the arena is a tree (44_codetable.md R160,
R163). -/

namespace Sys2Proof.Machine

/-- The bits `p` lead from node `i` to the leaf `s`, and reach no leaf before it. -/
inductive Reaches (node : Table Node 511) : BitVec 9 → List Bool → Nat → Prop
  | leaf {i : BitVec 9} (h : isLeafIndex i = true) : Reaches node i [] i.toNat
  | step {i : BitVec 9} {b : Bool} {p : List Bool} {s : Nat} (h : isLeafIndex i = false)
      (hr : Reaches node (childOf node i b) p s) : Reaches node i (b :: p) s

theorem reaches_leaf_iff {node : Table Node 511} {i : BitVec 9} {p : List Bool} {s : Nat} (h : isLeafIndex i = true) :
    Reaches node i p s ↔ p = [] ∧ s = i.toNat := by
  constructor
  · intro hr
    cases hr with
    | leaf _ => exact ⟨rfl, rfl⟩
    | step hinner _ => exact absurd (hinner.symm.trans h) Bool.false_ne_true
  · rintro ⟨rfl, rfl⟩
    exact .leaf h

theorem reaches_inner_iff {node : Table Node 511} {i : BitVec 9} {p : List Bool} {s : Nat}
    (h : isLeafIndex i = false) :
    Reaches node i p s ↔ ∃ b q, p = b :: q ∧ Reaches node (childOf node i b) q s := by
  constructor
  · intro hr
    cases hr with
    | leaf hleaf => exact absurd (h.symm.trans hleaf) Bool.false_ne_true
    | step _ hr => exact ⟨_, _, rfl, hr⟩
  · rintro ⟨b, q, rfl, hr⟩
    exact .step h hr

theorem follow_cons (node : Table Node 511) (i : BitVec 9) (b : Bool) (p : List Bool) :
    follow node i (b :: p) = follow node (childOf node i b) p := rfl

theorem reaches_iff {node : Table Node 511} {i : BitVec 9} {p : List Bool} {s : Nat} : Reaches node i p s ↔
    (follow node i p).toNat = s ∧ isLeafIndex (follow node i p) = true ∧
      ∀ k, k < p.length → isLeafIndex (follow node i (p.take k)) = false := by
  constructor
  · intro h
    induction h with
    | leaf h => exact ⟨rfl, h, nofun⟩
    | step h _ ih =>
      obtain ⟨harrives, hleaf, hthrough⟩ := ih
      refine ⟨harrives, hleaf, fun k hk => ?_⟩
      cases k with
      | zero => exact h
      | succ k => exact hthrough k (Nat.lt_of_succ_lt_succ hk)
  · rintro ⟨rfl, hleaf, hthrough⟩
    induction p generalizing i with
    | nil => exact .leaf hleaf
    | cons b p ih =>
      exact .step (hthrough 0 (Nat.succ_pos _)) (ih hleaf fun k hk => hthrough (k + 1) (Nat.succ_lt_succ hk))

/-- A path from a root is a first bit and a way on from the child it leads to. -/
theorem isPath_cons_iff {node : Table Node 511} {root leaf : BitVec 9} {b : Bool} {p : List Bool} :
    IsPath node root (b :: p) leaf ↔ Reaches node (childOf node root b) p leaf.toNat := by
  rw [reaches_iff]
  constructor
  · rintro ⟨_, rfl, hleaf, hthrough⟩
    exact ⟨rfl, hleaf, fun k hk => hthrough (k + 1) (Nat.succ_pos k) (Nat.succ_lt_succ hk)⟩
  · rintro ⟨harrives, hleaf, hthrough⟩
    have harrives : follow node root (b :: p) = leaf := BitVec.eq_of_toNat_eq harrives
    refine ⟨nofun, harrives, harrives ▸ hleaf, fun k hk hk' => ?_⟩
    obtain ⟨k, rfl⟩ := Nat.exists_eq_succ_of_ne_zero hk.ne'
    exact hthrough k (Nat.lt_of_succ_lt_succ hk')

theorem isPath_iff_reaches {node : Table Node 511} {root leaf : BitVec 9} {p : List Bool}
    (hroot : isLeafIndex root = false) : IsPath node root p leaf ↔ Reaches node root p leaf.toNat := by
  cases p with
  | nil =>
    refine iff_of_false (fun h => h.moves rfl) fun h => ?_
    rw [reaches_iff] at h
    exact Bool.false_ne_true (hroot.symm.trans h.2.1)
  | cons b p =>
    simp only [isPath_cons_iff, reaches_inner_iff hroot, List.cons.injEq, and_assoc, exists_eq_left', exists_and_left]

theorem Reaches.ne_nil {node : Table Node 511} {i : BitVec 9} {p : List Bool} {s : Nat} (h : Reaches node i p s)
    (hi : isLeafIndex i = false) : p ≠ [] := by
  obtain ⟨b, q, rfl, _⟩ := (reaches_inner_iff hi).mp h
  exact List.cons_ne_nil b q

/-- A way to a leaf ends there: no other way goes on from it. -/
theorem Reaches.eq_of_prefix {node : Table Node 511} {i : BitVec 9} {p p' : List Bool} {s s' : Nat}
    (h : Reaches node i p s) (h' : Reaches node i p' s') (hp : p <+: p') : p = p' ∧ s = s' := by
  induction h generalizing p' with
  | leaf hleaf =>
    obtain ⟨rfl, rfl⟩ := (reaches_leaf_iff hleaf).mp h'
    exact ⟨rfl, rfl⟩
  | step hinner _ ih =>
    obtain ⟨b, q, rfl, hr'⟩ := (reaches_inner_iff hinner).mp h'
    obtain ⟨rfl, htail⟩ := List.cons_prefix_cons.mp hp
    obtain ⟨rfl, hs⟩ := ih hr' htail
    exact ⟨rfl, hs⟩

/-! ### The walk -/

theorem walk_leaf {node : Table Node 511} {i : BitVec 9} (h : isLeafIndex i = true) (fuel : Nat) (path : Code)
    (code : Table Code 256) : walk (fuel + 1) node i path code = code.set i.toNat (leafCode path) := if_pos h

theorem walk_inner {node : Table Node 511} {i : BitVec 9} (h : isLeafIndex i = false) (fuel : Nat) (path : Code)
    (code : Table Code 256) : walk (fuel + 1) node i path code =
      walk fuel node (childOf node i true) (path ++ [true])
        (walk fuel node (childOf node i false) (path ++ [false]) code) := if_neg (ne_true_of_eq_false h)

theorem toNat_lt_of_isLeafIndex {i : BitVec 9} (h : isLeafIndex i = true) : i.toNat < 256 :=
  Nat.lt_succ_of_le (of_decide_eq_true h)

/-- The code `c` was given for a way from node `i`, walked to with the bits `path`, to the leaf `s`. -/
def GivenFrom (node : Table Node 511) (i : BitVec 9) (path : Code) (s : Nat) (c : Code) : Prop :=
  ∃ p, Reaches node i p s ∧ c = leafCode (path ++ p)

theorem GivenFrom.of_child {node : Table Node 511} {i : BitVec 9} (hi : isLeafIndex i = false) {path : Code} {b : Bool}
    {s : Nat} {c : Code} (h : GivenFrom node (childOf node i b) (path ++ [b]) s c) : GivenFrom node i path s c := by
  obtain ⟨p, hr, rfl⟩ := h
  exact ⟨b :: p, .step hi hr, by rw [List.append_assoc, List.singleton_append]⟩

/-- The walk writes codes of ways it walked, and leaves the others. -/
theorem get_walk (fuel : Nat) (node : Table Node 511) (i : BitVec 9) (path : Code) (code : Table Code 256) (s : Nat) :
    (walk fuel node i path code).get s = code.get s ∨ GivenFrom node i path s ((walk fuel node i path code).get s) := by
  induction fuel generalizing i path code with
  | zero => exact .inl rfl
  | succ fuel ih =>
    cases hi : isLeafIndex i with
    | true =>
      rw [walk_leaf hi, Table.get_set _ _ _ (toNat_lt_of_isLeafIndex hi)]
      split
      next hs =>
        subst hs
        exact .inr ⟨[], .leaf hi, by rw [List.append_nil]⟩
      next => exact .inl rfl
    | false =>
      rw [walk_inner hi]
      obtain hright | hright := ih (childOf node i true) (path ++ [true])
        (walk fuel node (childOf node i false) (path ++ [false]) code)
      · rw [hright]
        exact (ih (childOf node i false) (path ++ [false]) code).imp id (.of_child hi)
      · exact .inr (.of_child hi hright)

/-- The walk gives a code to every leaf it reaches within its levels. -/
theorem get_walk_of_reaches {fuel : Nat} {node : Table Node 511} {i : BitVec 9} {p : List Bool} {s : Nat}
    (h : Reaches node i p s) (hlen : p.length < fuel) (path : Code) (code : Table Code 256) :
    GivenFrom node i path s ((walk fuel node i path code).get s) := by
  induction fuel generalizing i p path code with
  | zero => exact absurd hlen (Nat.not_lt_zero _)
  | succ fuel ih =>
    cases h with
    | leaf hi =>
      rw [walk_leaf hi, Table.get_set_self _ _ (toNat_lt_of_isLeafIndex hi)]
      exact ⟨[], .leaf hi, by rw [List.append_nil]⟩
    | @step _ b p _ hi hr =>
      rw [walk_inner hi]
      have hlen' : p.length < fuel := Nat.lt_of_succ_lt_succ hlen
      cases b with
      | true => exact .of_child hi (ih hr hlen' _ _)
      | false =>
        obtain hkept | hright := get_walk fuel node (childOf node i true) (path ++ [true])
          (walk fuel node (childOf node i false) (path ++ [false]) code) s
        · rw [hkept]
          exact .of_child hi (ih hr hlen' _ _)
        · exact .of_child hi hright

/-! ### The code table -/

theorem genCodes_empty (root : BitVec 9) (node : Table Node 511) : genCodes .empty root node = blankCodes := rfl

theorem genCodes_nonempty {tkind : TKind} (h : tkind ≠ .empty) (root : BitVec 9) (node : Table Node 511) :
    genCodes tkind root node = walk 256 node root [] blankCodes := if_neg h

theorem get_blankCodes {s : Nat} (h : s < 256) : blankCodes.get s = [] := Table.get_fill [] h

/-- A root that is a leaf gets the code 0, alone. -/
theorem get_genCodes_leaf {tkind : TKind} (h : tkind ≠ .empty) {root : BitVec 9} (hroot : root.toNat ≤ 255)
    (node : Table Node 511) {s : Nat} (hs : s < 256) :
    (genCodes tkind root node).get s = if s = root.toNat then [false] else [] := by
  rw [genCodes_nonempty h, walk_leaf (decide_eq_true hroot), Table.get_set _ _ _ (Nat.lt_succ_of_le hroot),
    get_blankCodes hs]
  simp only [eq_comm, leafCode, if_true]

theorem isLeafIndex_eq_false {i : BitVec 9} (h : 256 ≤ i.toNat) : isLeafIndex i = false :=
  decide_eq_false (by omega)

theorem GivenFrom.reaches_root {node : Table Node 511} {root : BitVec 9} (hroot : 256 ≤ root.toNat) {s : Nat} {c : Code}
    (h : GivenFrom node root [] s c) : Reaches node root c s := by
  obtain ⟨p, hr, rfl⟩ := h
  have hp : p ≠ [] := hr.ne_nil (isLeafIndex_eq_false hroot)
  rwa [List.nil_append, leafCode, if_neg hp]

section
variable {tkind : TKind} (htree : tkind ≠ .empty) {root : BitVec 9} (hroot : 256 ≤ root.toNat) {node : Table Node 511}
include htree hroot

/-- Below an internal root every code is a way to its leaf. -/
theorem reaches_of_code {s : Nat} (hs : s < 256) (h : (genCodes tkind root node).get s ≠ []) :
    Reaches node root ((genCodes tkind root node).get s) s := by
  rw [genCodes_nonempty htree] at h ⊢
  obtain hkept | hgiven := get_walk 256 node root [] blankCodes s
  · exact absurd (hkept.trans (get_blankCodes hs)) h
  · exact hgiven.reaches_root hroot

/-- Below an internal root every leaf within 255 levels has a code. -/
theorem code_of_reaches {s : Nat} {p : List Bool} (h : Reaches node root p s) (hlen : p.length ≤ 255) :
    Reaches node root ((genCodes tkind root node).get s) s := by
  rw [genCodes_nonempty htree]
  exact (get_walk_of_reaches h (Nat.lt_succ_of_le hlen) [] blankCodes).reaches_root hroot

theorem code_ne_nil_of_reaches {s : Nat} {p : List Bool} (h : Reaches node root p s) (hlen : p.length ≤ 255) :
    (genCodes tkind root node).get s ≠ [] :=
  (code_of_reaches htree hroot h hlen).ne_nil (isLeafIndex_eq_false hroot)

end

/-- Under any arena no code begins another: a code is a way to the first leaf. -/
theorem genCodes_prefixFree (tkind : TKind) (root : BitVec 9) (node : Table Node 511) {x y : Nat} (hx : x < 256)
    (hy : y < 256) (hcx : HasCode (genCodes tkind root node) x) (hcy : HasCode (genCodes tkind root node) y)
    (hp : (genCodes tkind root node).get x <+: (genCodes tkind root node).get y) : x = y := by
  by_cases htree : tkind = .empty
  · rw [htree, genCodes_empty] at hcx
    exact absurd (get_blankCodes hx) hcx
  · obtain hroot | hroot := Nat.lt_or_ge root.toNat 256
    · have honly {s : Nat} (hs : s < 256) (hc : HasCode (genCodes tkind root node) s) : s = root.toNat := by
        by_contra hne
        exact hc (by rw [get_genCodes_leaf htree (Nat.le_of_lt_succ hroot) node hs, if_neg hne])
      rw [honly hx hcx, honly hy hcy]
    · exact ((reaches_of_code htree hroot hx hcx).eq_of_prefix (reaches_of_code htree hroot hy hcy) hp).2

theorem exec_gencode {s : State} (h : s.tkind ≠ .none) : exec .gencode s =
    .next (complete { s with code := genCodes s.tkind s.root s.node, codeV := true }) := by
  simp only [exec, execGencode, h, if_false]

theorem code_of_gencode {s t : State} (htree : s.tkind ≠ .none) (h : exec .gencode s = .next t) :
    t.code = genCodes s.tkind s.root s.node := by
  rw [exec_gencode htree] at h
  cases h
  rfl

/-- Settles O31: two codes, one the beginning of the other, lead to the same leaf. -/
theorem codesArePrefixFree : Obligations.CodesArePrefixFree := by
  unfold Obligations.CodesArePrefixFree
  intro s t htree h x y hx hy hne
  rw [code_of_gencode htree h]
  exact fun hcx hcy hp => hne (genCodes_prefixFree _ _ _ hx hy hcx hcy hp)

end Sys2Proof.Machine
end

section
/-! The tree an arena holds: its leaves, its depth and its cost (43_tree.md R142, R144), and the codes of a tree. -/

namespace Sys2Proof.Machine

/-- A binary tree with byte values at its leaves. -/
inductive Tree where
  | leaf (sym : Nat)
  | fork (left right : Tree)

/-- The byte values at the leaves, from the left. -/
def Tree.leaves : Tree → List Nat
  | .leaf sym => [sym]
  | .fork left right => left.leaves ++ right.leaves

/-- The sum of the leaves' weights. -/
def Tree.weight (w : Nat → Nat) (t : Tree) : Nat := (t.leaves.map w).sum

/-- The sum of the internal nodes' weights, which is the weighted sum of the leaves' depths. -/
def Tree.cost (w : Nat → Nat) : Tree → Nat
  | .leaf _ => 0
  | .fork left right => left.weight w + right.weight w + left.cost w + right.cost w

/-- The arena holds the tree `t` at node `i`. -/
inductive Holds (node : Table Node 511) : BitVec 9 → Tree → Prop
  | leaf {i : BitVec 9} (h : i.toNat ≤ 255) : Holds node i (.leaf i.toNat)
  | fork {i : BitVec 9} {left right : Tree} (h : 256 ≤ i.toNat) (hlt : ∀ b, (childOf node i b).toNat < i.toNat)
      (hl : Holds node (childOf node i false) left) (hr : Holds node (childOf node i true) right) :
      Holds node i (.fork left right)

theorem Tree.weight_fork (w : Nat → Nat) (left right : Tree) :
    (fork left right).weight w = left.weight w + right.weight w := by
  simp only [weight, leaves, List.map_append, List.sum_append]

theorem Tree.leaves_ne_nil (t : Tree) : t.leaves ≠ [] := by
  cases t with
  | leaf sym => exact List.cons_ne_nil _ _
  | fork left right =>
    cases left with
    | leaf sym => exact List.cons_ne_nil _ _
    | fork _ _ => exact fun h => Tree.leaves_ne_nil _ (List.append_eq_nil_iff.mp h).1

/-- Below a child the ways are one bit shorter. -/
theorem length_below {node : Table Node 511} {j : BitVec 9} (hj : isLeafIndex j = false) {len : Nat → Nat} {d : Nat}
    (hlen : ∀ p s, Reaches node j p s → len s = d + p.length) (b : Bool) (p : List Bool) (s : Nat)
    (hr : Reaches node (childOf node j b) p s) : len s = d + 1 + p.length := by
  rw [hlen _ s (.step hj hr), List.length_cons]
  omega

section
variable {node : Table Node 511} {i : BitVec 9} {t : Tree} (h : Holds node i t)
include h

/-- Writing a later node changes no tree. -/
theorem Holds.set {k : Nat} (hk : i.toNat < k) (n : Node) : Holds (node.set k n) i t := by
  induction h with
  | leaf h => exact .leaf h
  | @fork i left right hlow hlt _ _ ihl ihr =>
    have hsame (b : Bool) : childOf (node.set k n) i b = childOf node i b := by
      rw [childOf, childOf, Table.get_set_ne node n hk.ne']
    refine .fork hlow (fun b => hsame b ▸ hlt b) ?_ ?_
    · rw [hsame]
      exact ihl ((hlt false).trans hk)
    · rw [hsame]
      exact ihr ((hlt true).trans hk)

/-- The leaves are what ways lead to. -/
theorem Holds.mem_leaves_iff {s : Nat} : s ∈ t.leaves ↔ ∃ p, Reaches node i p s := by
  induction h with
  | leaf h =>
    simp only [Tree.leaves, List.mem_singleton, reaches_leaf_iff (decide_eq_true h), exists_eq_left]
  | fork hlow _ _ _ ihl ihr =>
    rw [Tree.leaves, List.mem_append, ihl, ihr]
    simp only [reaches_inner_iff (isLeafIndex_eq_false hlow)]
    constructor
    · rintro (⟨p, hr⟩ | ⟨p, hr⟩)
      · exact ⟨_, false, p, rfl, hr⟩
      · exact ⟨_, true, p, rfl, hr⟩
    · rintro ⟨_, b, p, rfl, hr⟩
      cases b with
      | false => exact .inl ⟨p, hr⟩
      | true => exact .inr ⟨p, hr⟩

/-- A way down passes a leaf it leaves behind at every step. -/
theorem Holds.length_lt {p : List Bool} {s : Nat} (hr : Reaches node i p s) : p.length < t.leaves.length := by
  induction h generalizing p with
  | leaf h =>
    rw [((reaches_leaf_iff (decide_eq_true h)).mp hr).1]
    exact Nat.one_pos
  | @fork _ left right hlow _ _ _ ihl ihr =>
    have hleft := List.length_pos_of_ne_nil left.leaves_ne_nil
    have hright := List.length_pos_of_ne_nil right.leaves_ne_nil
    obtain ⟨b, q, rfl, hq⟩ := (reaches_inner_iff (isLeafIndex_eq_false hlow)).mp hr
    rw [Tree.leaves, List.length_append, List.length_cons]
    cases b with
    | false => have := ihl hq; omega
    | true => have := ihr hq; omega

/-- Where no byte value stands at two leaves, one way leads to each. -/
theorem Holds.unique {p p' : List Bool} {s : Nat} (hnodup : t.leaves.Nodup) (hr : Reaches node i p s)
    (hr' : Reaches node i p' s) : p = p' := by
  induction h generalizing p p' with
  | leaf h =>
    have hleaf : isLeafIndex _ = true := decide_eq_true h
    rw [((reaches_leaf_iff hleaf).mp hr).1, ((reaches_leaf_iff hleaf).mp hr').1]
  | fork hlow _ hl hright ihl ihr =>
    have hinner := isLeafIndex_eq_false hlow
    obtain ⟨hnl, hnr, hdisjoint⟩ := List.nodup_append.mp hnodup
    have hapart {q q' : List Bool} (hq : Reaches node (childOf node _ false) q s)
        (hq' : Reaches node (childOf node _ true) q' s) : False :=
      hdisjoint s (hl.mem_leaves_iff.mpr ⟨q, hq⟩) s (hright.mem_leaves_iff.mpr ⟨q', hq'⟩) rfl
    obtain ⟨b, q, rfl, hq⟩ := (reaches_inner_iff hinner).mp hr
    obtain ⟨b', q', rfl, hq'⟩ := (reaches_inner_iff hinner).mp hr'
    cases b <;> cases b'
    · rw [ihl hnl hq hq']
    · exact (hapart hq hq').elim
    · exact (hapart hq' hq).elim
    · rw [ihr hnr hq hq']

/-- The weighted lengths of the ways add up to the cost of the tree. -/
theorem Holds.sum_mul_length (w len : Nat → Nat) (d : Nat)
    (hlen : ∀ p s, Reaches node i p s → len s = d + p.length) :
    (t.leaves.map fun s => w s * len s).sum = d * t.weight w + t.cost w := by
  induction h generalizing d with
  | leaf h =>
    have := hlen [] _ (.leaf (decide_eq_true h))
    simp [Tree.leaves, Tree.weight, Tree.cost, this, Nat.mul_comm]
  | fork hlow _ _ _ ihl ihr =>
    have hbelow := length_below (isLeafIndex_eq_false hlow) hlen
    rw [Tree.leaves, List.map_append, List.sum_append, ihl (d + 1) (hbelow false), ihr (d + 1) (hbelow true),
      Tree.weight_fork, Tree.cost]
    ring

/-- The ways fill the Kraft sum. -/
theorem Holds.sum_half_pow (len : Nat → Nat) (d : Nat) (hlen : ∀ p s, Reaches node i p s → len s = d + p.length) :
    (t.leaves.map fun s => (1 / 2 : ℚ) ^ len s).sum = (1 / 2) ^ d := by
  induction h generalizing d with
  | leaf h =>
    have := hlen [] _ (.leaf (decide_eq_true h))
    simp [Tree.leaves, this]
  | fork hlow _ _ _ ihl ihr =>
    have hbelow := length_below (isLeafIndex_eq_false hlow) hlen
    rw [Tree.leaves, List.map_append, List.sum_append, ihl (d + 1) (hbelow false), ihr (d + 1) (hbelow true)]
    ring

end

end Sys2Proof.Machine
end

section
/-! Huffman's argument (43_tree.md R144): lengths that meet the Kraft inequality can be kept while two trees of least
weight are made one, at no more than the same cost. -/

namespace Sys2Proof.Machine

/-- The Kraft sum of some code lengths. -/
def kraft (lens : List Nat) : ℚ := (lens.map fun l => (1 / 2 : ℚ) ^ l).sum

/-- What the trees cost once each is put below a path of the length that stands beside it. -/
def placedCost (w : Nat → Nat) (ps : List (Tree × Nat)) : Nat :=
  (ps.map fun p => p.1.cost w + p.1.weight w * p.2).sum

/-- The trees can be put below paths, none the beginning of another, at a cost of at most `c`. -/
def Affordable (w : Nat → Nat) (ts : List Tree) (c : Nat) : Prop :=
  ∃ ps : List (Tree × Nat), (ps.map Prod.fst).Perm ts ∧ kraft (ps.map Prod.snd) ≤ 1 ∧ placedCost w ps ≤ c

theorem kraft_cons (l : Nat) (lens : List Nat) : kraft (l :: lens) = (1 / 2) ^ l + kraft lens := by
  rw [kraft, List.map_cons, List.sum_cons, kraft]

theorem kraft_perm {lens lens' : List Nat} (h : lens.Perm lens') : kraft lens = kraft lens' := (h.map _).sum_eq

theorem kraft_nonneg (lens : List Nat) : 0 ≤ kraft lens :=
  List.sum_nonneg fun x hx => by
    obtain ⟨l, _, rfl⟩ := List.mem_map.mp hx
    positivity

theorem placedCost_cons (w : Nat → Nat) (p : Tree × Nat) (ps : List (Tree × Nat)) :
    placedCost w (p :: ps) = p.1.cost w + p.1.weight w * p.2 + placedCost w ps := by
  rw [placedCost, List.map_cons, List.sum_cons, placedCost]

theorem placedCost_perm (w : Nat → Nat) {ps ps' : List (Tree × Nat)} (h : ps.Perm ps') :
    placedCost w ps = placedCost w ps' := (h.map _).sum_eq

/-- A list of pairs with given first components, in another order: the pair of one of them taken out. -/
theorem exists_perm_pair {α β : Type} {l : List (α × β)} {a : α} {as : List α}
    (h : (l.map Prod.fst).Perm (a :: as)) : ∃ b l', l.Perm ((a, b) :: l') ∧ (l'.map Prod.fst).Perm as := by
  obtain ⟨⟨_, b⟩, hp, rfl⟩ := List.mem_map.mp (h.mem_iff.mpr List.mem_cons_self)
  obtain ⟨l1, l2, rfl⟩ := List.append_of_mem hp
  exact ⟨b, l1 ++ l2, List.perm_middle, ((List.perm_middle.symm.map Prod.fst).trans h).cons_inv⟩

/-- Of two weights, the lesser goes with the greater length. -/
theorem mul_add_mul_le {v w l m : Nat} (hvw : v ≤ w) (hlm : l ≤ m) : v * m + w * l ≤ v * l + w * m := by
  obtain ⟨d, rfl⟩ := Nat.exists_eq_add_of_le hlm
  have := Nat.mul_le_mul_right d hvw
  rw [Nat.mul_add, Nat.mul_add]
  omega

/-- Exchanging lengths, a least weight gets the greatest length, at no more cost. -/
theorem exists_greatest_length (w : Nat → Nat) {v : Nat} (l : Nat) {ps : List (Tree × Nat)}
    (hv : ∀ p ∈ ps, v ≤ p.1.weight w) :
    ∃ l' ps', ps'.map Prod.fst = ps.map Prod.fst ∧ (l' :: ps'.map Prod.snd).Perm (l :: ps.map Prod.snd) ∧
      l ≤ l' ∧ (∀ p ∈ ps', p.2 ≤ l') ∧ v * l' + placedCost w ps' ≤ v * l + placedCost w ps := by
  induction ps generalizing l with
  | nil => exact ⟨l, [], rfl, .refl _, le_rfl, nofun, le_rfl⟩
  | cons p ps ih =>
    obtain ⟨t, m⟩ := p
    have hvt : v ≤ t.weight w := hv (t, m) List.mem_cons_self
    obtain ⟨l', ps', hfst, hsnd, hle, hmax, hcost⟩ := ih (max l m) fun p hp => hv p (List.mem_cons_of_mem _ hp)
    refine ⟨l', (t, min l m) :: ps', by rw [List.map_cons, List.map_cons, hfst], ?_, (le_max_left l m).trans hle, ?_, ?_⟩
    · have hswap : (min l m :: max l m :: ps.map Prod.snd).Perm (l :: m :: ps.map Prod.snd) := by
        obtain h | h := le_total l m
        · rw [min_eq_left h, max_eq_right h]
        · rw [min_eq_right h, max_eq_left h]
          exact .swap _ _ _
      exact (List.Perm.swap _ _ _).trans ((hsnd.cons (min l m)).trans hswap)
    · intro p hp
      obtain rfl | hp := List.mem_cons.mp hp
      · exact min_le_max.trans hle
      · exact hmax p hp
    · rw [placedCost_cons, placedCost_cons]
      have hexchange : v * max l m + t.weight w * min l m ≤ v * l + t.weight w * m := by
        obtain h | h := le_total l m
        · rw [min_eq_left h, max_eq_right h]
          exact mul_add_mul_le hvt h
        · rw [min_eq_right h, max_eq_left h]
      dsimp only
      omega

/-- Over a power of two no length exceeds, the Kraft sum is a whole number. -/
theorem exists_kraft_mul_eq {lens : List Nat} {m : Nat} (h : ∀ l ∈ lens, l ≤ m) :
    ∃ k : Nat, kraft lens * 2 ^ m = k := by
  induction lens with
  | nil => exact ⟨0, by simp [kraft]⟩
  | cons l lens ih =>
    obtain ⟨k, hk⟩ := ih fun x hx => h x (List.mem_cons_of_mem l hx)
    obtain ⟨d, rfl⟩ := Nat.exists_eq_add_of_le (h l List.mem_cons_self)
    refine ⟨2 ^ d + k, ?_⟩
    rw [kraft_cons, add_mul, hk, pow_add, ← mul_assoc, ← mul_pow]
    push_cast
    norm_num

/-- A greatest length that stands alone can come down to the next: the sum of the others, and so the room, is in steps
of the next. -/
theorem kraft_lower {la lb : Nat} {lens : List Nat} (hab : lb ≤ la) (hmax : ∀ l ∈ lens, l ≤ lb)
    (h : kraft (la :: lb :: lens) ≤ 1) : kraft (lb :: lb :: lens) ≤ 1 := by
  obtain ⟨k, hk⟩ := exists_kraft_mul_eq (lens := lb :: lens) (m := lb) fun l hl => by
    obtain rfl | hl := List.mem_cons.mp hl
    · exact le_rfl
    · exact hmax l hl
  have hpos : (0 : ℚ) < 2 ^ lb := by positivity
  have hone : (1 / 2 : ℚ) ^ lb * 2 ^ lb = 1 := by rw [← mul_pow]; norm_num
  rw [kraft_cons] at h ⊢
  have hlt : kraft (lb :: lens) < 1 := by
    have : (0 : ℚ) < (1 / 2) ^ la := by positivity
    linarith
  have hk' : k + 1 ≤ 2 ^ lb := by
    have := mul_lt_mul_of_pos_right hlt hpos
    rw [hk, one_mul] at this
    exact_mod_cast this
  have hk'' : ((k : ℚ) + 1) ≤ 2 ^ lb := by exact_mod_cast hk'
  refine le_of_mul_le_mul_right ?_ hpos
  rw [add_mul, hone, hk, one_mul]
  linarith

/-- Two equal lengths make room for one that is shorter by 1. -/
theorem kraft_merge {l : Nat} {lens : List Nat} (h : kraft (l :: l :: lens) ≤ 1) :
    1 ≤ l ∧ kraft ((l - 1) :: lens) ≤ 1 := by
  rw [kraft_cons, kraft_cons] at h
  have hnonneg := kraft_nonneg lens
  cases l with
  | zero => norm_num at h; linarith
  | succ l =>
    refine ⟨Nat.succ_pos l, ?_⟩
    rw [kraft_cons, Nat.succ_sub_one]
    rw [pow_succ] at h
    linarith

/-- The two least weights can have the two greatest lengths. -/
theorem Affordable.greatest_lengths {w : Nat → Nat} {ta tb : Tree} {ts : List Tree} {c : Nat}
    (h : Affordable w (ta :: tb :: ts) c) (hab : ta.weight w ≤ tb.weight w) (hmin : ∀ t ∈ ts, tb.weight w ≤ t.weight w) :
    ∃ la lb ps, (List.map Prod.fst ps).Perm ts ∧ lb ≤ la ∧ (∀ p ∈ ps, p.2 ≤ lb) ∧
      kraft (la :: lb :: ps.map Prod.snd) ≤ 1 ∧ placedCost w ((ta, la) :: (tb, lb) :: ps) ≤ c := by
  obtain ⟨ps, hfst, hkraft, hcost⟩ := h
  obtain ⟨la, ps1, hperm1, hfst1⟩ := exists_perm_pair hfst
  obtain ⟨lb, ps2, hperm2, hfst2⟩ := exists_perm_pair hfst1
  have hperm := hperm1.trans (hperm2.cons _)
  rw [placedCost_perm w hperm] at hcost
  rw [kraft_perm (hperm.map _)] at hkraft
  have hmin2 {l : List (Tree × Nat)} (hl : l.map Prod.fst = ps2.map Prod.fst) (p : Tree × Nat) (hp : p ∈ l) :
      tb.weight w ≤ p.1.weight w := hmin _ (hfst2.mem_iff.mp (hl ▸ List.mem_map_of_mem hp))
  obtain ⟨la', psA, hfstA, hsndA, _, hmaxA, hcostA⟩ :=
    exists_greatest_length w (v := ta.weight w) la (ps := (tb, lb) :: ps2) fun p hp => by
      obtain rfl | hp := List.mem_cons.mp hp
      · exact hab
      · exact hab.trans (hmin2 rfl p hp)
  obtain ⟨⟨t, lb1⟩, psB, rfl, hhead, hfstB⟩ := List.map_eq_cons_iff.mp hfstA
  have ht : tb = t := hhead.symm
  subst ht
  obtain ⟨lb', psC, hfstC, hsndC, _, hmaxC, hcostC⟩ :=
    exists_greatest_length w (v := tb.weight w) lb1 (ps := psB) (hmin2 hfstB)
  refine ⟨la', lb', psC, (hfstC.trans hfstB) ▸ hfst2, ?lower, hmaxC, ?kraft, ?cost⟩
  case lower =>
    have hlb' : lb' ∈ ((tb, lb1) :: psB).map Prod.snd := hsndC.mem_iff.mp List.mem_cons_self
    obtain ⟨p, hp, hsnd⟩ := List.mem_map.mp hlb'
    exact hsnd ▸ hmaxA p hp
  case kraft => rwa [kraft_perm ((hsndC.cons la').trans hsndA)]
  case cost =>
    simp only [placedCost_cons] at hcost hcostA ⊢
    omega

/-- Two trees of least weight can be made one. -/
theorem Affordable.merge {w : Nat → Nat} {ta tb : Tree} {ts : List Tree} {c : Nat} (h : Affordable w (ta :: tb :: ts) c)
    (hab : ta.weight w ≤ tb.weight w) (hmin : ∀ t ∈ ts, tb.weight w ≤ t.weight w) :
    Affordable w (.fork ta tb :: ts) c := by
  obtain ⟨la, lb, ps, hfst, hle, hmax, hkraft, hcost⟩ := h.greatest_lengths hab hmin
  have hlower := kraft_lower hle (fun l hl => by
    obtain ⟨p, hp, rfl⟩ := List.mem_map.mp hl
    exact hmax p hp) hkraft
  obtain ⟨hpos, hmerged⟩ := kraft_merge hlower
  refine ⟨(.fork ta tb, lb - 1) :: ps, hfst.cons _, hmerged, ?_⟩
  obtain ⟨l, rfl⟩ := Nat.exists_eq_succ_of_ne_zero (Nat.pos_iff_ne_zero.mp hpos)
  have hshorter := Nat.mul_le_mul_left (ta.weight w) hle
  simp only [placedCost_cons, Tree.cost, Tree.weight_fork, Nat.succ_sub_one, Nat.succ_eq_add_one, Nat.add_mul,
    Nat.mul_add, Nat.mul_one] at hcost hshorter ⊢
  omega

theorem Affordable.perm {w : Nat → Nat} {ts ts' : List Tree} {c : Nat} (hperm : ts.Perm ts') (h : Affordable w ts c) :
    Affordable w ts' c := by
  obtain ⟨ps, hfst, hrest⟩ := h
  exact ⟨ps, hfst.trans hperm, hrest⟩

/-- One tree alone costs what it costs. -/
theorem Affordable.cost_le {w : Nat → Nat} {t : Tree} {c : Nat} (h : Affordable w [t] c) : t.cost w ≤ c := by
  obtain ⟨ps, hfst, _, hcost⟩ := h
  obtain ⟨l, ps', hperm, _⟩ := exists_perm_pair hfst
  rw [placedCost_perm w hperm, placedCost_cons] at hcost
  exact (Nat.le_add_right _ _).trans ((Nat.le_add_right _ _).trans hcost)

/-- Lengths for the leaves that meet the Kraft inequality. -/
theorem affordable_leaves {w lengths : Nat → Nat} {l : List Nat}
    (h : (l.map fun i => (1 / 2 : ℚ) ^ lengths i).sum ≤ 1) :
    Affordable w (l.map Tree.leaf) (l.map fun i => w i * lengths i).sum := by
  refine ⟨l.map fun i => (.leaf i, lengths i), by rw [List.map_map]; exact .refl _, ?_, le_of_eq ?_⟩
  · rw [kraft, List.map_map, List.map_map]
    exact h
  · rw [placedCost, List.map_map]
    refine congrArg List.sum (List.map_congr_left fun i _ => ?_)
    simp [Tree.cost, Tree.weight, Tree.leaves]

end Sys2Proof.Machine
end

section
/-! The tree BUILD makes, as a tree: its leaves are the entries, and it costs no more than any code lengths allow
(43_tree.md R140, R144). -/

namespace Sys2Proof.Machine

/-- The count of a byte value, as a weight. -/
def countOf (freq : Table Word 256) (i : Nat) : Nat := (freq.get i).toNat

/-- The structure stands for these trees, one to each of its nodes. -/
structure Grown (freq : Table Word 256) (valid : Table Bool 256) (node : Table Node 511) (q : List QEntry)
    (items : List (QEntry × Tree)) : Prop where
  nodes : (items.map Prod.fst).Perm q
  holds : ∀ p ∈ items, Holds node p.1.idx p.2
  weight : ∀ p ∈ items, p.1.weight.toNat = p.2.weight (countOf freq)
  leaves : (items.flatMap fun p => p.2.leaves).Perm (entries valid)
  affordable : ∀ c, Affordable (countOf freq) ((entries valid).map Tree.leaf) c →
    Affordable (countOf freq) (items.map Prod.snd) c

section
variable {freq : Table Word 256} {valid : Table Bool 256} {node : Table Node 511}

theorem Grown.perm {q q' : List QEntry} {items items' : List (QEntry × Tree)} (h : Grown freq valid node q items)
    (hitems : items.Perm items') (hq : (items'.map Prod.fst).Perm q') : Grown freq valid node q' items' where
  nodes := hq
  holds p hp := h.holds p (hitems.mem_iff.mpr hp)
  weight p hp := h.weight p (hitems.mem_iff.mpr hp)
  leaves := (hitems.flatMap_right _).symm.trans h.leaves
  affordable c hc := (h.affordable c hc).perm (hitems.map _)

/-- Where the loop starts: each entry is a leaf. -/
theorem grown_start : ∃ items, Grown freq valid (placeLeaves (leafEntries freq valid)) (leafEntries freq valid) items := by
  have hidx {i : Nat} (hi : i ∈ entries valid) : (leafEntry freq i).idx.toNat = i :=
    toNat_leafEntry_idx (mem_entries.mp hi).1
  refine ⟨(entries valid).map fun i => (leafEntry freq i, .leaf i), ?nodes, fun p hp => ?holds, fun p hp => ?weight,
    ?leaves, fun c hc => ?affordable⟩
  case nodes => rw [List.map_map, leafEntries_eq_map]; exact .refl _
  case holds =>
    obtain ⟨i, hi, rfl⟩ := List.mem_map.mp hp
    have hleaf := Holds.leaf (node := placeLeaves (leafEntries freq valid)) (i := (leafEntry freq i).idx)
      (by rw [hidx hi]; exact Nat.le_of_lt_succ (mem_entries.mp hi).1)
    rwa [hidx hi] at hleaf
  case weight =>
    obtain ⟨i, hi, rfl⟩ := List.mem_map.mp hp
    rw [toNat_leafEntry_weight, Tree.weight, Tree.leaves, List.map_singleton, List.sum_singleton, countOf]
  case leaves =>
    rw [List.flatMap_map]
    simp only [Tree.leaves, List.flatMap_singleton']
    exact .refl _
  case affordable =>
    rw [List.map_map]
    exact hc

theorem weight_le_of_key_le {a b : QEntry} (h : a.key ≤ b.key) : a.weight.toNat ≤ b.weight.toNat := by
  obtain hlt | heq := h.lt_or_eq
  · rw [QEntry.key_lt_iff] at hlt
    obtain hlt | ⟨heq, _⟩ := hlt
    · exact hlt.le
    · rw [heq]
  · simp only [QEntry.key, EmbeddingLike.apply_eq_iff_eq, Prod.mk.injEq] at heq
    exact heq.1.le

/-- A merge puts two trees of least weight under one root. -/
theorem Grown.merge {a b : QEntry} {rest : List QEntry} {next : Nat} {items : List (QEntry × Tree)}
    (hm : Merging freq valid node (a :: b :: rest) next) (hab : a.key ≤ b.key) (hmin : ∀ e ∈ rest, b.key ≤ e.key)
    (h : Grown freq valid node (a :: b :: rest) items) :
    ∃ items', Grown freq valid (node.set next (mergedNode a b)) (mergedEntry a b next :: rest) items' := by
  obtain ⟨ta, items1, hperm1, hfst1⟩ := exists_perm_pair h.nodes
  obtain ⟨tb, items2, hperm2, hfst2⟩ := exists_perm_pair hfst1
  have hg : Grown freq valid node (a :: b :: rest) ((a, ta) :: (b, tb) :: items2) :=
    h.perm (hperm1.trans (hperm2.cons _)) ((hfst2.cons b).cons a)
  have hta := hg.holds (a, ta) List.mem_cons_self
  have htb := hg.holds (b, tb) (List.mem_cons_of_mem _ List.mem_cons_self)
  have hwa := hg.weight (a, ta) List.mem_cons_self
  have hwb := hg.weight (b, tb) (List.mem_cons_of_mem _ List.mem_cons_self)
  have hmem {p : QEntry × Tree} (hp : p ∈ items2) : p ∈ (a, ta) :: (b, tb) :: items2 :=
    List.mem_cons_of_mem _ (List.mem_cons_of_mem _ hp)
  have hrest {p : QEntry × Tree} (hp : p ∈ items2) : p.1 ∈ rest := hfst2.mem_iff.mp (List.mem_map_of_mem hp)
  have hlta := hm.idx_lt List.mem_cons_self
  have hltb := hm.idx_lt (List.mem_cons_of_mem a List.mem_cons_self)
  refine ⟨(mergedEntry a b next, .fork ta tb) :: items2, hfst2.cons _, fun p hp => ?holds, fun p hp => ?weight, ?leaves,
    fun c hc => ?affordable⟩
  case holds =>
    obtain rfl | hp := List.mem_cons.mp hp
    · have hchild (bit : Bool) : childOf (node.set next (mergedNode a b)) (mergedEntry a b next).idx bit =
          if bit then b.idx else a.idx := by
        rw [childOf, hm.toNat_merged_idx, hm.get_set_next]
        rfl
      refine .fork (by rw [hm.toNat_merged_idx]; exact hm.first) (fun bit => ?_) ?_ ?_
      · rw [hchild, hm.toNat_merged_idx]
        cases bit
        · exact hlta
        · exact hltb
      · rw [hchild]
        exact hta.set hlta _
      · rw [hchild]
        exact htb.set hltb _
    · exact (hg.holds p (hmem hp)).set
        (hm.idx_lt (List.mem_cons_of_mem a (List.mem_cons_of_mem b (hrest hp)))) _
  case weight =>
    obtain rfl | hp := List.mem_cons.mp hp
    · rw [Tree.weight_fork, ← hwa, ← hwb]
      exact hm.toNat_merged_weight
    · exact hg.weight p (hmem hp)
  case leaves =>
    have hleaves := hg.leaves
    simp only [List.flatMap_cons, Tree.leaves, List.append_assoc] at hleaves ⊢
    exact hleaves
  case affordable =>
    refine (hg.affordable c hc).merge ?_ fun t ht => ?_
    · rw [← hwa, ← hwb]
      exact weight_le_of_key_le hab
    · obtain ⟨p, hp, rfl⟩ := List.mem_map.mp ht
      rw [← hwb, ← hg.weight p (hmem hp)]
      exact weight_le_of_key_le (hmin p.1 (hrest hp))

end

/-- The tree BUILD makes of a table that has entries. -/
theorem buildTree_holds {freq : Table Word 256} {valid : Table Bool 256} (hn : 1 ≤ (entries valid).length) :
    ∃ t, Holds (buildTree freq valid).node (buildTree freq valid).root t ∧ t.leaves.Perm (entries valid) ∧
      ∀ c, Affordable (countOf freq) ((entries valid).map Tree.leaf) c → t.cost (countOf freq) ≤ c := by
  obtain ⟨node, r, ⟨_, items, hg⟩, hbuild⟩ := buildTree_induction (freq := freq)
    (P := fun node q next => Merging freq valid node q next ∧ ∃ items, Grown freq valid node q items)
    (fun _ _ _ _ hperm ⟨hm, items, hg⟩ => ⟨hm.perm hperm, items, hg.perm (.refl _) (hg.nodes.trans hperm)⟩)
    (fun _ _ _ _ _ ⟨hm, items, hg⟩ hab hmin => ⟨hm.merge hab hmin, hg.merge hm hab hmin⟩) hn
    ⟨merging_start freq valid, grown_start⟩
  obtain ⟨t, items', hperm, hfst⟩ := exists_perm_pair hg.nodes
  obtain rfl : items' = [] := List.map_eq_nil_iff.mp (List.perm_nil.mp hfst)
  have hg := hg.perm hperm (.refl _)
  have hleaves := hg.leaves
  simp only [List.flatMap_cons, List.flatMap_nil, List.append_nil] at hleaves
  rw [hbuild]
  exact ⟨t, hg.holds (r, t) (List.mem_singleton_self _), hleaves, fun c hc => (hg.affordable c hc).cost_le⟩

theorem buildTree_tkind (freq : Table Word 256) (valid : Table Bool 256) : (buildTree freq valid).tkind =
    if (entries valid).length = 0 then .empty else if (entries valid).length = 1 then .single else .multi := by
  split
  next h => rw [buildTree_of_no_entry (List.length_eq_zero_iff.mp h)]
  next h =>
    obtain ⟨_, _, _, hbuild⟩ := buildTree_merging (freq := freq) (valid := valid) (by omega)
    rw [hbuild]

end Sys2Proof.Machine
end

section
/-! GENCODE in a state whose tree is the tree of its table (44_codetable.md R160 to R164). -/

namespace Sys2Proof.Machine

/-- The MULTI tree of a table, with its entries at the leaves. -/
structure IsTableTree (freq : Table Word 256) (valid : Table Bool 256) (node : Table Node 511) (root : BitVec 9)
    (t : Tree) : Prop where
  inner : 256 ≤ root.toNat
  holds : Holds node root t
  leaves : t.leaves.Perm (entries valid)
  optimal : ∀ c, Affordable (countOf freq) ((entries valid).map Tree.leaf) c → t.cost (countOf freq) ≤ c

theorem isTableTree_buildTree {freq : Table Word 256} {valid : Table Bool 256} (hn : 2 ≤ (entries valid).length) :
    ∃ t, IsTableTree freq valid (buildTree freq valid).node (buildTree freq valid).root t := by
  obtain ⟨t, hholds, hleaves, hoptimal⟩ := buildTree_holds (freq := freq) (valid := valid) (by omega)
  refine ⟨t, ?_, hholds, hleaves, hoptimal⟩
  obtain ⟨_, r, hm, hbuild⟩ := buildTree_merging (freq := freq) (valid := valid) (by omega)
  rw [hbuild, hm.root hn]
  omega

theorem TreeInv.node_root {s : State} (h : TreeInv s) (htree : s.tkind ≠ .none) :
    s.node = (buildTree s.freq s.valid).node ∧ s.root = (buildTree s.freq s.valid).root ∧
      s.tkind = (buildTree s.freq s.valid).tkind := by
  have hbuilt := h.built htree
  exact ⟨congrArg BuiltTree.node hbuilt, congrArg BuiltTree.root hbuilt, congrArg BuiltTree.tkind hbuilt⟩

/-- TKIND tells the number of entries: none, one, or more. -/
theorem TreeInv.tkind_eq {s : State} (h : TreeInv s) (htree : s.tkind ≠ .none) : s.tkind =
    if (entries s.valid).length = 0 then .empty else if (entries s.valid).length = 1 then .single else .multi :=
  (h.node_root htree).2.2.trans (buildTree_tkind s.freq s.valid)

theorem TreeInv.multi {s : State} (h : TreeInv s) (hmulti : s.tkind = .multi) :
    ∃ t, IsTableTree s.freq s.valid s.node s.root t := by
  have htree : s.tkind ≠ .none := by rw [hmulti]; nofun
  obtain ⟨hnode, hroot, _⟩ := h.node_root htree
  have htkind := h.tkind_eq htree
  rw [hmulti] at htkind
  rw [hnode, hroot]
  refine isTableTree_buildTree ?_
  split at htkind
  · cases htkind
  · split at htkind
    · cases htkind
    · omega

theorem TreeInv.single {s : State} (h : TreeInv s) (hsingle : s.tkind = .single) :
    entries s.valid = [s.root.toNat] ∧ s.root.toNat ≤ 255 := by
  have htree : s.tkind ≠ .none := by rw [hsingle]; nofun
  have htkind := h.tkind_eq htree
  rw [hsingle] at htkind
  split at htkind
  · cases htkind
  · split at htkind
    next hone =>
      obtain ⟨a, ha⟩ := List.length_eq_one_iff.mp hone
      obtain ⟨_, hroot, _⟩ := buildTree_single (freq := s.freq) ha
      rw [(h.node_root htree).2.1, hroot]
      have hmem : a ∈ entries s.valid := ha ▸ List.mem_singleton_self a
      exact ⟨ha, Nat.le_of_lt_succ (mem_entries.mp hmem).1⟩
    · cases htkind

theorem TreeInv.empty {s : State} (h : TreeInv s) (hempty : s.tkind = .empty) : entries s.valid = [] := by
  have htkind := h.tkind_eq (by rw [hempty]; nofun)
  rw [hempty] at htkind
  split at htkind
  next hzero => exact List.length_eq_zero_iff.mp hzero
  · split at htkind <;> cases htkind

section
variable {freq : Table Word 256} {valid : Table Bool 256} {node : Table Node 511} {root : BitVec 9} {t : Tree}
  (h : IsTableTree freq valid node root t)
include h

theorem IsTableTree.nodup : t.leaves.Nodup := h.leaves.nodup_iff.mpr (nodup_entries valid)

theorem IsTableTree.mem_entries_iff {s : Nat} : s ∈ entries valid ↔ ∃ p, Reaches node root p s := by
  rw [← h.leaves.mem_iff, h.holds.mem_leaves_iff]

/-- No tree of at most 256 leaves is deeper than 255 levels. -/
theorem IsTableTree.length_le {p : List Bool} {s : Nat} (hr : Reaches node root p s) : p.length ≤ 255 := by
  have hlt := h.holds.length_lt hr
  have hle := length_entries_le valid
  rw [h.leaves.length_eq] at hlt
  omega

/-- The code of an entry is the one way that leads to it. -/
theorem IsTableTree.code_eq {tkind : TKind} (htree : tkind ≠ .empty) {p : List Bool} {s : Nat}
    (hr : Reaches node root p s) : (genCodes tkind root node).get s = p :=
  h.holds.unique h.nodup (code_of_reaches htree h.inner hr (h.length_le hr)) hr

theorem IsTableTree.code_reaches {tkind : TKind} (htree : tkind ≠ .empty) {s : Nat} (hs : s ∈ entries valid) :
    Reaches node root ((genCodes tkind root node).get s) s := by
  obtain ⟨p, hr⟩ := h.mem_entries_iff.mp hs
  rwa [h.code_eq htree hr]

theorem IsTableTree.code_ne_nil_iff {tkind : TKind} (htree : tkind ≠ .empty) {s : Nat} (hs : s < 256) :
    (genCodes tkind root node).get s ≠ [] ↔ s ∈ entries valid := by
  constructor
  · exact fun hcode => h.mem_entries_iff.mpr ⟨_, reaches_of_code htree h.inner hs hcode⟩
  · exact fun hmem => (h.code_reaches htree hmem).ne_nil (isLeafIndex_eq_false h.inner)

theorem IsTableTree.length_code {tkind : TKind} (htree : tkind ≠ .empty) (p : List Bool) (s : Nat)
    (hr : Reaches node root p s) : ((genCodes tkind root node).get s).length = 0 + p.length := by
  rw [h.code_eq htree hr, Nat.zero_add]

end

theorem toNat_setWidth_byte (sym : BitVec 8) : (sym.setWidth 9).toNat = sym.toNat := by
  rw [BitVec.toNat_setWidth]
  exact Nat.mod_eq_of_lt (sym.isLt.trans (by decide))

/-- A way to a leaf, in the claims' terms. -/
theorem isPath_byte_iff {node : Table Node 511} {root : BitVec 9} (hroot : 256 ≤ root.toNat) {p : List Bool}
    (sym : BitVec 8) : IsPath node root p (sym.setWidth 9) ↔ Reaches node root p sym.toNat := by
  rw [isPath_iff_reaches (isLeafIndex_eq_false hroot), toNat_setWidth_byte]

theorem mem_entries_byte {valid : Table Bool 256} (sym : BitVec 8) :
    sym.toNat ∈ entries valid ↔ valid.get sym.toNat = true :=
  mem_entries.trans (and_iff_right sym.isLt)

/-- In a state whose tree is that of its table, the byte values with a code are the entries. -/
theorem code_ne_nil_iff {s : State} (h : TreeInv s) (htree : s.tkind ≠ .none) {i : Nat} (hi : i < 256) :
    (genCodes s.tkind s.root s.node).get i ≠ [] ↔ i ∈ entries s.valid := by
  cases htkind : s.tkind with
  | none => exact absurd htkind htree
  | empty =>
    rw [h.empty htkind, genCodes_empty, get_blankCodes hi]
    exact iff_of_false (fun hne => hne rfl) List.not_mem_nil
  | single =>
    obtain ⟨hentries, hroot⟩ := h.single htkind
    rw [hentries, List.mem_singleton, get_genCodes_leaf (by nofun) hroot s.node hi]
    split
    next heq => exact iff_of_true (List.cons_ne_nil _ _) heq
    next hne => exact iff_of_false (fun hnil => hnil rfl) hne
  | multi =>
    obtain ⟨t, ht⟩ := h.multi htkind
    exact ht.code_ne_nil_iff (by nofun) hi

/-- Settles O30: the leaves of the tree are the entries, and the walk gives each leaf a code. -/
theorem gencodeCoversExactlyTheEntries : Obligations.GencodeCoversExactlyTheEntries := by
  unfold Obligations.GencodeCoversExactlyTheEntries
  intro s t hinv htree h sym hsym
  rw [code_of_gencode htree h, Nat.one_le_iff_ne_zero, Ne, List.length_eq_zero_iff, ← Ne,
    code_ne_nil_iff hinv htree hsym, mem_entries]
  exact and_iff_right hsym

/-- Settles O29: what the walk gives under each kind of root, and under the tree of the table the one way to each
entry. -/
theorem gencodeGivesEachLeafItsPath : Obligations.GencodeGivesEachLeafItsPath := by
  unfold Obligations.GencodeGivesEachLeafItsPath
  intro s htree
  refine ⟨_, exec_gencode htree, complete_completedOk rfl rfl rfl, rfl, fun hempty sym hsym => ?empty,
    fun hne hroot sym hsym => get_genCodes_leaf hne hroot s.node hsym, fun hne hroot sym hcode => ?path,
    fun hne hroot sym path hlen hpath => ?covers, fun hinv hmulti sym => ⟨fun hvalid => ?entry, fun hvalid => ?other⟩,
    ?operands, ?table, ?tree, ?res, rfl, ?packLength, rfl, rfl, fun _ => rfl, ?rest⟩
  case empty => rw [complete_code, hempty, genCodes_empty, get_blankCodes hsym]
  case path => exact (isPath_byte_iff hroot sym).mpr (reaches_of_code hne hroot sym.isLt hcode)
  case covers => exact code_ne_nil_of_reaches hne hroot ((isPath_byte_iff hroot sym).mp hpath) hlen
  case entry =>
    obtain ⟨t, ht⟩ := hinv.multi hmulti
    have hne : s.tkind ≠ .empty := by rw [hmulti]; nofun
    exact (isPath_byte_iff ht.inner sym).mpr (ht.code_reaches hne ((mem_entries_byte sym).mpr hvalid))
  case other =>
    by_contra hcode
    have hmem := (code_ne_nil_iff hinv htree sym.isLt).mp hcode
    rw [mem_entries_byte, hvalid] at hmem
    cases hmem
  all_goals constructor <;> rfl

/-- Settles O32: the codes of the entries are the ways to the leaves of one tree. -/
theorem codesAreComplete : Obligations.CodesAreComplete := by
  unfold Obligations.CodesAreComplete
  intro s t hinv hmulti h
  have htree : s.tkind ≠ .none := by rw [hmulti]; nofun
  have hne : s.tkind ≠ .empty := by rw [hmulti]; nofun
  obtain ⟨tree, ht⟩ := hinv.multi hmulti
  have hfilter : ((List.range 256).filter fun i => decide ((genCodes s.tkind s.root s.node).get i ≠ [])) =
      entries s.valid := by
    refine List.filter_congr fun i hi => ?_
    have hi := List.mem_range.mp hi
    rw [Bool.eq_iff_iff, decide_eq_true_eq, code_ne_nil_iff hinv htree hi, mem_entries]
    exact and_iff_right hi
  rw [code_of_gencode htree h, hfilter, ← (ht.leaves.map _).sum_eq]
  exact (ht.holds.sum_half_pow _ 0 (ht.length_code hne)).trans (pow_zero _)

/-- Settles O27: the codes cost what the tree costs, and the tree no more than lengths that meet the Kraft
inequality. -/
theorem codesAreOptimal : Obligations.CodesAreOptimal := by
  unfold Obligations.CodesAreOptimal
  intro s t u hn hbuild hgencode lengths hkraft
  obtain ⟨tree, ht⟩ := isTableTree_buildTree (freq := s.freq) hn
  rw [exec_build] at hbuild
  cases hbuild
  have hne := buildTree_tkind_ne_none s.freq s.valid
  have hempty : (buildTree s.freq s.valid).tkind ≠ .empty := by
    rw [buildTree_tkind, if_neg (by omega)]
    split <;> nofun
  have hcode : u.code = genCodes (buildTree s.freq s.valid).tkind (buildTree s.freq s.valid).root
      (buildTree s.freq s.valid).node := code_of_gencode hne hgencode
  have hcost := ht.holds.sum_mul_length (countOf s.freq) (fun i => (u.code.get i).length) 0
    (hcode ▸ ht.length_code hempty)
  rw [(ht.leaves.map _).sum_eq, Nat.zero_mul, Nat.zero_add] at hcost
  calc ((entries s.valid).map fun i => (s.freq.get i).toNat * (u.code.get i).length).sum
      = tree.cost (countOf s.freq) := hcost
    _ ≤ ((entries s.valid).map fun i => (s.freq.get i).toNat * lengths i).sum :=
        ht.optimal _ (affordable_leaves hkraft)

end Sys2Proof.Machine
end

section
/-! UNPACK's walk over a stream of paths, and what UNPACK writes (45_bitpack.md R171; 60_exceptions.md R208, R209). -/

namespace Sys2Proof.Machine

section
variable {node : Table Node 511} {root : BitVec 9}

theorem decodeWalk_leaf {cur : BitVec 9} {b : Bool} (h : isLeafIndex (childOf node cur b) = true) (rest : List Bool) :
    decodeWalk node root cur (b :: rest) = ((decodeWalk node root root rest).1,
      (childOf node cur b).setWidth 8 :: (decodeWalk node root root rest).2) := if_pos h

theorem decodeWalk_inner {cur : BitVec 9} {b : Bool} (h : isLeafIndex (childOf node cur b) = false)
    (rest : List Bool) : decodeWalk node root cur (b :: rest) = decodeWalk node root (childOf node cur b) rest :=
  if_neg (ne_true_of_eq_false h)

/-- A leaf's index is the byte value it stands for. -/
theorem setWidth_leaf_eq {i : BitVec 9} {sym : Byte} (hleaf : isLeafIndex i = true) (h : sym.toNat = i.toNat) :
    i.setWidth 8 = sym :=
  BitVec.eq_of_toNat_eq ((toNat_setWidth_leaf (of_decide_eq_true hleaf)).trans h.symm)

/-- A way to a leaf makes the walk write that leaf's byte value and start again at the root. -/
theorem decodeWalk_way {cur : BitVec 9} {b : Bool} {p : List Bool} {sym : Byte}
    (h : Reaches node (childOf node cur b) p sym.toNat) (rest : List Bool) :
    decodeWalk node root cur (b :: (p ++ rest)) =
      ((decodeWalk node root root rest).1, sym :: (decodeWalk node root root rest).2) := by
  induction p generalizing cur b with
  | nil =>
    obtain ⟨hsym, (hleaf : isLeafIndex (childOf node cur b) = true), _⟩ := reaches_iff.mp h
    rw [List.nil_append, decodeWalk_leaf hleaf, setWidth_leaf_eq hleaf hsym.symm]
  | cons b' p ih =>
    cases h with
    | step hinner hr => rw [List.cons_append, decodeWalk_inner hinner, ih hr]

theorem decodeWalk_paths {paths : List (List Bool)} {out : List Byte}
    (h : List.Forall₂ (fun p (b : Byte) => IsPath node root p (b.setWidth 9)) paths out) (rest : List Bool) :
    decodeWalk node root root (paths.flatten ++ rest) =
      ((decodeWalk node root root rest).1, out ++ (decodeWalk node root root rest).2) := by
  induction h with
  | nil => rfl
  | @cons p sym paths out hp _ ih =>
    cases p with
    | nil => exact absurd rfl hp.moves
    | cons b p =>
      rw [isPath_cons_iff, toNat_setWidth_byte] at hp
      rw [List.flatten_cons, List.append_assoc, List.cons_append, decodeWalk_way hp, ih]
      rfl

/-- A stream that ends before it reaches a leaf writes nothing and ends where it leads. -/
theorem decodeWalk_no_leaf {cur : BitVec 9} {tail : List Bool}
    (h : ∀ k, 0 < k → k ≤ tail.length → isLeafIndex (follow node cur (tail.take k)) = false) :
    decodeWalk node root cur tail = (follow node cur tail, []) := by
  induction tail generalizing cur with
  | nil => rfl
  | cons b tail ih =>
    rw [decodeWalk_inner (h 1 Nat.one_pos (Nat.succ_pos _)), follow_cons]
    exact ih fun k _ hk => h (k + 1) (Nat.succ_pos k) (Nat.succ_le_succ hk)

theorem decodeStream_multi (bits : List Bool) : decodeStream .multi root node bits =
    if (decodeWalk node root root bits).1 = root then .ok (decodeWalk node root root bits).2 else .error 5 := rfl

theorem decodeStream_paths {paths : List (List Bool)} {out : List Byte}
    (h : List.Forall₂ (fun p (b : Byte) => IsPath node root p (b.setWidth 9)) paths out) :
    decodeStream .multi root node paths.flatten = .ok out := by
  have hwalk := decodeWalk_paths h []
  rw [List.append_nil, decodeWalk, List.append_nil] at hwalk
  rw [decodeStream_multi, hwalk, if_pos rfl]

end

section
variable {s : State} (hr : ReachesWindows s .unpack) (hs : SourceReady s) (hd : DestReady s) (hwf : s.mem.wf = true)
include hr hs hd hwf

/-- UNPACK of a stream that decodes to no more bytes than its window holds. -/
theorem exec_unpack_writes {out : List Byte}
    (h : decodeStream s.tkind s.root s.node (remainingStream s) = .ok out) (hcap : out.length ≤ s.latched.dcap.toNat) :
    ∃ t, exec .unpack s = .next t ∧ CompletedOk s t ∧ t.outlen.toNat = out.length ∧
      (∀ k (h : k < out.length), t.mem.read (s.latched.dst.toNat + k) = out[k]) ∧
      SameBytesOutside s.latched.dst.toNat out.length s t ∧
      SameOperands s t ∧ SameTable s t ∧ SameTree s t ∧ SameCodes s t ∧ SameRes s t ∧ SamePackLength s t ∧
      t.ent = s.ent ∧ t.codew = s.codew ∧ SameRest s t := by
  refine ⟨_, exec_unpack_decoded hr hs hd h hcap, complete_completedOk rfl rfl rfl, toNat_ofNat_of_le_dcap hcap,
    fun k hk => ?bytes, fun a ha => ?outside,
    ?operands, ?table, ?tree, ?codes, ?res, ?packLength, rfl, rfl, ?rest⟩
  case bytes =>
    have hinMem := hd.inMem
    rw [complete_mem]
    exact Memory.read_writeBytes_inside hwf _ _ k hk (by rw [Config.memBytes]; omega)
  case outside => exact Memory.read_writeBytes_outside _ _ _ (by omega)
  all_goals constructor <;> rfl

end

/-- Settles O36: path after path the walk writes a byte and comes back to the root, and what is left of the stream leads
to the node it ends at. -/
theorem unpackDecodesPaths : Obligations.UnpackDecodesPaths := by
  unfold Obligations.UnpackDecodesPaths
  intro s paths out hwf hmulti hpad hbits hs hd hpaths
  have hr : ReachesWindows s .unpack := ⟨by rw [hmulti]; nofun, hpad, hbits⟩
  have hdecoded (hstream : remainingStream s = paths.flatten) :
      decodeStream s.tkind s.root s.node (remainingStream s) = .ok out := by
    rw [hmulti, hstream, decodeStream_paths hpaths]
  refine ⟨fun hstream hcap => exec_unpack_writes hr hs hd hwf (hdecoded hstream) hcap,
    fun hstream hcap => ⟨_, exec_unpack_overflow hr hs hd (hdecoded hstream) hcap, raise_faultedWith .dstovf _ s⟩,
    fun tail hstream hnoLeaf hend => ⟨_, exec_unpack_malformed hr hs hd ?_, raise_faultedWith .malformed 5 s⟩⟩
  rw [hmulti, hstream, decodeStream_multi, decodeWalk_paths hpaths, decodeWalk_no_leaf hnoLeaf]
  exact if_neg hend

theorem decodeStream_empty (root : BitVec 9) (node : Table Node 511) (bits : List Bool) :
    decodeStream .empty root node bits = if bits = [] then .ok [] else .error 3 := rfl

theorem remainingStream_eq_nil_iff {s : State} : remainingStream s = [] ↔ remainingCount s = 0 := by
  rw [← length_remainingStream, List.length_eq_zero_iff]

/-- Settles O38: the two checks of PADIN come before the windows, and an EMPTY tree decodes only the empty stream. -/
theorem unpackChecksPaddingAndEmptyTree : Obligations.UnpackChecksPaddingAndEmptyTree := by
  unfold Obligations.UnpackChecksPaddingAndEmptyTree
  refine ⟨fun s htree hpad => ⟨_, ?above7, raise_faultedWith .malformed 1 s⟩,
    fun s htree hpad hbits => ⟨_, ?aboveStream, raise_faultedWith .malformed 2 s⟩,
    fun s hempty hpad hbits hs hd => ⟨_, exec_unpack_malformed ⟨?tree, hpad, hbits.le⟩ hs hd ?bits,
      raise_faultedWith .malformed 3 s⟩, fun s hempty hpadin hlen hs hd => ?nothing⟩
  case above7 => simp only [exec, execUnpack, htree, gt_iff_lt, hpad, if_true, if_false, faulting]
  case aboveStream =>
    simp only [exec, execUnpack, htree, gt_iff_lt, Nat.not_lt.mpr hpad, hbits, if_true, if_false, faulting]
  case tree => rw [hempty]; nofun
  case bits =>
    have hcount : remainingCount s ≠ 0 := by rw [remainingCount]; omega
    rw [hempty, decodeStream_empty, if_neg (mt remainingStream_eq_nil_iff.mp hcount)]
  case nothing =>
    have hpad : s.latched.padin.toNat = 0 := by rw [hpadin]; rfl
    have hcount : remainingCount s = 0 := by rw [remainingCount, hlen]; exact Nat.zero_sub _
    have hdecoded : decodeStream s.tkind s.root s.node (remainingStream s) = .ok [] := by
      rw [hempty, decodeStream_empty, if_pos (remainingStream_eq_nil_iff.mpr hcount)]
    have hr : ReachesWindows s .unpack := ⟨by rw [hempty]; nofun, by omega, by omega⟩
    exact ⟨_, exec_unpack_decoded hr hs hd hdecoded (Nat.zero_le _), complete_completedOk rfl rfl rfl, rfl, fun _ => rfl⟩

end Sys2Proof.Machine
end

section
/-! PACK of a covered buffer: the bits it writes (45_bitpack.md R170). -/

namespace Sys2Proof.Machine

theorem codeString_sourceBytes (s : State) : codeString s.code (sourceBytes s) = codeStream s := by
  rw [codeString, sourceBytes_eq_map, codeStream, List.flatMap_def, List.map_map]
  rfl

/-- The payload's bits are the codes and the padding. -/
theorem unpackBits_payload (code : Table Code 256) (bytes : List Byte) : unpackBits (payload code bytes) =
    codeString code bytes ++ List.replicate (padCount (totalBits code bytes)) false :=
  (unpackBits_packBytes _ _ (length_padded code bytes)).1

/-- The stream at an address where bytes were written. -/
theorem streamBit_writeBytes {m : Memory} (hwf : m.wf = true) {base : Nat} {bs : List Byte}
    (hend : base + bs.length ≤ Config.memBytes) {p : Nat} (hp : p < 8 * bs.length) :
    streamBit (m.writeBytes base bs) base p = (unpackBits bs).getD p false := by
  have hbyte : p / 8 < bs.length := by omega
  have hbit : p < (unpackBits bs).length := by rwa [length_unpackBits]
  rw [streamBit, Memory.read_writeBytes_inside hwf _ _ _ hbyte hend, List.getD_eq_getElem _ _ hbit,
    getElem_unpackBits _ _ hbit hbyte]

theorem totalBits_le {code : Table Code 256} (h : ∀ i, i < 256 → (code.get i).length ≤ 255) (bytes : List Byte) :
    totalBits code bytes ≤ bytes.length * 255 := by
  rw [totalBits, ← List.length_map (f := fun b => (codeOf code b).length), ← smul_eq_mul]
  refine List.sum_le_card_nsmul _ _ fun l hl => ?_
  obtain ⟨b, _, rfl⟩ := List.mem_map.mp hl
  exact h b.toNat b.isLt

/-- BITLEN holds the bit count of any buffer: 2^32 codes of 255 bits do not fill its 40 bits. -/
theorem bitlen_of_split {t : State} {n : Nat} (hlo : t.bitlenLo = BitVec.ofNat 32 n)
    (hhi : t.bitlenHi = BitVec.ofNat 8 (n / 2 ^ 32)) (hn : n < 2 ^ 40) : t.bitlen = n := by
  rw [State.bitlen, hlo, hhi, BitVec.toNat_ofNat, BitVec.toNat_ofNat]
  omega

theorem toNat_padCount (n : Nat) : (BitVec.ofNat 3 (padCount n)).toNat = padCount n :=
  Nat.mod_eq_of_lt (Nat.mod_lt _ (by decide))

theorem exec_pack_packed {s : State} (hv : s.codeV = true) (hs : SourceReady s) (hd : DestReady s)
    (h : firstUncoded s.code (sourceBytes s) = none)
    (hcap : byteCount (totalBits s.code (sourceBytes s)) ≤ s.latched.dcap.toNat) :
    exec .pack s = .next (complete { s with
      mem := s.mem.writeBytes s.latched.dst.toNat (payload s.code (sourceBytes s))
      outlen := BitVec.ofNat 32 (byteCount (totalBits s.code (sourceBytes s)))
      pad := BitVec.ofNat 3 (padCount (totalBits s.code (sourceBytes s)))
      bitlenLo := BitVec.ofNat 32 (totalBits s.code (sourceBytes s))
      bitlenHi := BitVec.ofNat 8 (totalBits s.code (sourceBytes s) / 2 ^ 32) }) := by
  simp only [exec, execPack, hv, Bool.true_eq_false, if_false, checkWindows_both_none.mpr ⟨hs, hd⟩, h,
    gt_iff_lt, Nat.not_lt.mpr hcap]

/-- What PACK writes ends inside MEM. -/
theorem payload_inMem {s : State} (hd : DestReady s)
    (hcap : byteCount (totalBits s.code (sourceBytes s)) ≤ s.latched.dcap.toNat) :
    s.latched.dst.toNat + (payload s.code (sourceBytes s)).length ≤ Config.memBytes := by
  have hinMem := hd.inMem
  rw [length_payload, Config.memBytes]
  omega

/-- Settles O34: the bytes written unpack to the codes and the padding. -/
theorem packWritesThePayload : Obligations.PackWritesThePayload := by
  unfold Obligations.PackWritesThePayload
  intro s hcodes hwf hv hs hd hcovered hcap
  rw [← byteCount_eq, ← totalBits_sourceBytes] at hcap
  have hshort : totalBits s.code (sourceBytes s) < 2 ^ 40 := by
    have hle := totalBits_le hcodes (sourceBytes s)
    have hlen := length_sourceBytes_lt s
    omega
  have houtlen := toNat_ofNat_of_le_dcap hcap
  have hpad := toNat_padCount (totalBits s.code (sourceBytes s))
  refine ⟨_, exec_pack_packed hv hs hd (firstUncoded_eq_none hcovered) hcap, complete_completedOk rfl rfl rfl,
    ?outlen, ?bitlen, ?pad, ?whole, fun p hp => ?bits, fun a ha => ?outside,
    ?operands, ?table, ?tree, ?codes, ?res, rfl, rfl, ?rest⟩
  case outlen => rw [complete_outlen, houtlen, byteCount_eq, totalBits_sourceBytes]
  case bitlen => rw [bitlen_of_split rfl rfl hshort, totalBits_sourceBytes]
  case pad => rw [complete_pad, hpad, padCount, totalBits_sourceBytes]
  case whole => rw [bitlen_of_split rfl rfl hshort, complete_pad, complete_outlen, hpad, houtlen, eight_mul_byteCount]
  case bits =>
    rw [complete_outlen, houtlen, ← length_payload] at hp
    rw [complete_mem, streamBit_writeBytes hwf (payload_inMem hd hcap) hp, unpackBits_payload, getD_append_zeros,
      codeString_sourceBytes]
  case outside =>
    rw [complete_outlen, houtlen, ← length_payload] at ha
    rw [complete_mem]
    exact Memory.read_writeBytes_outside _ _ _ (by omega)
  all_goals constructor <;> rfl

end Sys2Proof.Machine
end

section
/-! PACK and UNPACK under the tree of a table invert each other (45_bitpack.md R173, R174). -/

namespace Sys2Proof.Machine

/-! ### From codes to bytes -/

theorem codeString_eq_flatten (code : Table Code 256) (bytes : List Byte) :
    codeString code bytes = (bytes.map (codeOf code)).flatten := List.flatMap_def

/-- The codes of entries are paths to their leaves. -/
theorem IsTableTree.forall₂_isPath {freq : Table Word 256} {valid : Table Bool 256} {node : Table Node 511}
    {root : BitVec 9} {t : Tree} (h : IsTableTree freq valid node root t) {tkind : TKind} (htree : tkind ≠ .empty)
    {bytes : List Byte} (hbytes : ∀ b ∈ bytes, b.toNat ∈ entries valid) :
    List.Forall₂ (fun p (b : Byte) => IsPath node root p (b.setWidth 9))
      (bytes.map (codeOf (genCodes tkind root node))) bytes := by
  rw [List.forall₂_map_left_iff, List.forall₂_same]
  exact fun b hb => (isPath_byte_iff h.inner b).mpr (h.code_reaches htree (hbytes b hb))

/-- Under a SINGLE tree every buffer of entries is copies of the root, and its codes are zeros. -/
theorem TreeInv.single_buffer {s : State} (h : TreeInv s) (hsingle : s.tkind = .single) {bytes : List Byte}
    (hbytes : ∀ b ∈ bytes, b.toNat ∈ entries s.valid) :
    bytes = List.replicate bytes.length (s.root.setWidth 8) ∧
      codeString (genCodes .single s.root s.node) bytes = List.replicate bytes.length false := by
  obtain ⟨hentries, hroot⟩ := h.single hsingle
  have hbyte {b : Byte} (hb : b ∈ bytes) : b.toNat = s.root.toNat :=
    List.mem_singleton.mp (hentries ▸ hbytes b hb)
  have hcode {b : Byte} (hb : b ∈ bytes) : codeOf (genCodes .single s.root s.node) b = [false] := by
    rw [codeOf, get_genCodes_leaf (by nofun) hroot s.node b.isLt, if_pos (hbyte hb)]
  constructor
  · exact List.eq_replicate_of_mem fun b hb => (setWidth_leaf_eq (decide_eq_true hroot) (hbyte hb)).symm
  · rw [codeString, List.flatMap_congr fun b hb => hcode hb]
    exact (List.flatMap_pure_eq_map (fun _ => false) bytes).trans List.map_const'

/-- Decoding the codes of a buffer of entries gives the buffer back. -/
theorem decodeStream_codeString {s : State} (h : TreeInv s) (htree : s.tkind ≠ .none) {bytes : List Byte}
    (hbytes : ∀ b ∈ bytes, b.toNat ∈ entries s.valid) :
    decodeStream s.tkind s.root s.node (codeString (genCodes s.tkind s.root s.node) bytes) = .ok bytes := by
  cases htkind : s.tkind with
  | none => exact absurd htkind htree
  | empty =>
    rw [h.empty htkind] at hbytes
    obtain rfl : bytes = [] := List.eq_nil_iff_forall_not_mem.mpr fun b hb => List.not_mem_nil (hbytes b hb)
    rfl
  | single =>
    obtain ⟨hroots, hzeros⟩ := h.single_buffer htkind hbytes
    have hno : true ∉ List.replicate bytes.length false := fun hmem =>
      Bool.false_ne_true (List.eq_of_mem_replicate hmem).symm
    rw [hzeros, decodeStream_single_zeros _ _ hno, List.length_replicate, ← hroots]
  | multi =>
    obtain ⟨t, ht⟩ := h.multi htkind
    rw [codeString_eq_flatten, decodeStream_paths (ht.forall₂_isPath (by nofun) hbytes)]

/-! ### From bytes to codes -/

theorem Holds.child {node : Table Node 511} {i : BitVec 9} {t : Tree} (h : Holds node i t)
    (hinner : isLeafIndex i = false) (b : Bool) :
    ∃ t', Holds node (childOf node i b) t' ∧ (childOf node i b).toNat < i.toNat := by
  cases h with
  | leaf hleaf => exact absurd hleaf (of_decide_eq_false hinner)
  | fork _ hlt hl hr =>
    cases b with
    | false => exact ⟨_, hl, hlt false⟩
    | true => exact ⟨_, hr, hlt true⟩

/-- A walk in a tree that ends at the tree's root has read nothing, or has first read a way to a leaf. -/
theorem decodeWalk_inv {node : Table Node 511} {root cur : BitVec 9} {t : Tree} (ht : Holds node cur t)
    (hinner : isLeafIndex cur = false) (hle : cur.toNat ≤ root.toNat) {bits : List Bool} {out : List Byte}
    (h : decodeWalk node root cur bits = (root, out)) :
    (bits = [] ∧ out = [] ∧ cur = root) ∨ ∃ p rest sym out', bits = p ++ rest ∧ out = sym :: out' ∧
      Reaches node cur p sym.toNat ∧ decodeWalk node root root rest = (root, out') := by
  induction bits generalizing cur t with
  | nil =>
    obtain ⟨hcur, hout⟩ := Prod.mk.inj h
    exact .inl ⟨rfl, hout.symm, hcur⟩
  | cons b bits ih =>
    right
    cases hleaf : isLeafIndex (childOf node cur b) with
    | true =>
      rw [decodeWalk_leaf hleaf] at h
      obtain ⟨hend, rfl⟩ := Prod.mk.inj h
      refine ⟨[b], bits, _, _, rfl, rfl, .step hinner ?_, Prod.ext hend rfl⟩
      rw [toNat_setWidth_leaf (of_decide_eq_true hleaf)]
      exact .leaf hleaf
    | false =>
      rw [decodeWalk_inner hleaf] at h
      obtain ⟨t', hchild, hlt⟩ := ht.child hinner b
      obtain ⟨_, _, heq⟩ | ⟨p, rest, sym, out', rfl, hout, hreach, hrest⟩ := ih hchild hleaf (by omega) h
      · exact absurd (congrArg BitVec.toNat heq) (by omega)
      · exact ⟨b :: p, rest, sym, out', rfl, hout, .step hinner hreach, hrest⟩

/-- A walk of the table's tree that ends at the root has read the codes of the bytes it wrote. -/
theorem IsTableTree.codeString_of_decodeWalk {freq : Table Word 256} {valid : Table Bool 256} {node : Table Node 511}
    {root : BitVec 9} {t : Tree} (h : IsTableTree freq valid node root t) {tkind : TKind} (htree : tkind ≠ .empty)
    {bits : List Bool} {out : List Byte} (hwalk : decodeWalk node root root bits = (root, out)) :
    codeString (genCodes tkind root node) out = bits ∧ ∀ b ∈ out, b.toNat ∈ entries valid := by
  induction out generalizing bits with
  | nil =>
    obtain ⟨rfl, _⟩ | ⟨_, _, _, _, _, hout, _⟩ := decodeWalk_inv h.holds (isLeafIndex_eq_false h.inner) le_rfl hwalk
    · exact ⟨rfl, nofun⟩
    · cases hout
  | cons sym out ih =>
    obtain ⟨_, hout, _⟩ | ⟨p, rest, _, _, rfl, hout, hreach, hrest⟩ :=
      decodeWalk_inv h.holds (isLeafIndex_eq_false h.inner) le_rfl hwalk
    · cases hout
    · obtain ⟨rfl, rfl⟩ := List.cons.inj hout
      obtain ⟨hcodes, hentries⟩ := ih hrest
      constructor
      · rw [codeString, List.flatMap_cons, codeOf, h.code_eq htree hreach]
        exact congrArg (p ++ ·) hcodes
      · exact List.forall_mem_cons.mpr ⟨h.mem_entries_iff.mpr ⟨p, hreach⟩, hentries⟩

/-- A stream that decodes is the codes of the bytes it decodes to. -/
theorem codeString_of_decodeStream {s : State} (h : TreeInv s) (htree : s.tkind ≠ .none) {bits : List Bool}
    {out : List Byte} (hdecoded : decodeStream s.tkind s.root s.node bits = .ok out) :
    codeString (genCodes s.tkind s.root s.node) out = bits ∧ ∀ b ∈ out, b.toNat ∈ entries s.valid := by
  cases htkind : s.tkind with
  | none => exact absurd htkind htree
  | empty =>
    rw [htkind, decodeStream_empty] at hdecoded
    split at hdecoded <;> cases hdecoded
    next hnil => exact ⟨hnil.symm, nofun⟩
  | single =>
    rw [htkind] at hdecoded
    obtain hone | hno := em (true ∈ bits)
    · rw [decodeStream_single_one _ _ hone] at hdecoded
      cases hdecoded
    · rw [decodeStream_single_zeros _ _ hno] at hdecoded
      cases hdecoded
      obtain ⟨hentries, hroot⟩ := h.single htkind
      have hmem : ∀ b ∈ List.replicate bits.length (s.root.setWidth 8), b.toNat ∈ entries s.valid := fun b hb => by
        rw [List.eq_of_mem_replicate hb, toNat_setWidth_leaf hroot, hentries]
        exact List.mem_singleton_self _
      refine ⟨?_, hmem⟩
      rw [(h.single_buffer htkind hmem).2, List.length_replicate]
      exact (List.eq_replicate_of_mem fun b hb => Bool.eq_false_iff.mpr fun htrue => hno (htrue ▸ hb)).symm
  | multi =>
    obtain ⟨t, ht⟩ := h.multi htkind
    rw [htkind, decodeStream_multi] at hdecoded
    split at hdecoded <;> cases hdecoded
    next hend => exact ht.codeString_of_decodeWalk (by nofun) (Prod.ext hend rfl)

/-! ### The two round trips -/

theorem getElem_sourceBytes {s : State} {k : Nat} (hk : k < (sourceBytes s).length) :
    (sourceBytes s)[k] = sourceByte s k := Memory.getElem_readBytes _ _ _ _ _

/-- A source window over bytes another command wrote holds those bytes. -/
theorem sourceBytes_of_written {u : State} {m : Memory} {base : Nat} {bs : List Byte} (hwf : m.wf = true)
    (hend : base + bs.length ≤ Config.memBytes) (hlen : u.latched.len.toNat = bs.length)
    (h : ∀ k, k < bs.length → sourceByte u k = (m.writeBytes base bs).read (base + k)) : sourceBytes u = bs := by
  refine List.ext_getElem ((length_sourceBytes u).trans hlen) fun k _ hk => ?_
  rw [getElem_sourceBytes, ← Memory.read_writeBytes_inside hwf base bs k hk hend]
  exact h k hk

theorem firstUncoded_eq_none_iff {code : Table Code 256} {bytes : List Byte} :
    firstUncoded code bytes = none ↔ ∀ b ∈ bytes, HasCode code b.toNat := by
  simp only [firstUncoded, List.findIdx?_eq_none_iff, Bool.eq_false_iff, ne_eq, isEmpty_codeOf, not_not]

/-- Under the tree of the table PACK covers exactly the buffers of entries. -/
theorem firstUncoded_genCodes {s : State} (h : TreeInv s) (htree : s.tkind ≠ .none) {bytes : List Byte} :
    firstUncoded (genCodes s.tkind s.root s.node) bytes = none ↔ ∀ b ∈ bytes, b.toNat ∈ entries s.valid := by
  rw [firstUncoded_eq_none_iff]
  exact forall₂_congr fun b _ => code_ne_nil_iff h htree b.isLt

/-- PACK without an error wrote the payload. -/
theorem exec_pack_ok {s t : State} (h : exec .pack s = .next t) (herr : t.err = 0) :
    s.codeV = true ∧ DestReady s ∧ firstUncoded s.code (sourceBytes s) = none ∧
      byteCount (totalBits s.code (sourceBytes s)) ≤ s.latched.dcap.toNat ∧
      t.mem = s.mem.writeBytes s.latched.dst.toNat (payload s.code (sourceBytes s)) ∧
      t.outlen.toNat = byteCount (totalBits s.code (sourceBytes s)) ∧
      t.pad.toNat = padCount (totalBits s.code (sourceBytes s)) := by
  obtain ⟨_, rfl⟩ | ⟨_, _, _, _, rfl⟩ | ⟨_, _, _, _, _, rfl⟩ | ⟨_, _, _, _, _, rfl⟩ | ⟨hv, _, hd, hcovered, hcap, rfl⟩ :=
    execPack_inv h
  · exact absurd herr (raise_err_ne_zero _ _ _)
  · exact absurd herr (raise_err_ne_zero _ _ _)
  · exact absurd herr (raise_err_ne_zero _ _ _)
  · exact absurd herr (raise_err_ne_zero _ _ _)
  · exact ⟨hv, hd, hcovered, hcap, rfl, toNat_ofNat_of_le_dcap hcap, toNat_padCount _⟩

/-- UNPACK without an error wrote what the stream decodes to. -/
theorem exec_unpack_ok {s t : State} (h : exec .unpack s = .next t) (herr : t.err = 0) :
    ReachesWindows s .unpack ∧ DestReady s ∧ ∃ out, decodeStream s.tkind s.root s.node (remainingBits s) = .ok out ∧
      out.length ≤ s.latched.dcap.toNat ∧ t.mem = s.mem.writeBytes s.latched.dst.toNat out ∧
      t.outlen.toNat = out.length := by
  obtain ⟨_, rfl⟩ | ⟨_, _, rfl⟩ | ⟨_, _, _, rfl⟩ | ⟨_, _, _, _, rfl⟩ | ⟨_, _, _, _, _, rfl⟩ | ⟨_, _, _, _, _, _, rfl⟩ |
    ⟨hr, _, hd, out, hdecoded, hcap, rfl⟩ := execUnpack_inv h
  · exact absurd herr (raise_err_ne_zero _ _ _)
  · exact absurd herr (raise_err_ne_zero _ _ _)
  · exact absurd herr (raise_err_ne_zero _ _ _)
  · exact absurd herr (raise_err_ne_zero _ _ _)
  · exact absurd herr (raise_err_ne_zero _ _ _)
  · exact absurd herr (raise_err_ne_zero _ _ _)
  · exact ⟨hr, hd, out, hdecoded, hcap, rfl, toNat_ofNat_of_le_dcap hcap⟩

/-- With its padding stripped, a window over a payload holds the codes alone. -/
theorem remainingBits_of_payload {u : State} {code : Table Code 256} {bytes : List Byte}
    (hsource : sourceBytes u = payload code bytes) (hpad : u.latched.padin.toNat = padCount (totalBits code bytes)) :
    remainingBits u = codeString code bytes := by
  have hcount : 8 * u.latched.len.toNat - u.latched.padin.toNat = (codeString code bytes).length := by
    have hwhole := eight_mul_byteCount (totalBits code bytes)
    rw [← length_sourceBytes, hsource, length_payload, hpad, length_codeString]
    omega
  rw [remainingBits, hcount, hsource, unpackBits_payload, List.take_left]

/-- Settles O39: PACK's buffer is one of entries, the second window holds its codes, and they decode to it. -/
theorem unpackInvertsPack : Obligations.UnpackInvertsPack := by
  unfold Obligations.UnpackInvertsPack
  intro s t u hinv hcode hwf hpack herr htree hwfu hlen hpad hwritten hs hd hcap
  obtain ⟨hv, hds, hcovered, hcaps, hmem, houtlen, htpad⟩ := exec_pack_ok hpack herr
  obtain ⟨hne, hgen⟩ := hcode.generated hv
  rw [hgen, firstUncoded_genCodes hinv hne] at hcovered
  rw [← length_payload] at houtlen
  rw [houtlen, hmem] at hwritten
  have hsource := sourceBytes_of_written hwf (payload_inMem hds hcaps) (hlen ▸ houtlen) hwritten
  have hremaining := remainingBits_of_payload hsource (hpad.trans htpad)
  have hdecoded : decodeStream u.tkind u.root u.node (remainingStream u) = .ok (sourceBytes s) := by
    rw [← remainingBits_eq_remainingStream, hremaining, htree.tkind, htree.root, htree.node, hgen]
    exact decodeStream_codeString hinv hne hcovered
  have hpadu : u.latched.padin.toNat ≤ 7 := by
    rw [hpad, htpad, padCount]
    omega
  have hbits : u.latched.padin.toNat ≤ 8 * u.latched.len.toNat := by
    have hwhole := eight_mul_byteCount (totalBits s.code (sourceBytes s))
    rw [hpad, htpad, hlen, houtlen, length_payload]
    omega
  obtain ⟨v, hv, hok, hvlen, hbytes, _⟩ := exec_unpack_writes ⟨htree.tkind ▸ hne, hpadu, hbits⟩ hs hd hwfu hdecoded
    ((length_sourceBytes s).trans_le hcap)
  refine ⟨v, hv, hok, BitVec.eq_of_toNat_eq (hvlen.trans (length_sourceBytes s)), fun j hj => ?_⟩
  rw [hbytes j (hj.trans_eq (length_sourceBytes s).symm), getElem_sourceBytes]

/-- A source whose stripped bits are 0 is its remaining bits and that many zeros. -/
theorem unpackBits_sourceBytes {s : State} (hbits : s.latched.padin.toNat ≤ 8 * s.latched.len.toNat)
    (h : ∀ p, remainingCount s ≤ p → p < 8 * s.latched.len.toNat → streamBit s.mem s.latched.src.toNat p = false) :
    unpackBits (sourceBytes s) = remainingBits s ++ List.replicate s.latched.padin.toNat false := by
  have hlen : (unpackBits (sourceBytes s)).length = 8 * s.latched.len.toNat := by
    rw [length_unpackBits, length_sourceBytes]
  rw [← List.take_append_drop (remainingCount s) (unpackBits (sourceBytes s))]
  refine congrArg (remainingBits s ++ ·) (List.eq_replicate_iff.mpr ⟨?_, fun b hb => ?_⟩)
  · rw [List.length_drop, hlen, remainingCount]
    omega
  · obtain ⟨k, hk, rfl⟩ := List.mem_iff_getElem.mp hb
    rw [List.length_drop, hlen] at hk
    rw [List.getElem_drop, getElem_unpackBits _ _ (by omega) (by rw [length_sourceBytes]; omega), getElem_sourceBytes]
    exact h _ (Nat.le_add_right _ _) (by omega)

/-- Settles O40: the stream UNPACK read is the codes of what it wrote, and the stripped zeros are the padding PACK
puts. -/
theorem packInvertsUnpackOfZeroPadding : Obligations.PackInvertsUnpackOfZeroPadding := by
  unfold Obligations.PackInvertsUnpackOfZeroPadding
  intro s t u hinv hcode hv hwf hunpack herr hzeros hcodes hwfu hlen hwritten hs hd hcap
  obtain ⟨⟨htree, hpad, hbits⟩, hds, out, hdecoded, hcaps, hmem, houtlen⟩ := exec_unpack_ok hunpack herr
  obtain ⟨hstream, hentries⟩ := codeString_of_decodeStream hinv htree hdecoded
  have hgen : u.code = genCodes s.tkind s.root s.node := hcodes.code.trans (hcode.generated hv).2
  rw [houtlen, hmem] at hwritten
  have hend : s.latched.dst.toNat + out.length ≤ Config.memBytes := by
    have hinMem := hds.inMem
    rw [Config.memBytes]
    omega
  have hsource : sourceBytes u = out := sourceBytes_of_written hwf hend (hlen ▸ houtlen) hwritten
  have hcovered : firstUncoded u.code (sourceBytes u) = none := by
    rw [hgen, hsource, firstUncoded_genCodes hinv htree]
    exact hentries
  have htotal : totalBits u.code (sourceBytes u) = remainingCount s := by
    rw [hgen, hsource, ← length_codeString, hstream, remainingBits_eq_remainingStream, length_remainingStream]
  have hpadCount : padCount (remainingCount s) = s.latched.padin.toNat := by
    rw [padCount, remainingCount]
    omega
  have hbyteCount : byteCount (remainingCount s) = s.latched.len.toNat := by
    rw [byteCount_eq, remainingCount]
    omega
  have hpayload : payload u.code (sourceBytes u) = sourceBytes s := by
    rw [payload, htotal, hpadCount, hgen, hsource, hstream, ← unpackBits_sourceBytes hbits hzeros, packBytes_unpackBits]
  have hfits : byteCount (totalBits u.code (sourceBytes u)) ≤ u.latched.dcap.toNat := by
    rwa [htotal, hbyteCount]
  have hinMem := payload_inMem hd hfits
  refine ⟨_, exec_pack_packed (hcodes.codeV.trans hv) hs hd hcovered hfits, complete_completedOk rfl rfl rfl,
    ?outlen, ?pad, fun k hk => ?bytes⟩
  case outlen =>
    rw [complete_outlen, htotal, hbyteCount, BitVec.ofNat_toNat, BitVec.setWidth_eq]
  case pad => rw [complete_pad, htotal, toNat_padCount, hpadCount]
  case bytes =>
    rw [hpayload] at hinMem
    rw [complete_mem, hpayload, Memory.read_writeBytes_inside hwfu _ _ k ((length_sourceBytes s).symm ▸ hk) hinMem,
      getElem_sourceBytes]

end Sys2Proof.Machine
end
